-- ==== Sys2Proof/Word.lean ====
section
/-! DEFINITION. The words of the decode block: bytes, 32-bit words, 8-byte blocks, the four accumulators and
the key array (00_scope.md R9, R11; 40_cipher.md R121). -/

namespace Sys2Proof

/-- A byte; bit 0 is its least significant bit (R11). -/
abbrev Byte := BitVec 8

/-- A 32-bit word (R9, KS word width). -/
abbrev Word := BitVec 32

/-- Eight bytes in memory order, `b0` at the lowest address: a cipher block (R9 BLOCK_BITS, `Blk` of R121) and
the contents of CACHE (R28). -/
structure Blk where
  b0 : Byte
  b1 : Byte
  b2 : Byte
  b3 : Byte
  b4 : Byte
  b5 : Byte
  b6 : Byte
  b7 : Byte
deriving DecidableEq, Repr, Inhabited

/-- The four 32-bit accumulators ACC[0..3] (R9 NACC, R22, `Acc` of R121). -/
structure Acc where
  a0 : Word
  a1 : Word
  a2 : Word
  a3 : Word
deriving DecidableEq, Repr, Inhabited

/-- An array of key words, index 0 first: KS, and `Key` of R121. -/
abbrev Key := List Word

/-- VARIANT (R25): 0 Plain, 1 Encrypted. -/
inductive Variant where
  /-- 0: "direct memory read". -/
  | plain
  /-- 1: "reads through the Block Cipher Engine, 8 bytes at a time". -/
  | encrypted
deriving DecidableEq, Repr

end Sys2Proof
end

