-- ==== Sys2Proof/Config.lean ====
section
/-! DEFINITION. The parameters of a launch (00_scope.md R9, R10; 10_state.md R40) and the values the spec leaves open,
as constants without a body. `Params` is plain data: it stands in `State`, so that a statement about every state
is a statement about every choice of the parameters, and a run can be computed for any of them (log 9). -/

namespace Sys2Proof

/-- EXTENT (R9): the size of SRCMEM, "exactly one of 0x20000, 0x40000, 0x80000 bytes". -/
inductive Extent where
  | x20000
  | x40000
  | x80000
deriving DecidableEq, Repr

/-- HDR_LAYOUT (R10, 90_conflicts.md C1, C2). -/
inductive HdrLayout where
  /-- Three bytes, 20-bit size: the default (30_encoding.md R94). -/
  | table6
  /-- Four bytes, 24-bit size: the alternative (30_encoding.md R95). -/
  | word32
deriving DecidableEq, Repr

/-- REF_LAYOUT (R10): where length and distance lie in the two bytes of a back-reference. -/
inductive RefLayout where
  /-- The default, PRESUMED by the spec from general knowledge (30_encoding.md R98). -/
  | hi4len
  /-- A layout the spec does not describe: the fields are `Config.refFields` of the two bytes (log 12). -/
  | other
deriving DecidableEq, Repr

/-- KC_MOD (R10), read by the reference cipher only: 12, or the alternative 8 (92_eei_decisions.md D9). -/
inductive KcMod where
  | twelve
  | eight
deriving DecidableEq, Repr

/-- Which cipher record CIPH (R121) the hardware holds. -/
inductive CiphSel where
  /-- The reference instance, the spec's default (92_eei_decisions.md D3; PRESUMED there, log 10). -/
  | refK1
  /-- An instance of which nothing is known but the laws of R122, built over constants without a body (log 10). -/
  | unspecified
deriving DecidableEq, Repr

/-- The parameters of one launch; no command changes them (R40). -/
structure Params where
  extent : Extent
  hdrLayout : HdrLayout
  refLayout : RefLayout
  hasBenc : Bool
  ciph : CiphSel
  /-- NS (R10): the number of words of the substitution table. -/
  ns : Nat
  kcMod : KcMod
deriving DecidableEq, Repr

namespace Config

/-- NP (R10): the number of round entries at the head of KS. -/
def np : Nat := 18

/-- The reference values of R10 and the configuration of 95_test_vectors.md (log 9: EXTENT and HAS_BENC are open). -/
def params : Params where
  extent := .x20000
  hdrLayout := .table6
  refLayout := .hi4len
  hasBenc := true
  ciph := .refK1
  ns := 1024
  kcMod := .twelve

/-- Word i of KEYTABLE where no contents of KEYROM are given: "No source gives a single word of it" (R10, log 8). -/
opaque keyWord : Nat → Word

/-- `aux_init` of an unspecified CIPH (R121). -/
opaque auxInit : Word → List Word

/-- Word i of the key that `ks_mix` of an unspecified CIPH gives; a key keeps its NP + NS words (R121). -/
opaque ksMixWord : Key → List Word → Nat → Nat → Word

/-- The scratch that `ks_mix` of an unspecified CIPH hands on (R121). -/
opaque ksMixAux : Key → List Word → Nat → List Word

/-- `acc_init` of an unspecified CIPH (R121). -/
opaque accInit : Key → Word → Byte → Acc

/-- The block result of `blk_enc` of an unspecified CIPH, a bijection on blocks (L3 of R122) whose inverse is that of
`blk_dec` (L2), by the key and by what the accumulators show (`accClass`). -/
opaque blkPerm : Key → Acc → Equiv.Perm Blk

/-- All that block transforms of an unspecified CIPH can tell of the accumulators: a representative of each class of
accumulators that L4 of R122 calls indistinguishable. -/
opaque accClass : Key → Acc → Acc

/-- Accumulators in the class that follows a class once a given plain block has been encrypted, or decrypted to. -/
opaque accNext : Key → Acc → Blk → Acc

/-- The accumulators that `blk_enc` of an unspecified CIPH leaves, where they are in the class that follows. -/
opaque accEnc : Key → Acc → Blk → Acc

/-- The accumulators that `blk_dec` of an unspecified CIPH leaves, where they are in the class that follows. -/
opaque accDec : Key → Acc → Blk → Acc

/-- The length field and the distance field in the two bytes of a REF under a layout the spec does not describe
(R10 REF_LAYOUT, 91_not_in_source.md N8; log 12). -/
opaque refFields : Byte → Byte → BitVec 4 × BitVec 12

end Config

end Sys2Proof
end

