-- ==== Sys2Proof/Machine/Operands.lean ====
section
/-! DEFINITION. Operand assembly: little-endian composition (00_scope.md R13), the bytes of a block (40_cipher.md R125)
and the fields of the stream elements (30_encoding.md R94, R95, R98, R100). -/

namespace Sys2Proof.Machine

/-- EXTENT in bytes (R9). -/
def extentBytes : Extent → Nat
  | .x20000 => 0x20000
  | .x40000 => 0x40000
  | .x80000 => 0x80000

/-- KC_MOD / 4: how many key-code words the mixing uses (40_cipher.md R135). -/
def kcWords : KcMod → Nat
  | .twelve => 3
  | .eight => 2

/-- `le16(b0, b1)`: b0 is the byte read first (R13). -/
def le16 (b0 b1 : Byte) : BitVec 16 := b1 ++ b0

/-- `le32(b0, b1, b2, b3)` (R13). -/
def le32 (b0 b1 b2 b3 : Byte) : Word := b3 ++ b2 ++ b1 ++ b0

/-- `le24`, the WORD32 size b1 | b2 << 8 | b3 << 16 (R95) and the operand n of LZRUN in a command frame. -/
def le24 (b0 b1 b2 : Byte) : BitVec 24 := b2 ++ b1 ++ b0

/-- Byte i (i = 0 is bits 7:0) of a word: `bytes_le32` (R13). -/
def wordByte (w : Word) (i : Nat) : Byte := w.extractLsb' (8 * i) 8

/-- Byte i (i = 0 is bits 7:0) of a 24-bit value. -/
def sizeByte (w : BitVec 24) (i : Nat) : Byte := w.extractLsb' (8 * i) 8

/-- Element i of a block or of CACHE; no rule uses an index above 7. -/
def blkGet (b : Blk) : Nat → Byte
  | 0 => b.b0
  | 1 => b.b1
  | 2 => b.b2
  | 3 => b.b3
  | 4 => b.b4
  | 5 => b.b5
  | 6 => b.b6
  | _ => b.b7

/-- The block whose byte i is `f i`. -/
def blkOfFn (f : Nat → Byte) : Blk := ⟨f 0, f 1, f 2, f 3, f 4, f 5, f 6, f 7⟩

/-- Half 0 of a block, le32 of its bytes 0..3 (R125). -/
def blkHalf0 (b : Blk) : Word := le32 b.b0 b.b1 b.b2 b.b3

/-- Half 1 of a block, le32 of its bytes 4..7 (R125). -/
def blkHalf1 (b : Blk) : Word := le32 b.b4 b.b5 b.b6 b.b7

/-- The block of a result (o0, o1): bytes_le32(o0) followed by bytes_le32(o1) (R125). -/
def blkOfHalves (o0 o1 : Word) : Blk :=
  ⟨wordByte o0 0, wordByte o0 1, wordByte o0 2, wordByte o0 3,
   wordByte o1 0, wordByte o1 1, wordByte o1 2, wordByte o1 3⟩

/-- `bswap32(w) = w[7:0] ++ w[15:8] ++ w[23:16] ++ w[31:24]` (40_cipher.md R135). -/
def bswap32 (w : Word) : Word := wordByte w 0 ++ wordByte w 1 ++ wordByte w 2 ++ wordByte w 3

/-- The type field b0[7:4] of a header (R94, R95). -/
def hdrType (b0 : Byte) : BitVec 4 := b0.extractLsb' 4 4

/-- The low nibble b0[3:0] of a header's first byte. -/
def hdrLow (b0 : Byte) : BitVec 4 := b0.extractLsb' 0 4

/-- The TABLE6 size b0[3:0] | b1 << 4 | b2 << 12, zero-extended to 24 bits (R94, R100). -/
def hdrSize6 (b0 b1 b2 : Byte) : BitVec 24 := (b2 ++ b1 ++ hdrLow b0).setWidth 24

/-- The length field and the distance field of a REF (R98): lenf = r0[7:4], distf = r0[3:0] << 8 | r1 under HI4LEN. -/
def refFieldsOf (l : RefLayout) (r0 r1 : Byte) : BitVec 4 × BitVec 12 :=
  match l with
  | .hi4len => (r0.extractLsb' 4 4, r0.extractLsb' 0 4 ++ r1)
  | .other => Config.refFields r0 r1

/-- LEN = lenf + 3 (R100, LEN_BIAS of R9). -/
def lenOf (lenf : BitVec 4) : Nat := lenf.toNat + 3

/-- DIST = distf + 1 (R100, DIST_BIAS of R9). -/
def distOf (distf : BitVec 12) : Nat := distf.toNat + 1

/-- VARIANT in bit 0 of an operand (30_encoding.md R93). -/
def variantOfBit (b : Bool) : Variant :=
  match b with
  | false => .plain
  | true => .encrypted

/-- The number of a variant (10_state.md R25). -/
def variantNum : Variant → Nat
  | .plain => 0
  | .encrypted => 1

end Sys2Proof.Machine
end

