-- ==== Sys2Proof/Syntax.lean ====
section
/-! DEFINITION. The instructions: one constructor per row of spec/opcode_table.json, eleven host commands
(30_encoding.md R92) and six rows of stream elements (30_encoding.md R94 to R99). -/

namespace Sys2Proof

/-- An instruction: what the block interprets (R90). -/
inductive Instr where
  /-- RESET (43_control.md R220). -/
  | reset
  /-- KINIT seed, level (40_cipher.md R123). -/
  | kinit (seed : Word) (level : Byte)
  /-- BDEC blk (R124). -/
  | bdec (blk : Blk)
  /-- BENC blk (R128). -/
  | benc (blk : Blk)
  /-- SADDR variant, ptr (41_bytesource.md R152). -/
  | saddr (variant : Variant) (ptr : Word)
  /-- GU8 (R154). -/
  | gu8
  /-- GU16 (R155). -/
  | gu16
  /-- GU32 (R156). -/
  | gu32
  /-- RHDR (42_lz77.md R181). -/
  | rhdr
  /-- LZRUN n (R183). -/
  | lzrun (n : BitVec 24)
  /-- LZREG variant, ptr (R189). -/
  | lzreg (variant : Variant) (ptr : Word)
  /-- HDR under TABLE6 (30_encoding.md R94): the type and the size, zero-extended to 24 bits. -/
  | hdr (typ : BitVec 4) (size : BitVec 24)
  /-- HDR under WORD32 (R95): the type, the ignored bits b0[3:0] and the size. -/
  | hdrW32 (typ : BitVec 4) (ign : BitVec 4) (size : BitVec 24)
  /-- FLG (R96): the flag byte. -/
  | flg (f : Byte)
  /-- LIT (R97): the output byte. -/
  | lit (d : Byte)
  /-- REF (R98): the real length and distance, biases added (R100, R103). -/
  | ref (len dist : Nat)
  /-- END (R99): no bits. -/
  | endRun
deriving DecidableEq, Repr

end Sys2Proof
end

