-- ==== Sys2Proof/WellFormed.lean ====
section
/-! DEFINITION. Which instructions an encoding can hold (30_encoding.md R100, R103). Every other operand has
exactly the width of its type. -/

namespace Sys2Proof

/-- The ranges of R100 and R103: a TABLE6 size has 20 bits; LEN is 3..18 and DIST is 1..4096. -/
def Instr.wellFormed : Instr → Bool
  | .hdr _ size => decide (size.toNat < 0x100000)
  | .ref len dist => decide (3 ≤ len) && decide (len ≤ 18) && decide (1 ≤ dist) && decide (dist ≤ 4096)
  | .reset | .kinit _ _ | .bdec _ | .benc _ | .saddr _ _ | .gu8 | .gu16 | .gu32 | .rhdr | .lzrun _ | .lzreg _ _
  | .hdrW32 _ _ _ | .flg _ | .lit _ | .endRun => true

end Sys2Proof
end

