-- ==== Sys2Proof/Decode.lean ====
section
/-! DEFINITION. Decoding and encoding. Host commands stand in frames of nine bytes (log 1: R91 fixes no wire layout):
byte 0 is the code of 30_encoding.md R92, the operand fields follow in the order of R92, each little-endian, and bytes
past the operands are not looked at. Stream elements are the bytes of 30_encoding.md R94 to R99; their kind is
known from context alone (R102). -/

namespace Sys2Proof

open Machine

/-- Why bytes are no instruction. -/
inductive DecodeError where
  /-- A command code that R92 does not list (R101(h), 43_control.md R221). -/
  | reservedCode (code : Byte)
  /-- The bytes are fewer or more than the instruction has. -/
  | wrongLength (n : Nat)
deriving DecidableEq, Repr

/-- A stream element, decoded (R15: "a unit of the compressed region that LZD interprets"). -/
inductive Element where
  | hdr (typ : BitVec 4) (size : BitVec 24)
  | hdrW32 (typ : BitVec 4) (ign : BitVec 4) (size : BitVec 24)
  | flg (f : Byte)
  | lit (d : Byte)
  | ref (len dist : Nat)
  | endRun
deriving DecidableEq, Repr

/-- The instruction an element is. -/
def Element.toInstr : Element → Instr
  | .hdr t n => .hdr t n
  | .hdrW32 t x n => .hdrW32 t x n
  | .flg f => .flg f
  | .lit d => .lit d
  | .ref l d => .ref l d
  | .endRun => .endRun

/-- Where an instruction stands, which is all that tells its kind (R102). -/
inductive Site where
  /-- A command of the host. -/
  | command
  /-- The first element of a region. -/
  | header (l : HdrLayout)
  /-- A token is wanted and no unused flag remains. -/
  | flag
  /-- The token a flag 0 selects. -/
  | literal
  /-- The token a flag 1 selects. -/
  | backRef (l : RefLayout)
  /-- The declared size has been produced. -/
  | finished
deriving DecidableEq, Repr

/-- The bytes of a command frame (log 1): the longest command, BDEC or BENC, is a code and eight bytes. -/
def frameBytes : Nat := 9

/-- The command a whole frame holds, `o i` its byte i; the codes are those of R92, the operands those of R93. -/
def decodeFrame (o : Nat → Byte) : Except DecodeError Instr :=
  let c := o 0
  if c = 0x00 then .ok .reset
  else if c = 0x01 then .ok (.kinit (le32 (o 1) (o 2) (o 3) (o 4)) (o 5))
  else if c = 0x02 then .ok (.bdec (blkOfFn fun i => o (i + 1)))
  else if c = 0x03 then .ok (.benc (blkOfFn fun i => o (i + 1)))
  else if c = 0x10 then .ok (.saddr (variantOfBit ((o 1).getLsbD 0)) (le32 (o 2) (o 3) (o 4) (o 5)))
  else if c = 0x11 then .ok .gu8
  else if c = 0x12 then .ok .gu16
  else if c = 0x13 then .ok .gu32
  else if c = 0x20 then .ok .rhdr
  else if c = 0x21 then .ok (.lzrun (le24 (o 1) (o 2) (o 3)))
  else if c = 0x22 then .ok (.lzreg (variantOfBit ((o 1).getLsbD 0)) (le32 (o 2) (o 3) (o 4) (o 5)))
  else .error (.reservedCode c)

/-- The command that the bytes of a frame are. -/
def decodeCommand (bs : List Byte) : Except DecodeError Instr :=
  if bs.length = frameBytes then decodeFrame fun i => bs.getD i 0 else .error (.wrongLength bs.length)

/-- HDR under TABLE6 (R94). -/
def decodeHdr6 (b0 b1 b2 : Byte) : Element := .hdr (hdrType b0) (hdrSize6 b0 b1 b2)

/-- HDR under WORD32 (R95). -/
def decodeHdr32 (b0 b1 b2 b3 : Byte) : Element := .hdrW32 (hdrType b0) (hdrLow b0) (le24 b1 b2 b3)

/-- REF (R98, R100): the fields of the layout with their biases. -/
def decodeRef (l : RefLayout) (r0 r1 : Byte) : Element :=
  .ref (lenOf (refFieldsOf l r0 r1).1) (distOf (refFieldsOf l r0 r1).2)

/-- How many bytes an instruction at a place has (R102). -/
def siteBytes : Site → Nat
  | .command => frameBytes
  | .header .table6 => 3
  | .header .word32 => 4
  | .flag => 1
  | .literal => 1
  | .backRef _ => 2
  | .finished => 0

/-- The stream element of a place whose byte i is `o i`. At the place of a command, where no stream element stands, it is
END, which has no bytes; `decode` does not ask for it there. -/
def decodeElement (site : Site) (o : Nat → Byte) : Element :=
  match site with
  | .header .table6 => decodeHdr6 (o 0) (o 1) (o 2)
  | .header .word32 => decodeHdr32 (o 0) (o 1) (o 2) (o 3)
  | .flag => .flg (o 0)
  | .literal => .lit (o 0)
  | .backRef l => decodeRef l (o 0) (o 1)
  | .finished => .endRun
  | .command => .endRun

/-- The instruction that bytes at a place are: total, rejecting by name. -/
def decode (site : Site) (bs : List Byte) : Except DecodeError Instr :=
  if site = .command then decodeCommand bs
  else if bs.length = siteBytes site then .ok (decodeElement site fun i => bs.getD i 0).toInstr
  else .error (.wrongLength bs.length)

/-- Where an instruction stands in its row of the table (REF: HI4LEN, the row's layout). -/
def Instr.site : Instr → Site
  | .reset | .kinit _ _ | .bdec _ | .benc _ | .saddr _ _ | .gu8 | .gu16 | .gu32 | .rhdr | .lzrun _ | .lzreg _ _ => .command
  | .hdr _ _ => .header .table6
  | .hdrW32 _ _ _ => .header .word32
  | .flg _ => .flag
  | .lit _ => .literal
  | .ref _ _ => .backRef .hi4len
  | .endRun => .finished

/-- The bytes of a block, lowest address first. -/
def blkBytes (b : Blk) : List Byte := [b.b0, b.b1, b.b2, b.b3, b.b4, b.b5, b.b6, b.b7]

/-- The four bytes of a word, least significant first. -/
def wordBytes (w : Word) : List Byte := [wordByte w 0, wordByte w 1, wordByte w 2, wordByte w 3]

/-- The frame of a command: its code, its operand bytes, zeros up to nine bytes. -/
def frame (code : Byte) (operands : List Byte) : List Byte :=
  code :: (operands ++ List.replicate (frameBytes - 1 - operands.length) 0)

/-- The operand byte of a variant (R93). -/
def variantByte : Variant → Byte
  | .plain => 0
  | .encrypted => 1

/-- The bytes of a well-formed instruction: the codes of R92, the listings of R103. -/
def encode : Instr → List Byte
  | .reset => frame 0x00 []
  | .kinit seed level => frame 0x01 (wordBytes seed ++ [level])
  | .bdec blk => frame 0x02 (blkBytes blk)
  | .benc blk => frame 0x03 (blkBytes blk)
  | .saddr v ptr => frame 0x10 (variantByte v :: wordBytes ptr)
  | .gu8 => frame 0x11 []
  | .gu16 => frame 0x12 []
  | .gu32 => frame 0x13 []
  | .rhdr => frame 0x20 []
  | .lzrun n => frame 0x21 [sizeByte n 0, sizeByte n 1, sizeByte n 2]
  | .lzreg v ptr => frame 0x22 (variantByte v :: wordBytes ptr)
  | .hdr t n => [t ++ n.extractLsb' 0 4, n.extractLsb' 4 8, n.extractLsb' 12 8]
  | .hdrW32 t x n => [t ++ x, sizeByte n 0, sizeByte n 1, sizeByte n 2]
  | .flg f => [f]
  | .lit d => [d]
  | .ref len dist =>
    [BitVec.ofNat 4 (len - 3) ++ (BitVec.ofNat 12 (dist - 1)).extractLsb' 8 4, (BitVec.ofNat 12 (dist - 1)).extractLsb' 0 8]
  | .endRun => []

/-- Byte i of a number whose byte 0 is bits 7:0 (the numbering of opcode_table.json). -/
def tableByte (w i : Nat) : Byte := BitVec.ofNat 8 (w / 256 ^ i)

/-- The first k bytes of a number, byte 0 first. -/
def tableBytes (w k : Nat) : List Byte := (List.range k).map (tableByte w)

/-- The command codes of R92. -/
def commandCodes : List Nat := [0x00, 0x01, 0x02, 0x03, 0x10, 0x11, 0x12, 0x13, 0x20, 0x21, 0x22]

/-- What a table word of `nbits` bits is placed as: a word of 0, 16, 24 or 32 bits is the stream element of that length
(END, REF, HDR, HDR.W32); an 8-bit word is a command frame if it is a command code, else a flag byte; a word of any other
length is a command frame. The rows FLG and LIT have no fixed bit, so they share their words with each other and with the
commands; R102 tells them apart by context only (log 18). -/
def tableSite (nbits w : Nat) : Site :=
  match nbits with
  | 0 => .finished
  | 8 => if w % 256 ∈ commandCodes then .command else .flag
  | 16 => .backRef .hi4len
  | 24 => .header .table6
  | 32 => .header .word32
  | _ => .command

/-- The bytes of a table word at its place, lowest first; every bit above `nbits` is 0. -/
def tableWordBytes (nbits w : Nat) : List Byte := tableBytes (w % 2 ^ nbits) (siteBytes (tableSite nbits w))

/-- The instruction the decoder reads from a table word. -/
def decodeTableWord (nbits w : Nat) : Option Instr :=
  match decode (tableSite nbits w) (tableWordBytes nbits w) with
  | .ok i => some i
  | .error _ => none

end Sys2Proof
end

