-- ==== Sys2Proof/Machine/RefCipher.lean ====
section
/-! DEFINITION. The reference instance REF-K1 of the cipher (40_cipher.md R130 to R136). All of it is PRESUMED: the spec
supplies it from general knowledge (93_implementation_defined.md part 2; log 10). -/

namespace Sys2Proof.Machine

/-- NR (R130): the rounds of a block transform of REF-K1. -/
def refRounds : Nat := 16

/-- Word i of a key; no rule uses an index beyond the last word. -/
def keyWordAt (k : Key) (i : Nat) : Word := k.getD i 0

/-- The substitution function F (R131). -/
def refF (k : Key) (z : Word) : Word :=
  ((keyWordAt k (18 + (wordByte z 3).toNat) + keyWordAt k (274 + (wordByte z 2).toNat))
      ^^^ keyWordAt k (530 + (wordByte z 1).toNat))
    + keyWordAt k (786 + (wordByte z 0).toNat)

/-- One round with round entry i over (X, Y, Z, T) = (a0, a1, a2, a3) (R132, R133). -/
def refRound (k : Key) (i : Nat) (r : Acc) : Acc :=
  let z := keyWordAt k i ^^^ r.a0
  let t := refF k z
  ⟨t ^^^ r.a1, z, z, t⟩

/-- The rounds that use the entries of a list, in its order. -/
def refRoundsOver (k : Key) : List Nat → Acc → Acc
  | [], r => r
  | i :: is, r => refRoundsOver k is (refRound k i r)

/-- The round entries of encryption: 0, 1, ..., 15 (R132). -/
def encEntries : List Nat := List.range refRounds

/-- The round entries of decryption: 17, 16, ..., 2 (R133). -/
def decEntries : List Nat := (List.range refRounds).map (fun j => refRounds + 1 - j)

/-- `enc64` (R132): the two result words and the final accumulators. -/
def enc64 (k : Key) (w0 w1 : Word) : (Word × Word) × Acc :=
  let r := refRoundsOver k encEntries ⟨w1, w0, 0, 0⟩
  ((r.a0 ^^^ keyWordAt k 16, r.a1 ^^^ keyWordAt k 17), r)

/-- `dec64` (R133). -/
def dec64 (k : Key) (w0 w1 : Word) : (Word × Word) × Acc :=
  let r := refRoundsOver k decEntries ⟨w1, w0, 0, 0⟩
  ((r.a0 ^^^ keyWordAt k 1, r.a1 ^^^ keyWordAt k 0), r)

/-- A word-level transform over a block (R125, R134); the incoming accumulators are not an argument. -/
def refBlk (f : Key → Word → Word → (Word × Word) × Acc) (k : Key) (b : Blk) : Blk × Acc :=
  let r := f k (blkHalf0 b) (blkHalf1 b)
  (blkOfHalves r.1.1 r.1.2, r.2)

/-- `aux_init(seed) = (seed, seed >> 1, seed << 1)` (R135). -/
def refAuxInit (seed : Word) : List Word := [seed, seed >>> 1, seed <<< 1]

/-- The XOR loop over the round entries i, i + 1, ... (n of them) (R135). -/
def refXorLoop (kc : List Word) (m : Nat) : Nat → Nat → Key → Key
  | 0, _, k => k
  | n + 1, i, k => refXorLoop kc m n (i + 1) (k.set i (keyWordAt k i ^^^ bswap32 (kc.getD (i % m) 0)))

/-- The re-encryption loop over the pairs i, i + 1, ... (n of them) (R135). -/
def refPairLoop : Nat → Nat → Word → Word → Key → Key
  | 0, _, _, _, k => k
  | n + 1, i, s0, s1, k =>
    let e := (enc64 k s0 s1).1
    refPairLoop n (i + 1) e.1 e.2 ((k.set (2 * i) e.2).set (2 * i + 1) e.1)

/-- The key-code adjustment before the third iteration only (R135). -/
def refAdjust (j : Nat) (kc : List Word) : List Word :=
  if j = 3 then [kc.getD 0 0, kc.getD 1 0 <<< 1, kc.getD 2 0 >>> 1] else kc

/-- The two encryptions of the key code (R135), block results only. -/
def refKeyCode (k : Key) (kc : List Word) : List Word :=
  let e1 := (enc64 k (kc.getD 1 0) (kc.getD 2 0)).1
  let e2 := (enc64 k (kc.getD 0 0) e1.1).1
  [e2.1, e2.2, e1.2]

/-- `ks_mix(K, KC, j)` (R135): 521 pairs are all 1042 words. -/
def refKsMix (m : Nat) (k : Key) (kc : List Word) (j : Nat) : Key × List Word :=
  let kc := refKeyCode k (refAdjust j kc)
  (refPairLoop 521 0 0 0 (refXorLoop kc m 18 0 k), kc)

end Sys2Proof.Machine
end

