-- ==== Sys2Proof/Machine/Memory.lean ====
section
/-! DEFINITION. Byte memories as lists of cells in one canonical form: addresses strictly rising, and no cell equal to
what an unlisted address reads as (20_memory.md R60; logs 6 and 7). -/

namespace Sys2Proof.Machine

/-- A byte memory. -/
abbrev Memory := List Host.Cell

/-- What an unlisted byte of SRCMEM reads as: 0x00 (DESIGN CHOICE, log 6). -/
def srcDefault : Option Byte := some 0

/-- What an unlisted byte of OUTMEM reads as: no value (20_memory.md R62, log 7). -/
def outDefault : Option Byte := none

/-- The byte at an address; `dflt` is what an unlisted address reads as. -/
def memRead (dflt : Option Byte) : Memory → Nat → Option Byte
  | [], _ => dflt
  | (a', v) :: m, a => if a' = a then some v else memRead dflt m a

/-- Put a cell in front, unless it is what an unlisted address reads as. -/
def memCons (dflt : Option Byte) (a : Nat) (v : Byte) (m : Memory) : Memory :=
  if some v = dflt then m else (a, v) :: m

/-- Write one byte, keeping the canonical form. -/
def memWrite (dflt : Option Byte) : Memory → Nat → Byte → Memory
  | [], a, v => memCons dflt a v []
  | (a', v') :: m, a, v =>
    if a < a' then memCons dflt a v ((a', v') :: m)
    else if a' = a then memCons dflt a v m
    else (a', v') :: memWrite dflt m a v

/-- The canonical form, from address `lo` on. -/
def memWfFrom (dflt : Option Byte) : Nat → Memory → Bool
  | _, [] => true
  | lo, (a, v) :: m => decide (lo ≤ a) && (decide (some v ≠ dflt) && memWfFrom dflt (a + 1) m)

/-- The canonical form of a memory. -/
def Memory.wf (dflt : Option Byte) (m : Memory) : Bool := memWfFrom dflt 0 m

end Sys2Proof.Machine
end

