-- ==== Sys2Proof/Machine/State.lean ====
section
/-! DEFINITION. The state of one decode block (10_state.md R20), its memories (20_memory.md R60), the launch parameters,
and the model's own fields (command queue, response, activity); reset (10_state.md R42). -/

namespace Sys2Proof.Machine

/-- The decode errors (60_exceptions.md R230). -/
inductive ErrKind where
  /-- Code 1 (R231). -/
  | unsupportedCompressionType
  /-- Code 2 (R232). -/
  | backReferenceOutOfRange
  /-- Code 3 (R233). -/
  | truncatedSource
deriving DecidableEq, Repr

/-- The value a response carries with Ok (30_encoding.md R91, R92). -/
inductive Value where
  | none
  | block (b : Blk)
  | u8 (v : Byte)
  | u16 (v : BitVec 16)
  | u32 (v : Word)
  | size (v : BitVec 24)
deriving DecidableEq, Repr

/-- A response (R91): a status and, with Ok, a value. -/
inductive Response where
  | ok (v : Value)
  | err (k : ErrKind)
  | refused
deriving DecidableEq, Repr

/-- What the running command still has to do; idle between commands (the model's own field, log 4). -/
inductive Activity where
  /-- No command is running. -/
  | idle
  /-- ParseHeader is next (42_lz77.md R181); `region` says that the command is LZREG. -/
  | header (region : Bool)
  /-- Run is in progress (R183); `region` says that the command is LZREG. -/
  | run (region : Bool)
deriving DecidableEq, Repr

/-- The state: plain data. -/
structure State where
  /-- The launch parameters (10_state.md R40, log 9). -/
  params : Params
  /-- SRCMEM (20_memory.md R61); an unlisted byte reads 0x00 (log 6). -/
  srcmem : Memory
  /-- KEYROM (R63): the words given, index 0 first; a word not given is `Config.keyWord` (log 8). -/
  keyrom : List Word
  /-- KS (10_state.md R21). -/
  ks : Key
  /-- ACC (R22). -/
  acc : Acc
  /-- KRDY (R23). -/
  krdy : Bool
  /-- VARIANT (R25). -/
  variant : Variant
  /-- SRC (R26). -/
  src : Word
  /-- POS (R27), 0 to 8. -/
  pos : Nat
  /-- CACHE (R28). -/
  cache : Blk
  /-- SRDY (R30). -/
  srdy : Bool
  /-- CTYPE (R31). -/
  ctype : BitVec 4
  /-- DSIZE (R32). -/
  dsize : BitVec 24
  /-- OPOS (R33), 0 to n. -/
  opos : Nat
  /-- FLAGS (R34). -/
  flags : Byte
  /-- FCNT (R35), 0 to 8. -/
  fcnt : Nat
  /-- LEN (R36), 3 to 18 once written. -/
  len : Nat
  /-- DIST (R36), 1 to 4096 once written. -/
  dist : Nat
  /-- ERR (R37): 0 none, else the code of the error. -/
  err : BitVec 2
  /-- The bytes of OUTMEM that hold a value (20_memory.md R62, log 7). -/
  outmem : Memory
  /-- The size n of OUTMEM (R62). -/
  outSize : Nat
  /-- The model's own: what the running command still has to do (log 4). -/
  activity : Activity
  /-- The model's own: the bytes of the commands the host has issued and the block has not accepted (logs 1, 2). -/
  cmdq : List Byte
  /-- The model's own: the response of the last command (log 3). -/
  resp : Option Response
deriving DecidableEq, Repr

/-- Why the machine stops. Both are safe: the hardware never makes these accesses (20_memory.md R70), and no state
with the invariant of Safety.lean raises one. -/
inductive Fault where
  /-- LIT with OPOS at or beyond the size of OUTMEM: the byte does not exist (00_scope.md R14 OutWrite). Raised by LIT. Safe. -/
  | outmemRange
  /-- A copy step reads a byte of OUTMEM that holds no value (R14 OutRead). Raised by REF. Safe. -/
  | outmemNoValue
deriving DecidableEq, Repr

/-- Why the model gives an instruction no meaning. -/
inductive Refusal where
  /-- Raised by exec's arm of an instruction without a meaning; none is left. Safe. -/
  | notModelled (mnemonic : String)
deriving DecidableEq, Repr

/-- The instance after reset over given launch parameters, memories and pending commands (10_state.md R42; 70 R261: SRCMEM
and KEYROM keep their contents). KS, ACC, SRC, CACHE, LEN and DIST have no value in the spec: zeros (DESIGN CHOICE, log 5). -/
def resetWith (params : Params) (srcmem : Memory) (keyrom : List Word) (cmdq : List Byte) : State where
  params := params
  srcmem := srcmem
  keyrom := keyrom
  ks := List.replicate (Config.np + params.ns) 0
  acc := ⟨0, 0, 0, 0⟩
  krdy := false
  variant := .plain
  src := 0
  pos := 8
  cache := ⟨0, 0, 0, 0, 0, 0, 0, 0⟩
  srdy := false
  ctype := 0
  dsize := 0
  opos := 0
  flags := 0
  fcnt := 0
  len := 0
  dist := 0
  err := 0
  outmem := []
  outSize := 0
  activity := .idle
  cmdq := cmdq
  resp := none

/-- The machine right after power-on reset (70_reset_and_hazards.md R260), with the launch parameters of `Config.params`,
no contents given to SRCMEM and KEYROM, and no command issued. -/
def State.reset : State := resetWith Config.params [] [] []

end Sys2Proof.Machine
end

