-- ==== Sys2Proof/Machine/CipherConfig.lean ====
section
/-! DEFINITION. The configuration record CIPH (40_cipher.md R121), its laws (R122), its instances, and the key schedule
that KINIT computes over it (R123). -/

namespace Sys2Proof.Machine

/-- CIPH (R121). `Aux` is a list of words: R121 leaves that type to the CIPH, and a list of words can hold the scratch
of any (log 10). -/
structure Ciph where
  auxInit : Word → List Word
  ksMix : Key → List Word → Nat → Key × List Word
  accInit : Key → Word → Byte → Acc
  blkDec : Key → Acc → Blk → Blk × Acc
  blkEnc : Key → Acc → Blk → Blk × Acc

/-- The reference instance REF-K1 (R134, R135; PRESUMED, log 10): `acc_init` is zero, and no transform reads the incoming
accumulators. -/
def refK1 (m : Nat) : Ciph where
  auxInit := refAuxInit
  ksMix := refKsMix m
  accInit _ _ _ := ⟨0, 0, 0, 0⟩
  blkDec k _ b := refBlk dec64 k b
  blkEnc k _ b := refBlk enc64 k b

/-- The accumulators that an unspecified CIPH leaves after a transform with a given plain block (L4 of R122): those proposed,
or, where later transforms could tell these from the ones that follow, the latter. -/
def accAdvance (k : Key) (a : Acc) (plain : Blk) (proposed : Acc) : Acc :=
  let next := Config.accNext k (Config.accClass k a) plain
  if Config.accClass k proposed = Config.accClass k next then proposed else next

/-- `blk_enc` of an unspecified CIPH. -/
def freeBlkEnc (k : Key) (a : Acc) (b : Blk) : Blk × Acc :=
  (Config.blkPerm k (Config.accClass k a) b, accAdvance k a b (Config.accEnc k a b))

/-- `blk_dec` of an unspecified CIPH: the inverse bijection (L2, L3 of R122). -/
def freeBlkDec (k : Key) (a : Acc) (c : Blk) : Blk × Acc :=
  let b := (Config.blkPerm k (Config.accClass k a)).symm c
  (b, accAdvance k a b (Config.accDec k a c))

/-- An instance of which nothing is known but the laws of R122, which it obeys by its construction. Every lawful CIPH is of
this form: take for `accClass` a representative of each class of accumulators that no later transform tells apart (log 10). -/
def unspecifiedCiph : Ciph where
  auxInit := Config.auxInit
  ksMix k u j := ((List.range k.length).map (Config.ksMixWord k u j), Config.ksMixAux k u j)
  accInit := Config.accInit
  blkDec := freeBlkDec
  blkEnc := freeBlkEnc

/-- The CIPH of a launch. -/
def ciphOf (p : Params) : Ciph :=
  match p.ciph with
  | .refK1 => refK1 (kcWords p.kcMod)
  | .unspecified => unspecifiedCiph

/-- The block results of a sequence of later transforms, decryptions (`false`) and encryptions (`true`), from given
accumulators: what L4 of R122 observes. -/
def cipherOutputs (c : Ciph) (k : Key) : Acc → List (Bool × Blk) → List Blk
  | _, [] => []
  | a, (enc, b) :: bs =>
    let r := if enc then c.blkEnc k a b else c.blkDec k a b
    r.1 :: cipherOutputs c k r.2 bs

/-- Two accumulator values no later sequence of transforms can tell apart (L4 of R122). -/
def SameToLater (c : Ciph) (k : Key) (a1 a2 : Acc) : Prop :=
  ∀ bs : List (Bool × Blk), cipherOutputs c k a1 bs = cipherOutputs c k a2 bs

/-- L2 and L4 of R122, with the converse round trip that L3 gives. L1 and L5 hold by the types of `Ciph`: its fields are
functions, and no block transform gives a key. The CIPH of every launch has these laws (D3): statement RefCipherLawful. -/
def Ciph.Lawful (c : Ciph) : Prop :=
  (∀ k a b, (c.blkDec k a (c.blkEnc k a b).1).1 = b)
    ∧ (∀ k a b, (c.blkEnc k a (c.blkDec k a b).1).1 = b)
    ∧ ∀ k a b, SameToLater c k (c.blkEnc k a b).2 (c.blkDec k a (c.blkEnc k a b).1).2

/-- `KeyRom(i)` (00_scope.md R14): a word of KEYTABLE (log 8). -/
def keyRom (keyrom : List Word) (i : Nat) : Word := keyrom.getD i (Config.keyWord i)

/-- KEYTABLE, the NP + NS words KINIT copies (R123, 20_memory.md R63). -/
def keyTable (s : State) : Key := (List.range (Config.np + s.params.ns)).map (keyRom s.keyrom)

/-- The iterations j, j + 1, ... of `ks_mix`, n of them (R123). -/
def ksIterate (c : Ciph) : Nat → Nat → Key → List Word → Key
  | 0, _, k, _ => k
  | n + 1, j, k, u => ksIterate c n (j + 1) (c.ksMix k u j).1 (c.ksMix k u j).2

/-- The key schedule of KINIT seed, level: exactly `level` iterations from KEYTABLE (R123). -/
def keySchedule (s : State) (seed : Word) (level : Byte) : Key :=
  ksIterate (ciphOf s.params) level.toNat 1 (keyTable s) ((ciphOf s.params).auxInit seed)

end Sys2Proof.Machine
end

