-- ==== Sys2Proof/Machine/Flags.lean ====
section
/-! DEFINITION. Error codes, status numbers and the token selectors FLAGS and FCNT (10_state.md R34, R35, R37). -/

namespace Sys2Proof.Machine

/-- The code of an error in ERR (60_exceptions.md R234). -/
def errCode : ErrKind → BitVec 2
  | .unsupportedCompressionType => 1
  | .backReferenceOutOfRange => 2
  | .truncatedSource => 3

/-- The error ERR holds; `none` when ERR is 0 (R234). -/
def errOf (e : BitVec 2) : Option ErrKind :=
  if e = 0 then none
  else if e = 1 then some .unsupportedCompressionType
  else if e = 2 then some .backReferenceOutOfRange
  else some .truncatedSource

/-- The status number of a response (30_encoding.md R92): Ok 0, Err 1, REFUSED 2. -/
def statusNum : Response → Nat
  | .ok _ => 0
  | .err _ => 1
  | .refused => 2

/-- Load a flag byte (R34, R35; 42_lz77.md R184). -/
def loadFlags (f : Byte) (s : State) : State := { s with flags := f, fcnt := 8 }

/-- The flag of the next token: FLAGS[7], "most-significant first" (R184). -/
def nextFlag (s : State) : Bool := s.flags.getLsbD 7

/-- Use one flag: FLAGS shifts left by one with zero fill, FCNT counts down (R184). -/
def useFlag (s : State) : State := { s with flags := s.flags <<< 1, fcnt := s.fcnt - 1 }

end Sys2Proof.Machine
end

