-- ==== Sys2Proof/Machine/Ops.lean ====
section
/-! DEFINITION. The shared operations: responses, refusals, raising a decode error and clearing it (60_exceptions.md),
the three memories (20_memory.md), the byte source's micro-operations Fill and NextByte (41_bytesource.md R151, R153),
the copy loop (42_lz77.md R187), and what the host does from outside. -/

namespace Sys2Proof.Machine

open Host (Outcome)

/-- The result of micro-operations that deliver a value or raise a decode error; both carry the state reached
(60_exceptions.md R236). -/
inductive Res (α : Type) where
  | ok (a : α) (s : State)
  | raise (k : ErrKind) (s : State)

/-- Run one micro-operation after another; a raise ends the sequence (R236: "No later micro-operation of the command
runs"). -/
def resBind {α β : Type} (r : Res α) (f : α → State → Res β) : Res β :=
  match r with
  | .ok a s => f a s
  | .raise k s => .raise k s

/-- Give a response (30_encoding.md R91). -/
def respond (r : Response) (s : State) : State := { s with resp := some r }

/-- REFUSED: no state changes (R240; the response is what the host is given, log 13). -/
def refuse (s : State) : State := respond .refused s

/-- The running command completes with Ok(v) (00_scope.md R14). -/
def finishOk (v : Value) (s : State) : State := respond (.ok v) { s with activity := .idle }

/-- `raise E` (R14, 60_exceptions.md R235 to R237): the one operation that takes an error. ERR is written, the running
command stops and responds Err(E); everything else stays as it stands, for there is no handler, no saved program
counter and no mode (R237). -/
def raiseError (k : ErrKind) (s : State) : State := respond (.err k) { s with err := errCode k, activity := .idle }

/-- Going on after an error (R239): SADDR and LZREG clear ERR as their first action. -/
def clearError (s : State) : State := { s with err := 0 }

/-- A command whose micro-operations ended: Ok with a value, or the error raised. -/
def finish {α : Type} (val : α → Value) (r : Res α) : Outcome State Fault Refusal :=
  match r with
  | .ok a s => .next (finishOk (val a) s)
  | .raise k s => .next (raiseError k s)

/-- The refusal test and then the ERR gate of GU8, GU16, GU32, RHDR and LZRUN (R235, R238(a), R240). -/
def gated (body : State → Outcome State Fault Refusal) (s : State) : Outcome State Fault Refusal :=
  if s.srdy then
    match errOf s.err with
    | some k => .next (respond (.err k) s)
    | none => body s
  else .next (refuse s)

/-- The refusal test of SADDR and LZREG: an Encrypted source needs a key (R240). -/
def needsKey (v : Variant) (s : State) : Bool := decide (v = .encrypted) && !s.krdy

/-- One byte of SRCMEM (R14 SrcRead); the rules call it below EXTENT only. -/
def srcByte (s : State) (a : Nat) : Byte := (memRead srcDefault s.srcmem a).getD 0

/-- The size of SRCMEM (R9). -/
def extentOf (s : State) : Nat := extentBytes s.params.extent

/-- SPOS, the address of the next byte to deliver (10_state.md R29): 33 bits, so a natural number. -/
def spos (s : State) : Nat := s.src.toNat + s.pos

/-- SrcRead(a, 8) (R151, Encrypted). -/
def rawWindow (s : State) (a : Nat) : Blk := blkOfFn fun i => srcByte s (a + i)

/-- The window of a Plain fill: bytes at or beyond EXTENT are 0x00 (R151). -/
def plainWindow (s : State) (a : Nat) : Blk :=
  blkOfFn fun i => if a + i < extentOf s then srcByte s (a + i) else 0

/-- A filled window: CACHE, SRC <- a[31:0], POS <- 0 (R151). -/
def setWindow (a : Nat) (img : Blk) (s : State) : State := { s with cache := img, src := BitVec.ofNat 32 a, pos := 0 }

/-- Fill(a) (R151): an Encrypted window must lie inside SRCMEM, or nothing changes; its decryption rewrites ACC. -/
def fill (a : Nat) (s : State) : Res Unit :=
  match s.variant with
  | .encrypted =>
    if a + 8 > extentOf s then .raise .truncatedSource s
    else
      let r := (ciphOf s.params).blkDec s.ks s.acc (rawWindow s a)
      .ok () (setWindow a r.1 { s with acc := r.2 })
  | .plain => .ok () (setWindow a (plainWindow s a) s)

/-- The lazy refill at the start of a byte read (R153). -/
def refill (s : State) : Res Unit :=
  if 8 ≤ s.pos then fill (s.src.toNat + 8) s else .ok () s

/-- Deliver CACHE[POS], or raise where a Plain byte does not exist (R153). -/
def deliver (s : State) : Res Byte :=
  if s.variant = .plain ∧ extentOf s ≤ spos s then .raise .truncatedSource s
  else .ok (blkGet s.cache s.pos) { s with pos := s.pos + 1 }

/-- NextByte() (R153). -/
def nextByte (s : State) : Res Byte := resBind (refill s) fun _ s => deliver s

/-- Two bytes, composed little-endian (R155). -/
def nextU16 (s : State) : Res (BitVec 16) :=
  resBind (nextByte s) fun b0 s => resBind (nextByte s) fun b1 s => .ok (le16 b0 b1) s

/-- Four bytes, composed little-endian (R156). -/
def nextU32 (s : State) : Res Word :=
  resBind (nextByte s) fun b0 s => resBind (nextByte s) fun b1 s =>
    resBind (nextByte s) fun b2 s => resBind (nextByte s) fun b3 s => .ok (le32 b0 b1 b2 b3) s

/-- The steps SADDR and LZREG share after their refusal test (R152, 42_lz77.md R189): clear ERR, detach, set the variant,
fill eagerly, attach. -/
def attach (v : Variant) (ptr : Word) (s : State) : Res Unit :=
  resBind (fill ptr.toNat { clearError s with srdy := false, variant := v }) fun _ s => .ok () { s with srdy := true }

/-- OutRead(i) (R14): `none` where OUTMEM[i] holds no value. -/
def outRead (s : State) (i : Nat) : Option Byte := memRead outDefault s.outmem i

/-- OutWrite(OPOS, v); OPOS <- OPOS + 1 (R185, R187). -/
def outPush (v : Byte) (s : State) : State :=
  { s with outmem := memWrite outDefault s.outmem s.opos v, opos := s.opos + 1 }

/-- OUTMEM <- n bytes, each holding no value (R62, R183); with n = 0 the emptied OUTMEM of LZREG (R189). OPOS <- 0. -/
def clearOut (n : Nat) (s : State) : State := { s with outmem := [], outSize := n, opos := 0 }

/-- The beginning of Run(n) (R183): a fresh OUTMEM, OPOS, FCNT and FLAGS zero. -/
def beginRun (region : Bool) (n : BitVec 24) (s : State) : State :=
  { clearOut n.toNat s with flags := 0, fcnt := 0, activity := .run region }

/-- The copy loop, at most k steps (R187): stop at n; each step reads OUTMEM[OPOS - DIST] and then writes OUTMEM[OPOS]. -/
def copyLoop : Nat → State → Outcome State Fault Refusal
  | 0, s => .next s
  | k + 1, s =>
    if s.outSize ≤ s.opos then .next s
    else
      match outRead s (s.opos - s.dist) with
      | some v => copyLoop k (outPush v s)
      | none => .fault .outmemNoValue

/-- The frame of the host's next command, taken off the queue, if all of its bytes are there (log 1). -/
def fetchCommand (s : State) : Option (List Byte × State) :=
  if frameBytes ≤ s.cmdq.length then
    some (s.cmdq.take frameBytes, { s with cmdq := s.cmdq.drop frameBytes })
  else none

/-- The host issues a command (from outside the machine; log 2). -/
def hostSend (i : Instr) (s : State) : State := { s with cmdq := s.cmdq ++ encode i }

/-- The host writes a byte of SRCMEM between commands (20_memory.md R76; log 16): CACHE is not refreshed. -/
def hostWriteSrc (a : Nat) (v : Byte) (s : State) : State :=
  if a < extentOf s then { s with srcmem := memWrite srcDefault s.srcmem a v } else s

/-- The host reads a byte of OUTMEM between commands (R62); `none` where it holds no value. -/
def hostReadOut (s : State) (i : Nat) : Option Byte := outRead s i

end Sys2Proof.Machine
end

