-- ==== Sys2Proof/Machine/ByteSource.lean ====
section
/-! DEFINITION. The byte-source commands SADDR, GU8, GU16, GU32 (41_bytesource.md R152, R154 to R156). -/

namespace Sys2Proof.Machine

open Host (Outcome)

/-- SADDR (R152): refused for Encrypted without a key; an Encrypted window beyond EXTENT raises TruncatedSource and
leaves SRDY = 0. -/
def execSaddr (v : Variant) (ptr : Word) (s : State) : Outcome State Fault Refusal :=
  if needsKey v s then .next (refuse s) else finish (fun _ => .none) (attach v ptr s)

/-- GU8 (R154). -/
def execGu8 (s : State) : Outcome State Fault Refusal := gated (fun s => finish .u8 (nextByte s)) s

/-- GU16 (R155). -/
def execGu16 (s : State) : Outcome State Fault Refusal := gated (fun s => finish .u16 (nextU16 s)) s

/-- GU32 (R156). -/
def execGu32 (s : State) : Outcome State Fault Refusal := gated (fun s => finish .u32 (nextU32 s)) s

end Sys2Proof.Machine
end

