-- ==== Sys2Proof/Machine/Cipher.lean ====
section
/-! DEFINITION. The cipher commands KINIT, BDEC, BENC (40_cipher.md R123, R124, R128). None of them reads or writes ERR
(R127). -/

namespace Sys2Proof.Machine

open Host (Outcome)

/-- KINIT (R123): KS from KEYTABLE by exactly `level` iterations, ACC from `acc_init`, KRDY <- 1. -/
def execKinit (seed : Word) (level : Byte) (s : State) : Outcome State Fault Refusal :=
  let k := keySchedule s seed level
  .next (finishOk .none { s with ks := k, acc := (ciphOf s.params).accInit k seed level, krdy := true })

/-- A block transform as a command: ACC is rewritten, the result is the response (R124, R128). -/
def blockCommand (f : Key → Acc → Blk → Blk × Acc) (blk : Blk) (s : State) : Outcome State Fault Refusal :=
  let r := f s.ks s.acc blk
  .next (finishOk (.block r.1) { s with acc := r.2 })

/-- BDEC (R124): refused while KRDY = 0. -/
def execBdec (blk : Blk) (s : State) : Outcome State Fault Refusal :=
  if s.krdy then blockCommand (ciphOf s.params).blkDec blk s else .next (refuse s)

/-- BENC (R128): refused when HAS_BENC is false, and while KRDY = 0. -/
def execBenc (blk : Blk) (s : State) : Outcome State Fault Refusal :=
  if s.params.hasBenc then
    if s.krdy then blockCommand (ciphOf s.params).blkEnc blk s else .next (refuse s)
  else .next (refuse s)

end Sys2Proof.Machine
end

