-- ==== Sys2Proof/Machine/Control.lean ====
section
/-! DEFINITION. The control command RESET (43_control.md R220). -/

namespace Sys2Proof.Machine

open Host (Outcome)

/-- RESET (R220): every item of 10_state.md R42 to its reset value. SRCMEM, KEYROM and the launch parameters are not
affected (70 R261); commands the host has already issued stay pending (log 2). -/
def execReset (s : State) : Outcome State Fault Refusal :=
  .next (finishOk .none (resetWith s.params s.srcmem s.keyrom s.cmdq))

end Sys2Proof.Machine
end

