-- ==== Sys2Proof/Machine/Stream.lean ====
section
/-! DEFINITION. The stream elements HDR, HDR.W32, FLG, LIT, REF, END: what each does once its bytes have been fetched
(42_lz77.md R181 to R188), and how the next one is fetched through the byte source (R184, 30_encoding.md R102). -/

namespace Sys2Proof.Machine

open Host (Outcome)

/-- After the type check (R181, R183, R189): RHDR is done and responds Ok(DSIZE); LZREG goes on with Run(DSIZE). A header
executed where no command waits for one only latches (log 4). -/
def afterHeader (s : State) : State :=
  match s.activity with
  | .header false => finishOk (.size s.dsize) s
  | .header true => beginRun true s.dsize s
  | .idle => s
  | .run _ => s

/-- The end of ParseHeader (R181, R182): CTYPE and DSIZE are latched before the type is tested. -/
def latchHeader (typ : BitVec 4) (size : BitVec 24) (s : State) : Outcome State Fault Refusal :=
  let s := { s with ctype := typ, dsize := size }
  if typ = 1 then .next (afterHeader s) else .next (raiseError .unsupportedCompressionType s)

/-- HDR under TABLE6 (R94, R181). -/
def execHdr (typ : BitVec 4) (size : BitVec 24) (s : State) : Outcome State Fault Refusal := latchHeader typ size s

/-- HDR under WORD32 (R95, R181): b0[3:0] is ignored. -/
def execHdrW32 (typ _ign : BitVec 4) (size : BitVec 24) (s : State) : Outcome State Fault Refusal :=
  latchHeader typ size s

/-- FLG (R184): FLAGS <- f, FCNT <- 8. -/
def execFlg (f : Byte) (s : State) : Outcome State Fault Refusal := .next (loadFlags f s)

/-- LIT (R185): OUTMEM[OPOS] <- d, OPOS <- OPOS + 1. Its precondition is OPOS < n; a byte at n or above does not exist. -/
def execLit (d : Byte) (s : State) : Outcome State Fault Refusal :=
  if s.opos < s.outSize then .next (outPush d s) else .fault .outmemRange

/-- REF (R186, R187): LEN and DIST are written, the distance is checked, then the copy runs. -/
def execRef (len dist : Nat) (s : State) : Outcome State Fault Refusal :=
  let s := { s with len := len, dist := dist }
  if s.opos < dist then .next (raiseError .backReferenceOutOfRange s) else copyLoop len s

/-- END (R188): the run is over; LZRUN responds Ok, LZREG Ok(DSIZE). Unused flags stay in FLAGS. -/
def execEndRun (s : State) : Outcome State Fault Refusal :=
  match s.activity with
  | .run false => .next (finishOk .none s)
  | .run true => .next (finishOk (.size s.dsize) s)
  | .idle => .next s
  | .header _ => .next s

/-- An element's meaning. -/
def execElement (e : Element) (s : State) : Outcome State Fault Refusal :=
  match e with
  | .hdr t n => execHdr t n s
  | .hdrW32 t x n => execHdrW32 t x n s
  | .flg f => execFlg f s
  | .lit d => execLit d s
  | .ref l d => execRef l d s
  | .endRun => execEndRun s

/-- Fetch a header by the layout of the launch (R181). -/
def fetchHeader (s : State) : Res Element :=
  match s.params.hdrLayout with
  | .table6 =>
    resBind (nextByte s) fun b0 s => resBind (nextByte s) fun b1 s => resBind (nextByte s) fun b2 s =>
      .ok (decodeHdr6 b0 b1 b2) s
  | .word32 =>
    resBind (nextByte s) fun b0 s => resBind (nextByte s) fun b1 s => resBind (nextByte s) fun b2 s =>
      resBind (nextByte s) fun b3 s => .ok (decodeHdr32 b0 b1 b2 b3) s

/-- Fetch the token a flag selects (R185, R186). -/
def fetchToken (isRef : Bool) (s : State) : Res Element :=
  match isRef with
  | false => resBind (nextByte s) fun d s => .ok (.lit d) s
  | true =>
    resBind (nextByte s) fun r0 s => resBind (nextByte s) fun r1 s => .ok (decodeRef s.params.refLayout r0 r1) s

/-- Fetch the next element of a run (R183, R184): END at OPOS = n, with no byte fetched; a flag byte when no flag is
left; else the flag is used and its token is fetched. -/
def fetchRun (s : State) : Res Element :=
  if s.outSize ≤ s.opos then .ok .endRun s
  else if s.fcnt = 0 then resBind (nextByte s) fun f s => .ok (.flg f) s
  else fetchToken (nextFlag s) (useFlag s)

/-- Fetch the next stream element of the running command (30_encoding.md R102). With no command running there is
nothing to fetch: END, which has no bits and does nothing there (log 4). -/
def fetchElement (s : State) : Res Element :=
  match s.activity with
  | .header _ => fetchHeader s
  | .run _ => fetchRun s
  | .idle => .ok .endRun s

/-- One stream element: fetch it and execute it, or raise the error of its fetch. -/
def elementStep (s : State) : Outcome State Fault Refusal :=
  match fetchElement s with
  | .ok e s => execElement e s
  | .raise k s => .next (raiseError k s)

/-- Execute stream elements until the command has given its response, at most k of them. -/
def runElements : Nat → State → Outcome State Fault Refusal
  | 0, s => .next s
  | k + 1, s =>
    match s.activity with
    | .idle => .next s
    | .header _ | .run _ =>
      match elementStep s with
      | .next s => runElements k s
      | .fault f => .fault f
      | .refused r => .refused r

/-- Run to the end of a run (R183): every byte takes at most a flag byte and a token, and END ends it, so the bound is
never what stops it (R183 Termination, 70 R280). -/
def completeRun (s : State) : Outcome State Fault Refusal := runElements (2 * s.outSize + 1) s

end Sys2Proof.Machine
end

