-- ==== Sys2Proof/Machine/Lz77.lean ====
section
/-! DEFINITION. The LZ77 commands RHDR, LZRUN, LZREG (42_lz77.md R181, R183, R189): each runs to completion. -/

namespace Sys2Proof.Machine

open Host (Outcome)

/-- RHDR (R181): the refusal test, the ERR gate, ParseHeader. -/
def execRhdr (s : State) : Outcome State Fault Refusal :=
  gated (fun s => elementStep { s with activity := .header false }) s

/-- LZRUN n (R183): the refusal test, the ERR gate, Run(n). -/
def execLzrun (n : BitVec 24) (s : State) : Outcome State Fault Refusal :=
  gated (fun s => completeRun (beginRun false n s)) s

/-- ParseHeader and then Run(DSIZE), the last two steps of LZREG (R189). -/
def parseAndRun (s : State) : Outcome State Fault Refusal :=
  match elementStep { s with activity := .header true } with
  | .next s => completeRun s
  | .fault f => .fault f
  | .refused r => .refused r

/-- LZREG (R189): refused for Encrypted without a key; OUTMEM is emptied; then SADDR's steps, ParseHeader, Run(DSIZE),
stopped at the first that raises. -/
def execLzreg (v : Variant) (ptr : Word) (s : State) : Outcome State Fault Refusal :=
  if needsKey v s then .next (refuse s)
  else
    match attach v ptr (clearOut 0 s) with
    | .raise k s => .next (raiseError k s)
    | .ok _ s => parseAndRun s

end Sys2Proof.Machine
end

