-- ==== Sys2Proof/Machine/Dispatch.lean ====
section
/-! DEFINITION. The meaning of every instruction: one arm per constructor of Instr. -/

namespace Sys2Proof.Machine

open Host (Outcome)

/-- Execute one instruction. -/
def exec (i : Instr) (s : State) : Host.Outcome State Fault Refusal :=
  match i with
  | .reset => Sys2Proof.Machine.execReset s
  | .kinit seed level => Sys2Proof.Machine.execKinit seed level s
  | .bdec blk => Sys2Proof.Machine.execBdec blk s
  | .benc blk => Sys2Proof.Machine.execBenc blk s
  | .saddr v ptr => Sys2Proof.Machine.execSaddr v ptr s
  | .gu8 => Sys2Proof.Machine.execGu8 s
  | .gu16 => Sys2Proof.Machine.execGu16 s
  | .gu32 => Sys2Proof.Machine.execGu32 s
  | .rhdr => Sys2Proof.Machine.execRhdr s
  | .lzrun n => Sys2Proof.Machine.execLzrun n s
  | .lzreg v ptr => Sys2Proof.Machine.execLzreg v ptr s
  | .hdr t n => Sys2Proof.Machine.execHdr t n s
  | .hdrW32 t x n => Sys2Proof.Machine.execHdrW32 t x n s
  | .flg f => Sys2Proof.Machine.execFlg f s
  | .lit d => Sys2Proof.Machine.execLit d s
  | .ref len dist => Sys2Proof.Machine.execRef len dist s
  | .endRun => Sys2Proof.Machine.execEndRun s

end Sys2Proof.Machine
end

