-- ==== Sys2Proof/Machine/Place.lean ====
section
/-! DEFINITION. Placing a table word where the next step fetches it (log 18): a command frame at the head of the command
queue; a stream element in CACHE, with the machine inside a command that fetches that element next. -/

namespace Sys2Proof.Machine

/-- The first bytes of a window, zeros after them. -/
def windowOf (bs : List Byte) : Blk := blkOfFn fun i => bs.getD i 0

/-- An attached Plain source whose window, at address 0, holds given bytes and of which nothing has been delivered. -/
def placeStream (bs : List Byte) (s : State) : State :=
  { s with variant := .plain, src := 0, pos := 0, cache := windowOf bs, srdy := true, err := 0 }

/-- A run that wants one more byte, with one flag `isRef` left. -/
def placeToken (isRef : Bool) (s : State) : State :=
  { s with activity := .run false, outSize := s.opos + 1, fcnt := 1, flags := if isRef then 0x80 else 0 }

/-- Place bytes as the instruction of a site. -/
def placeAt (site : Site) (bs : List Byte) (s : State) : State :=
  match site with
  | .command => { s with activity := .idle, cmdq := bs ++ s.cmdq }
  | .header l =>
    placeStream bs { s with activity := .header false, params := { s.params with hdrLayout := l } }
  | .flag => placeStream bs { s with activity := .run false, outSize := s.opos + 1, fcnt := 0 }
  | .literal => placeStream bs (placeToken false s)
  | .backRef l => placeStream bs { placeToken true s with params := { s.params with refLayout := l } }
  | .finished => { s with activity := .run false, outSize := s.opos }

end Sys2Proof.Machine
end

