-- ==== Sys2Proof/Machine/Step.lean ====
section
/-! DEFINITION. One step. Between commands it takes the host's next command and runs it to completion (30_encoding.md R91);
with no whole command there the block idles (log 15). In a state that stands inside a command it executes the next
stream element (log 4). -/

namespace Sys2Proof.Machine

open Host (Outcome)

/-- Run the next command, if the host has issued one; a reserved code responds REFUSED (43_control.md R221). -/
def stepCommand (s : State) : Outcome State Fault Refusal :=
  match fetchCommand s with
  | none => .next s
  | some (bs, s) =>
    match decode .command bs with
    | .ok i => exec i s
    | .error _ => .next (refuse s)

/-- Run the next stream element of the command in progress. -/
def stepElement (s : State) : Outcome State Fault Refusal :=
  match fetchElement s with
  | .ok e s => exec e.toInstr s
  | .raise k s => .next (raiseError k s)

/-- One step of the block. -/
def step (s : State) : Outcome State Fault Refusal :=
  match s.activity with
  | .idle => stepCommand s
  | .header _ => stepElement s
  | .run _ => stepElement s

/-- The state with a table word placed where the next step fetches it. -/
def State.withFetchWord (s : State) (nbits w : Nat) : State :=
  placeAt (tableSite nbits w) (tableWordBytes nbits w) s

end Sys2Proof.Machine
end

