-- ==== Sys2Proof/Safety.lean ====
section
/-! DEFINITION. What counts as a good state and a good step, in the terms the statements use: the invariant of
10_state.md R41 with the ranges of R26 to R36, and where the next instruction stands (30_encoding.md R102). -/

namespace Sys2Proof.Machine

open Host (Outcome)

/-- The next state of an outcome, where it has one. -/
def nextState? (o : Outcome State Fault Refusal) : Option State :=
  match o with
  | .next s => some s
  | .fault _ => none
  | .refused _ => none

/-- CACHE is the fill image of the window at SRC (R28, R41(b)): for Plain the bytes of SRCMEM with zeros beyond EXTENT,
for Encrypted the decryption of a window inside SRCMEM, under the key and the accumulators of its fill. -/
def CacheImage (s : State) : Prop :=
  match s.variant with
  | .plain => s.cache = plainWindow s s.src.toNat
  | .encrypted =>
    s.src.toNat + 8 ≤ extentOf s
      ∧ ∃ k a, s.cache = ((ciphOf s.params).blkDec k a (rawWindow s s.src.toNat)).1

/-- The invariant of the block. -/
structure Inv (s : State) : Prop where
  /-- R27, R41(a). -/
  pos_le : s.pos ≤ 8
  /-- R35, R41(a). -/
  fcnt_le : s.fcnt ≤ 8
  /-- R41(b). -/
  image : s.srdy = true → CacheImage s
  /-- 20_memory.md R66: every delivered Plain byte lay below EXTENT. -/
  delivered : s.srdy = true → s.variant = .plain → 0 < s.pos → spos s ≤ extentOf s
  /-- 41_bytesource.md R151: an Encrypted source is attached only with KRDY = 1. -/
  keyed : s.srdy = true → s.variant = .encrypted → s.krdy = true
  /-- R33, R41(c). -/
  opos_le : s.opos ≤ s.outSize
  /-- 92_eei_decisions.md D33. -/
  size_lt : s.outSize < 2 ^ 24
  /-- R41(c): exactly the bytes OUTMEM[0 .. OPOS-1] hold a value. -/
  written : s.outmem.map Prod.fst = List.range s.opos
  /-- SRCMEM is in canonical form (log 6). -/
  src_wf : Memory.wf srcDefault s.srcmem = true
  /-- 20_memory.md R61: SRCMEM ends at EXTENT. -/
  src_below : ∀ c ∈ s.srcmem, c.1 < extentOf s
  /-- R21: KS has NP + NS words. -/
  ks_words : s.ks.length = Config.np + s.params.ns
  /-- R36; 0 before the first REF (log 5). -/
  len_range : s.len = 0 ∨ (3 ≤ s.len ∧ s.len ≤ 18)
  /-- R36; 0 before the first REF (log 5). -/
  dist_range : s.dist = 0 ∨ (1 ≤ s.dist ∧ s.dist ≤ 4096)
  /-- R37, R41(d): between commands, a response Err(kind) means that ERR holds that kind. -/
  err_resp : s.activity = .idle → ∀ k, s.resp = some (.err k) → s.err = errCode k
  /-- A command that fetches stream elements runs on an attached source without an error (R235, R240). -/
  running : s.activity ≠ .idle → s.srdy = true ∧ s.err = 0

/-- Between commands, with a source attached and no error held: the state in which GU8, GU16, GU32, RHDR and LZRUN run
(60_exceptions.md R235, R240). -/
def Ready (s : State) : Prop := s.activity = .idle ∧ s.srdy = true ∧ s.err = 0

/-- Where the next instruction stands (R102): between commands a command; inside RHDR or LZREG the header; inside a run END
at OPOS = n, a flag byte when no flag is left, else the token that FLAGS[7] selects. -/
def nextSite (s : State) : Site :=
  match s.activity with
  | .idle => .command
  | .header _ => .header s.params.hdrLayout
  | .run _ =>
    if s.outSize ≤ s.opos then .finished
    else if s.fcnt = 0 then .flag
    else if nextFlag s then .backRef s.params.refLayout
    else .literal

/-- The state in which the bytes of the next element are fetched: selecting a token uses a flag first (R184). -/
def beforeFetch (s : State) : State :=
  match nextSite s with
  | .literal | .backRef _ => useFlag s
  | .command | .header _ | .flag | .finished => s

/-- The next k bytes of the stream. -/
def fetchBytes : Nat → State → Res (List Byte)
  | 0, s => .ok [] s
  | k + 1, s => resBind (nextByte s) fun b s => resBind (fetchBytes k s) fun bs s => .ok (b :: bs) s

end Sys2Proof.Machine
end

