-- ==== Sys2Proof/Certificates/Slice0/Obligations.lean ====
section
/-! DEFINITION. The statements for the provers. Bytes of SRCMEM are read through `srcByte`, bytes of OUTMEM through
`outRead`; a frame is written `t = { s with … }`, which says that every field not named is unchanged. -/

open Sys2Proof Sys2Proof.Machine Host

/-! ### Encodings -/

/-- Decoding the encoding of a well-formed instruction gives it back, with every operand (30_encoding.md R92 to R100; the
command frame is the model's choice, log 1). -/
def Obligations.DecodeEncodeRoundTrip : Prop :=
  ∀ i : Instr, i.wellFormed = true → decode i.site (encode i) = .ok i

/-- The bytes of a stream element are the encoding of what they decode to, and that is well-formed: no bit of an element
is dropped (R94 to R99). -/
def Obligations.EncodeDecodeStream : Prop :=
  ∀ (site : Site) (bs : List Byte) (i : Instr), site ≠ .command → site ≠ .backRef .other →
    decode site bs = .ok i → encode i = bs ∧ i.wellFormed = true ∧ i.site = site

/-- HDR under TABLE6 (R94): type = b0[7:4], size = b0[3:0] | b1 << 4 | b2 << 12, a 20-bit number. -/
def Obligations.HeaderTable6Fields : Prop :=
  ∀ b0 b1 b2 : Byte, ∃ typ size, decode (.header .table6) [b0, b1, b2] = .ok (.hdr typ size)
    ∧ typ.toNat = b0.toNat / 16
    ∧ size.toNat = b0.toNat % 16 + 16 * b1.toNat + 4096 * b2.toNat
    ∧ size.toNat < 2 ^ 20

/-- HDR under WORD32 (R95): type = b0[7:4], size = b1 | b2 << 8 | b3 << 16, b0[3:0] carried and without effect. -/
def Obligations.HeaderWord32Fields : Prop :=
  ∀ b0 b1 b2 b3 : Byte, ∃ typ ign size, decode (.header .word32) [b0, b1, b2, b3] = .ok (.hdrW32 typ ign size)
    ∧ typ.toNat = b0.toNat / 16
    ∧ ign.toNat = b0.toNat % 16
    ∧ size.toNat = b1.toNat + 256 * b2.toNat + 65536 * b3.toNat
    ∧ ∀ (ign' : BitVec 4) (s : State), exec (.hdrW32 typ ign' size) s = exec (.hdrW32 typ ign size) s

/-- REF under HI4LEN (R98, R100): LEN = r0[7:4] + 3 and DIST = (r0[3:0] << 8 | r1) + 1, for all 65536 pairs. -/
def Obligations.BackReferenceFields : Prop :=
  ∀ r0 r1 : Byte, ∃ len dist, decode (.backRef .hi4len) [r0, r1] = .ok (.ref len dist)
    ∧ len = r0.toNat / 16 + 3
    ∧ dist = 256 * (r0.toNat % 16) + r1.toNat + 1
    ∧ 3 ≤ len ∧ len ≤ 18 ∧ 1 ≤ dist ∧ dist ≤ 4096

/-- Words of the spec's own tables decode to what they stand for (the encoding checks of 95_test_vectors.md section 4; the
codes of R92, in the frame of log 1). -/
def Obligations.SpecWordsDecode : Prop :=
  decode (.header .table6) [0x15, 0x34, 0x12] = .ok (.hdr 1 0x12345)
    ∧ decode (.header .word32) [0x10, 0x56, 0x34, 0x12] = .ok (.hdrW32 1 0 0x123456)
    ∧ decode (.backRef .hi4len) [0x73, 0x45] = .ok (.ref 10 838)
    ∧ decode (.backRef .hi4len) [0xFF, 0xFF] = .ok (.ref 18 4096)
    ∧ decode .command [0x01, 0x4D, 0x41, 0x43, 0x68, 2, 0, 0, 0] = .ok (.kinit 0x6843414D 2)
    ∧ decode .command [0x22, 1, 0x03, 0x80, 0, 0, 0, 0, 0] = .ok (.lzreg .encrypted 0x8003)

/-- A reserved command code responds REFUSED and changes no state; 0x03 is reserved when HAS_BENC is false
(43_control.md R221). That a command is a frame of nine bytes (log 1) which leaves the command queue (log 2) is the model's
choice. -/
def Obligations.ReservedCodesRefused : Prop :=
  ∀ (s : State) (c : Byte) (ops rest : List Byte), s.activity = .idle → ops.length = 8 → s.cmdq = c :: (ops ++ rest) →
    (c.toNat ∉ [0x00, 0x01, 0x02, 0x03, 0x10, 0x11, 0x12, 0x13, 0x20, 0x21, 0x22]
      ∨ (c = 0x03 ∧ s.params.hasBenc = false)) →
    step s = .next { s with cmdq := rest, resp := some .refused }

/-- The refusal table (60_exceptions.md R240): the response is REFUSED and no state changes, whatever ERR holds.
The last clause, on reserved codes, speaks of a command's frame of nine bytes (log 1) leaving the command queue (log 2), which
is the model's choice. -/
def Obligations.RefusalTable : Prop :=
  (∀ (s : State) (b : Blk), s.krdy = false → exec (.bdec b) s = .next { s with resp := some .refused })
    ∧ (∀ (s : State) (b : Blk), s.krdy = false ∨ s.params.hasBenc = false →
        exec (.benc b) s = .next { s with resp := some .refused })
    ∧ (∀ (s : State) (p : Word), s.krdy = false →
        exec (.saddr .encrypted p) s = .next { s with resp := some .refused }
          ∧ exec (.lzreg .encrypted p) s = .next { s with resp := some .refused })
    ∧ (∀ (s : State) (i : Instr), s.srdy = false →
        i = .gu8 ∨ i = .gu16 ∨ i = .gu32 ∨ i = .rhdr ∨ (∃ n, i = .lzrun n) →
        exec i s = .next { s with resp := some .refused })
    ∧ (∀ (s : State) (c : Byte) (ops rest : List Byte), s.activity = .idle → ops.length = 8 →
        s.cmdq = c :: (ops ++ rest) →
        c.toNat ∉ [0x00, 0x01, 0x02, 0x03, 0x10, 0x11, 0x12, 0x13, 0x20, 0x21, 0x22] →
        step s = .next { s with cmdq := rest, resp := some .refused })

/-! ### Steps -/

/-- Between commands a step runs the command whose frame stands at the head of the queue (30_encoding.md R91; logs 1, 2). -/
def Obligations.StepRunsCommand : Prop :=
  ∀ (s : State) (i : Instr) (rest : List Byte), s.activity = .idle → i.wellFormed = true → i.site = .command →
    s.cmdq = encode i ++ rest → step s = exec i { s with cmdq := rest }

/-- Inside a command a step fetches the bytes of the element that the context selects (R102), through NextByte, and runs
what they decode to; a fetch that raises ends the command with that error (60_exceptions.md R236). -/
def Obligations.StepRunsElement : Prop :=
  ∀ s : State, s.activity ≠ .idle →
    (∀ bs s1, fetchBytes (siteBytes (nextSite s)) (beforeFetch s) = .ok bs s1 →
      ∃ i, decode (nextSite s) bs = .ok i ∧ step s = exec i s1)
    ∧ ∀ k s1, fetchBytes (siteBytes (nextSite s)) (beforeFetch s) = .raise k s1 →
      step s = .next { s1 with err := errCode k, activity := .idle, resp := some (.err k) }

/-- With no whole command in the queue the block idles and holds its state (60_exceptions.md R255; log 15). -/
def Obligations.StepIdlesWithoutCommand : Prop :=
  ∀ s : State, s.activity = .idle → s.cmdq.length < frameBytes → step s = .next s

/-- LZRUN is its stream elements, one after another, to the last (30_encoding.md R90): it answers the state that at most
2n + 1 steps reach from the one in which its run begins (42_lz77.md R183), and that state is between commands. The steps
inside a command are the model's choice (log 4). -/
def Obligations.LzrunIsItsElements : Prop :=
  ∀ (s : State) (n : BitVec 24), s.srdy = true → s.err = 0 →
    ∃ t, exec (.lzrun n) s = .next t ∧ t.activity = .idle
      ∧ ∃ k ≤ 2 * n.toNat + 1,
        (Host.Core.run Sys2Proof.core k (beginRun false n s) : Outcome State Fault Refusal) = .next t

/-- A command runs to completion in its step: from a state between commands a step leads to one between commands
(R91, 20_memory.md R72). -/
def Obligations.CommandRunsToCompletion : Prop :=
  ∀ s t : State, s.activity = .idle → step s = .next t → t.activity = .idle

/-! ### Reset -/

/-- The values the spec gives for power-on reset (10_state.md R42, 70 R260). -/
def Obligations.PowerOnState : Prop :=
  State.reset.krdy = false ∧ State.reset.variant = .plain ∧ State.reset.pos = 8 ∧ State.reset.srdy = false
    ∧ State.reset.ctype = 0 ∧ State.reset.dsize = 0 ∧ State.reset.opos = 0 ∧ State.reset.flags = 0
    ∧ State.reset.fcnt = 0 ∧ State.reset.err = 0 ∧ State.reset.outSize = 0 ∧ State.reset.outmem = []

/-- RESET from every state (43_control.md R220, 70 R261): the same values, the response Ok, SRCMEM, KEYROM and the launch
parameters kept, and the pending commands kept (log 2); a GU8 that follows is REFUSED. -/
def Obligations.ResetCommand : Prop :=
  ∀ s : State, ∃ t, exec .reset s = .next t
    ∧ t.krdy = false ∧ t.variant = .plain ∧ t.pos = 8 ∧ t.srdy = false ∧ t.ctype = 0 ∧ t.dsize = 0
    ∧ t.opos = 0 ∧ t.flags = 0 ∧ t.fcnt = 0 ∧ t.err = 0 ∧ t.outSize = 0 ∧ t.outmem = []
    ∧ t.params = s.params ∧ t.srcmem = s.srcmem ∧ t.keyrom = s.keyrom ∧ t.cmdq = s.cmdq
    ∧ t.activity = .idle ∧ t.resp = some (.ok .none)
    ∧ exec .gu8 t = .next { t with resp := some .refused }

/-! ### Cipher -/

/-- KINIT (40_cipher.md R123): from KEYTABLE and aux_init(seed), exactly `level` iterations of ks_mix, numbered 1, 2, ...;
KS, ACC, KRDY and the response are written and nothing else. -/
def Obligations.KinitKeySchedule : Prop :=
  ∀ (s : State) (seed : Word) (level : Byte), s.activity = .idle →
    ∃ tr : Nat → Key × List Word,
      tr 0 = (keyTable s, (ciphOf s.params).auxInit seed)
      ∧ (∀ j, tr (j + 1) = (ciphOf s.params).ksMix (tr j).1 (tr j).2 (j + 1))
      ∧ exec (.kinit seed level) s = .next { s with
          ks := (tr level.toNat).1
          acc := (ciphOf s.params).accInit (tr level.toNat).1 seed level
          krdy := true
          resp := some (.ok .none) }

/-- KINIT with level 0 (R123 corner case): KS is KEYTABLE, the seed has no effect on it, and KEYTABLE is the words of
KEYROM in order. -/
def Obligations.KinitLevelZero : Prop :=
  ∀ (s : State) (seed : Word), ∃ t, exec (.kinit seed 0) s = .next t
    ∧ t.ks.length = Config.np + s.params.ns
    ∧ ∀ i, i < Config.np + s.params.ns → t.ks.getD i 0 = keyRom s.keyrom i

/-- Nothing of the earlier state survives a KINIT (R123, law L1 of R122): KS and ACC depend on the operands, the table and
the cipher alone. -/
def Obligations.KinitForgetsEarlierState : Prop :=
  ∀ (s s' : State) (seed : Word) (level : Byte), s.params = s'.params → s.keyrom = s'.keyrom →
    ∃ t t', exec (.kinit seed level) s = .next t ∧ exec (.kinit seed level) s' = .next t'
      ∧ t.ks = t'.ks ∧ t.acc = t'.acc ∧ t.krdy = true ∧ t'.krdy = true

/-- BDEC with a key (R124): the response is the decrypted block, ACC is rewritten, nothing else changes. -/
def Obligations.BdecResult : Prop :=
  ∀ (s : State) (b : Blk), s.activity = .idle → s.krdy = true →
    exec (.bdec b) s = .next { s with
      acc := ((ciphOf s.params).blkDec s.ks s.acc b).2
      resp := some (.ok (.block ((ciphOf s.params).blkDec s.ks s.acc b).1)) }

/-- BENC with a key, where HAS_BENC is true (R128). -/
def Obligations.BencResult : Prop :=
  ∀ (s : State) (b : Blk), s.activity = .idle → s.params.hasBenc = true → s.krdy = true →
    exec (.benc b) s = .next { s with
      acc := ((ciphOf s.params).blkEnc s.ks s.acc b).2
      resp := some (.ok (.block ((ciphOf s.params).blkEnc s.ks s.acc b).1)) }

/-- The laws of CIPH (R122, R133, R134), both round trips and L4: the reference cipher REF-K1 (PRESUMED, log 10) satisfies
them, and so does the CIPH of every launch, the unspecified one too. -/
def Obligations.RefCipherLawful : Prop :=
  (∀ m : Nat, (refK1 m).Lawful) ∧ ∀ p : Params, (ciphOf p).Lawful

/-- The round trip of L2 with commands (R128 corner case), under the CIPH of every launch: KINIT; BENC B responds C; KINIT;
BDEC C responds B. -/
def Obligations.EncryptThenDecrypt : Prop :=
  ∀ (s : State) (seed : Word) (level : Byte) (b : Blk), s.params.hasBenc = true →
    ∃ s1 s2 s3 t c, exec (.kinit seed level) s = .next s1
      ∧ exec (.benc b) s1 = .next s2 ∧ s2.resp = some (.ok (.block c))
      ∧ exec (.kinit seed level) s2 = .next s3
      ∧ exec (.bdec c) s3 = .next t ∧ t.resp = some (.ok (.block b))

/-- Under REF-K1 the incoming accumulators are not read (R134): two states that differ in ACC only stay so. REF-K1 is
PRESUMED (log 10). -/
def Obligations.RefCipherIgnoresAcc : Prop :=
  ∀ (i : Instr) (s t : State) (a : Acc), s.params.ciph = .refK1 → exec i s = .next t →
    ∃ a', exec i { s with acc := a } = .next { t with acc := a' }

/-- KS and KRDY are written by KINIT and RESET alone (10_state.md R21, R23; law L5 of R122). -/
def Obligations.OnlyKinitWritesKey : Prop :=
  ∀ (i : Instr) (s t : State), exec i s = .next t → (∀ seed level, i ≠ .kinit seed level) → i ≠ .reset →
    t.ks = s.ks ∧ t.krdy = s.krdy

/-- A Plain source never touches the cipher (41_bytesource.md R151: only an Encrypted fill is a block transform). -/
def Obligations.PlainLeavesCipher : Prop :=
  ∀ (i : Instr) (s t : State), exec i s = .next t →
    ((∃ p, i = .saddr .plain p ∨ i = .lzreg .plain p)
      ∨ (s.variant = .plain ∧ (i = .gu8 ∨ i = .gu16 ∨ i = .gu32 ∨ i = .rhdr ∨ ∃ n, i = .lzrun n))) →
    t.ks = s.ks ∧ t.acc = s.acc ∧ t.krdy = s.krdy

/-- Little-endian composition and its inverse (00_scope.md R13). -/
def Obligations.LittleEndianComposition : Prop :=
  (∀ b0 b1 : Byte, (le16 b0 b1).toNat = b0.toNat + 2 ^ 8 * b1.toNat)
    ∧ (∀ b0 b1 b2 b3 : Byte,
        (le32 b0 b1 b2 b3).toNat = b0.toNat + 2 ^ 8 * b1.toNat + 2 ^ 16 * b2.toNat + 2 ^ 24 * b3.toNat)
    ∧ (∀ b0 b1 b2 b3 : Byte, wordBytes (le32 b0 b1 b2 b3) = [b0, b1, b2, b3])
    ∧ (∀ w : Word, ∃ b0 b1 b2 b3, wordBytes w = [b0, b1, b2, b3] ∧ le32 b0 b1 b2 b3 = w
        ∧ b0.toNat = w.toNat % 2 ^ 8 ∧ b1.toNat = w.toNat / 2 ^ 8 % 2 ^ 8
        ∧ b2.toNat = w.toNat / 2 ^ 16 % 2 ^ 8 ∧ b3.toNat = w.toNat / 2 ^ 24)

/-- The two halves of a block and the block of a result (40_cipher.md R125). -/
def Obligations.BlockByteOrder : Prop :=
  (∀ b : Blk, blkHalf0 b = le32 (blkGet b 0) (blkGet b 1) (blkGet b 2) (blkGet b 3)
      ∧ blkHalf1 b = le32 (blkGet b 4) (blkGet b 5) (blkGet b 6) (blkGet b 7))
    ∧ (∀ o0 o1 : Word, blkBytes (blkOfHalves o0 o1) = wordBytes o0 ++ wordBytes o1)
    ∧ (∀ o0 o1 : Word, blkHalf0 (blkOfHalves o0 o1) = o0 ∧ blkHalf1 (blkOfHalves o0 o1) = o1)
    ∧ ∀ b : Blk, blkOfHalves (blkHalf0 b) (blkHalf1 b) = b

/-! ### Byte source -/

/-- SADDR in all its forms (41_bytesource.md R152): Plain from every state and to every address; Encrypted inside EXTENT;
Encrypted beyond it; Encrypted without a key. -/
def Obligations.SaddrForms : Prop :=
  ∀ (s : State) (ptr : Word), s.activity = .idle →
    (∃ win : Blk,
      (∀ i, i < 8 → blkGet win i = if ptr.toNat + i < extentOf s then srcByte s (ptr.toNat + i) else 0)
      ∧ exec (.saddr .plain ptr) s = .next { s with
          err := 0, srdy := true, variant := .plain, cache := win, src := ptr, pos := 0
          resp := some (.ok .none) })
    ∧ (s.krdy = true → ptr.toNat + 8 ≤ extentOf s →
      ∃ raw : Blk, (∀ i, i < 8 → blkGet raw i = srcByte s (ptr.toNat + i))
      ∧ exec (.saddr .encrypted ptr) s = .next { s with
          err := 0, srdy := true, variant := .encrypted
          cache := ((ciphOf s.params).blkDec s.ks s.acc raw).1, acc := ((ciphOf s.params).blkDec s.ks s.acc raw).2
          src := ptr, pos := 0
          resp := some (.ok .none) })
    ∧ (s.krdy = true → extentOf s < ptr.toNat + 8 →
      exec (.saddr .encrypted ptr) s = .next { s with
          err := errCode .truncatedSource, srdy := false, variant := .encrypted
          resp := some (.err .truncatedSource) })
    ∧ (s.krdy = false → exec (.saddr .encrypted ptr) s = .next { s with resp := some .refused })

/-- An Encrypted SADDR to a window that holds the encryption of a block, made with the key and the accumulators of now,
recovers the block (law L2 of R122; R151), under the CIPH of every launch. -/
def Obligations.EncryptedWindowDecrypts : Prop :=
  ∀ (s : State) (ptr : Word) (b : Blk), s.krdy = true → ptr.toNat + 8 ≤ extentOf s →
    (∀ i, i < 8 → srcByte s (ptr.toNat + i) = blkGet ((ciphOf s.params).blkEnc s.ks s.acc b).1 i) →
    ∃ t, exec (.saddr .encrypted ptr) s = .next t ∧ t.cache = b ∧ t.resp = some (.ok .none)

/-- GU8 on a Plain source delivers SRCMEM[SPOS] (R153, R154, R157), refilling first, lazily, when POS = 8. -/
def Obligations.PlainByteDelivered : Prop :=
  ∀ s : State, Inv s → Ready s → s.variant = .plain → spos s < extentOf s →
    ∃ t, exec .gu8 s = .next t ∧ t.resp = some (.ok (.u8 (srcByte s (spos s)))) ∧ spos t = spos s + 1
      ∧ t = { s with src := t.src, pos := t.pos, cache := t.cache, resp := t.resp }
      ∧ (s.pos < 8 → t.src = s.src ∧ t.cache = s.cache)
      ∧ (s.pos = 8 → t.src = s.src + 8 ∧ t.pos = 1)

/-- GU8 on a Plain source at or beyond EXTENT raises TruncatedSource (R153, R158(a)): SPOS is the same number as before, and
POS, SRC and CACHE are unchanged unless the refill completed. -/
def Obligations.PlainByteTruncated : Prop :=
  ∀ s : State, Inv s → Ready s → s.variant = .plain → extentOf s ≤ spos s →
    ∃ t, exec .gu8 s = .next t ∧ t.resp = some (.err .truncatedSource) ∧ t.err = errCode .truncatedSource
      ∧ spos t = spos s
      ∧ t = { s with src := t.src, pos := t.pos, cache := t.cache, err := t.err, resp := t.resp }
      ∧ (s.pos < 8 → t.src = s.src ∧ t.pos = s.pos ∧ t.cache = s.cache)
      ∧ (s.pos = 8 → t.src = s.src + 8 ∧ t.pos = 0)

/-- GU8 on an Encrypted source (R151, R153, R158(b)): from CACHE; after a refill that decrypts the next window; or, where
that window overhangs EXTENT, TruncatedSource with nothing else changed. -/
def Obligations.EncryptedByteForms : Prop :=
  ∀ s : State, Ready s → s.variant = .encrypted →
    (s.pos < 8 →
      exec .gu8 s = .next { s with pos := s.pos + 1, resp := some (.ok (.u8 (blkGet s.cache s.pos))) })
    ∧ (s.pos = 8 → s.src.toNat + 16 ≤ extentOf s →
      ∃ raw : Blk, (∀ i, i < 8 → blkGet raw i = srcByte s (s.src.toNat + 8 + i))
      ∧ exec .gu8 s = .next { s with
          acc := ((ciphOf s.params).blkDec s.ks s.acc raw).2, cache := ((ciphOf s.params).blkDec s.ks s.acc raw).1
          src := s.src + 8, pos := 1
          resp := some (.ok (.u8 ((ciphOf s.params).blkDec s.ks s.acc raw).1.b0)) })
    ∧ (s.pos = 8 → extentOf s < s.src.toNat + 16 →
      exec .gu8 s = .next { s with
          err := errCode .truncatedSource, resp := some (.err .truncatedSource) })

/-- GU16 and GU32 on a Plain source (R155, R156): the two or four bytes at SPOS, little-endian. -/
def Obligations.PlainWideReadsDelivered : Prop :=
  ∀ s : State, Inv s → Ready s → s.variant = .plain →
    (spos s + 2 ≤ extentOf s →
      ∃ t v, exec .gu16 s = .next t ∧ t.resp = some (.ok (.u16 v))
        ∧ v.toNat = (srcByte s (spos s)).toNat + 2 ^ 8 * (srcByte s (spos s + 1)).toNat
        ∧ spos t = spos s + 2
        ∧ t = { s with src := t.src, pos := t.pos, cache := t.cache, resp := t.resp })
    ∧ (spos s + 4 ≤ extentOf s →
      ∃ t v, exec .gu32 s = .next t ∧ t.resp = some (.ok (.u32 v))
        ∧ v.toNat = (srcByte s (spos s)).toNat + 2 ^ 8 * (srcByte s (spos s + 1)).toNat
            + 2 ^ 16 * (srcByte s (spos s + 2)).toNat + 2 ^ 24 * (srcByte s (spos s + 3)).toNat
        ∧ spos t = spos s + 4
        ∧ t = { s with src := t.src, pos := t.pos, cache := t.cache, resp := t.resp })

/-- Wider reads are byte reads (20_memory.md R64(f), 41_bytesource.md R155, R156), for both variants: GU16 answers what two
GU8 answer, GU32 what two GU16 answer; where one of them raises, the wider read raises with its state. -/
def Obligations.WiderReadsAreByteReads : Prop :=
  (∀ (s s1 s2 : State) (b0 b1 : Byte), exec .gu8 s = .next s1 → s1.resp = some (.ok (.u8 b0)) →
      exec .gu8 s1 = .next s2 → s2.resp = some (.ok (.u8 b1)) →
      exec .gu16 s = .next { s2 with resp := some (.ok (.u16 (b1 ++ b0))) })
    ∧ (∀ (s s1 : State) (k : ErrKind), exec .gu8 s = .next s1 → s1.resp = some (.err k) → exec .gu16 s = .next s1)
    ∧ (∀ (s s1 s2 : State) (b0 : Byte) (k : ErrKind), exec .gu8 s = .next s1 → s1.resp = some (.ok (.u8 b0)) →
      exec .gu8 s1 = .next s2 → s2.resp = some (.err k) → exec .gu16 s = .next s2)
    ∧ (∀ (s s1 s2 : State) (h0 h1 : BitVec 16), exec .gu16 s = .next s1 → s1.resp = some (.ok (.u16 h0)) →
      exec .gu16 s1 = .next s2 → s2.resp = some (.ok (.u16 h1)) →
      exec .gu32 s = .next { s2 with resp := some (.ok (.u32 (h1 ++ h0))) })
    ∧ (∀ (s s1 : State) (k : ErrKind), exec .gu16 s = .next s1 → s1.resp = some (.err k) → exec .gu32 s = .next s1)
    ∧ ∀ (s s1 s2 : State) (h0 : BitVec 16) (k : ErrKind), exec .gu16 s = .next s1 → s1.resp = some (.ok (.u16 h0)) →
      exec .gu16 s1 = .next s2 → s2.resp = some (.err k) → exec .gu32 s = .next s2

/-- Refill boundaries are the same for both variants (R157): from the same SRC and POS, reads that respond Ok reach the
same SRC and POS. -/
def Obligations.SameBoundariesBothVariants : Prop :=
  ∀ (i : Instr) (s t s' t' : State) (v v' : Value), i = .gu8 ∨ i = .gu16 ∨ i = .gu32 →
    s.src = s'.src → s.pos = s'.pos →
    exec i s = .next t → t.resp = some (.ok v) → exec i s' = .next t' → t'.resp = some (.ok v') →
    t.src = t'.src ∧ t.pos = t'.pos

/-- The block never reads SRCMEM at or beyond EXTENT (R158(c)): what stands there has no influence on any instruction. -/
def Obligations.BeyondExtentNeverRead : Prop :=
  ∀ (i : Instr) (s t : State) (m : Memory),
    (∀ a, a < extentOf s → memRead srcDefault m a = memRead srcDefault s.srcmem a) →
    exec i s = .next t → exec i { s with srcmem := m } = .next { t with srcmem := m }

/-- The host's writes to SRCMEM (20_memory.md R76; as an operation between commands: log 16). A byte read from the window in
CACHE does not see them. Every fill of a window with that address does: the Plain and the Encrypted SADDR, and the refill of a
byte read at POS = 8 on a Plain and on an Encrypted source; an Encrypted window is the decryption of the bytes as written. -/
def Obligations.HostWriteSeenAtNextFill : Prop :=
  ∀ (s : State) (a : Nat) (v : Byte), a < extentOf s → Memory.wf srcDefault s.srcmem = true →
    (∀ t, Ready s → s.pos < 8 → exec .gu8 s = .next t →
      ∃ t', exec .gu8 (hostWriteSrc a v s) = .next t' ∧ t'.resp = t.resp)
    ∧ ∀ i, i < 8 →
      (∀ p : Word, a = p.toNat + i →
        (∃ t, exec (.saddr .plain p) (hostWriteSrc a v s) = .next t ∧ blkGet t.cache i = v)
        ∧ (s.krdy = true → p.toNat + 8 ≤ extentOf s →
          ∃ (t : State) (raw : Blk), exec (.saddr .encrypted p) (hostWriteSrc a v s) = .next t
            ∧ (∀ j, j < 8 → blkGet raw j = if j = i then v else srcByte s (p.toNat + j))
            ∧ t.cache = ((ciphOf s.params).blkDec s.ks s.acc raw).1
            ∧ t.acc = ((ciphOf s.params).blkDec s.ks s.acc raw).2))
      ∧ (Ready s → s.pos = 8 → a = s.src.toNat + 8 + i →
        (s.variant = .plain →
          ∃ t, exec .gu8 (hostWriteSrc a v s) = .next t ∧ blkGet t.cache i = v
            ∧ t.resp = some (.ok (.u8 (blkGet t.cache 0))))
        ∧ (s.variant = .encrypted → s.src.toNat + 16 ≤ extentOf s →
          ∃ (t : State) (raw : Blk), exec .gu8 (hostWriteSrc a v s) = .next t
            ∧ (∀ j, j < 8 → blkGet raw j = if j = i then v else srcByte s (s.src.toNat + 8 + j))
            ∧ t.cache = ((ciphOf s.params).blkDec s.ks s.acc raw).1
            ∧ t.acc = ((ciphOf s.params).blkDec s.ks s.acc raw).2
            ∧ t.resp = some (.ok (.u8 (blkGet t.cache 0)))))

/-! ### Errors -/

/-- The ERR register and gating (60_exceptions.md R235): `raise` writes ERR, stops the command and responds Err; while ERR is
not 0 the gated commands respond Err(ERR) and change nothing; KINIT, BDEC, BENC and RESET ignore ERR; SADDR and LZREG,
when not refused, clear it first, so that what it held has no influence. -/
def Obligations.ErrorGating : Prop :=
  (∀ (k : ErrKind) (s : State), raiseError k s = { s with err := errCode k, activity := .idle, resp := some (.err k) }
      ∧ errCode k ≠ 0)
    ∧ (∀ (s : State) (k : ErrKind) (i : Instr), s.srdy = true → s.err = errCode k →
        i = .gu8 ∨ i = .gu16 ∨ i = .gu32 ∨ i = .rhdr ∨ (∃ n, i = .lzrun n) →
        exec i s = .next { s with resp := some (.err k) })
    ∧ (∀ (s t : State) (e : BitVec 2) (i : Instr),
        (∃ seed level, i = .kinit seed level) ∨ (∃ b, i = .bdec b) ∨ (∃ b, i = .benc b) →
        exec i s = .next t → t.err = s.err ∧ exec i { s with err := e } = .next { t with err := e })
    ∧ (∀ (s : State) (e : BitVec 2), exec .reset { s with err := e } = exec .reset s)
    ∧ ∀ (s : State) (e : BitVec 2) (v : Variant) (p : Word), (v = .encrypted → s.krdy = true) →
        exec (.saddr v p) { s with err := e } = exec (.saddr v p) s
          ∧ exec (.lzreg v p) { s with err := e } = exec (.lzreg v p) s

/-- No command but SADDR, LZREG and RESET clears ERR (43_control.md R222, 60_exceptions.md R239). -/
def Obligations.OnlyRestartClearsErr : Prop :=
  ∀ (i : Instr) (s t : State), i.site = .command → exec i s = .next t → s.err ≠ 0 → t.err ≠ s.err →
    i = .reset ∨ (∃ v p, i = .saddr v p) ∨ ∃ v p, i = .lzreg v p

/-! ### Stream elements -/

/-- HDR and HDR.W32 (42_lz77.md R181, R182): CTYPE and DSIZE are latched; a type other than 1 raises
UnsupportedCompressionType; type 1 completes RHDR with Ok(DSIZE), and begins Run(DSIZE) in LZREG. -/
def Obligations.HeaderMeaning : Prop :=
  ∀ (s : State) (typ ign : BitVec 4) (size : BitVec 24) (i : Instr), i = .hdr typ size ∨ i = .hdrW32 typ ign size →
    (typ ≠ 1 → exec i s = .next { s with
        ctype := typ, dsize := size, err := errCode .unsupportedCompressionType
        activity := .idle, resp := some (.err .unsupportedCompressionType) })
    ∧ (typ = 1 → s.activity = .header false → exec i s = .next { s with
        ctype := typ, dsize := size, activity := .idle, resp := some (.ok (.size size)) })
    ∧ (typ = 1 → s.activity = .header true → exec i s = .next { s with
        ctype := typ, dsize := size, outmem := [], outSize := size.toNat, opos := 0, flags := 0, fcnt := 0
        activity := .run true })

/-- FLG (R184): FLAGS holds the byte, eight flags are left, nothing else changes. That its byte is fetched by `step`, outside
this meaning, and that it has this meaning in every state, are the model's choice (log 4). -/
def Obligations.FlagByteMeaning : Prop :=
  ∀ (s : State) (f : Byte), exec (.flg f) s = .next { s with flags := f, fcnt := 8 }

/-- A token is selected by FLAGS[7], most significant first (R184, R96): the flag used is bit 7, FLAGS shifts left with
zero fill and FCNT counts down, before the token's bytes are fetched. -/
def Obligations.TokenSelection : Prop :=
  ∀ (s : State) (region : Bool), s.activity = .run region → s.opos < s.outSize → s.fcnt ≠ 0 →
    nextSite s = (if 128 ≤ s.flags.toNat then .backRef s.params.refLayout else .literal)
    ∧ (beforeFetch s).flags.toNat = 2 * s.flags.toNat % 256
    ∧ beforeFetch s = { s with flags := (beforeFetch s).flags, fcnt := s.fcnt - 1 }

/-- LIT (R185): the byte is written at OUTMEM[OPOS], OPOS advances by 1, nothing else changes. That its byte is fetched by
`step`, outside this meaning, and that it has this meaning wherever OPOS < n, are the model's choice (log 4). -/
def Obligations.LiteralMeaning : Prop :=
  ∀ (s : State) (d : Byte), s.opos < s.outSize →
    ∃ t, exec (.lit d) s = .next t ∧ t.opos = s.opos + 1 ∧ outRead t s.opos = some d
      ∧ (∀ i, i ≠ s.opos → outRead t i = outRead s i)
      ∧ t = { s with outmem := t.outmem, opos := t.opos }

/-- REF beyond the bytes produced (R186): LEN and DIST are written, BackReferenceOutOfRange is raised, no byte is written. That
its two bytes are fetched by `step`, outside this meaning, and that it has this meaning in every state, are the model's choice
(log 4). -/
def Obligations.BackReferenceOutOfRange : Prop :=
  ∀ (s : State) (len dist : Nat), s.opos < dist →
    exec (.ref len dist) s = .next { s with
      len := len, dist := dist, err := errCode .backReferenceOutOfRange
      activity := .idle, resp := some (.err .backReferenceOutOfRange) }

/-- REF in range (R186, R187): the DIST bytes before OPOS are repeated cyclically, LEN bytes or as many as are still wanted;
every other byte of OUTMEM and every other register is unchanged. That its two bytes are fetched by `step`, outside this meaning,
is the model's choice (log 4). -/
def Obligations.BackReferenceCopies : Prop :=
  ∀ (s : State) (len dist : Nat), Inv s → 1 ≤ dist → dist ≤ s.opos →
    ∃ t, exec (.ref len dist) s = .next t
      ∧ t.opos = min (s.opos + len) s.outSize
      ∧ (∀ k, s.opos + k < t.opos → outRead t (s.opos + k) = outRead s (s.opos - dist + k % dist))
      ∧ (∀ i, i < s.opos ∨ t.opos ≤ i → outRead t i = outRead s i)
      ∧ t = { s with len := len, dist := dist, outmem := t.outmem, opos := t.opos }

/-- END (R188): LZRUN completes with Ok, LZREG with Ok(DSIZE); unused flags stay, nothing is fetched. -/
def Obligations.EndMeaning : Prop :=
  ∀ s : State,
    (s.activity = .run false → exec .endRun s = .next { s with activity := .idle, resp := some (.ok .none) })
    ∧ (s.activity = .run true → exec .endRun s = .next { s with
        activity := .idle, resp := some (.ok (.size s.dsize)) })

/-! ### LZ77 commands -/

/-- RHDR under TABLE6 (R181, R182, 30_encoding.md R94), with a source attached and no error held. Both variants: it is the step that
fetches and executes one header (log 4); with all 3 header bytes fetched CTYPE and DSIZE are latched and the type is tested;
where a fetch raises, the error is TruncatedSource, whatever the type nibble (60_exceptions.md R238(b)), and CTYPE and DSIZE
are unchanged. A Plain source: the bytes are those of SRCMEM at SPOS, and fetching raises exactly where the header reaches
EXTENT. -/
def Obligations.HeaderReadTable6 : Prop :=
  ∀ s : State, Ready s → s.params.hdrLayout = .table6 →
    exec .rhdr s = step { s with activity := .header false }
    ∧ (∀ (b0 b1 b2 : Byte) (s1 : State), fetchBytes 3 s = .ok [b0, b1, b2] s1 →
      ∃ (typ : BitVec 4) (size : BitVec 24), typ.toNat = b0.toNat / 16
        ∧ size.toNat = b0.toNat % 16 + 2 ^ 4 * b1.toNat + 2 ^ 12 * b2.toNat
        ∧ (typ = 1 → exec .rhdr s = .next { s1 with ctype := typ, dsize := size, resp := some (.ok (.size size)) })
        ∧ (typ ≠ 1 → exec .rhdr s = .next { s1 with
            ctype := typ, dsize := size, err := errCode .unsupportedCompressionType
            resp := some (.err .unsupportedCompressionType) }))
    ∧ (∀ (k : ErrKind) (s1 : State), fetchBytes 3 s = .raise k s1 →
      k = .truncatedSource ∧ s1.ctype = s.ctype ∧ s1.dsize = s.dsize
        ∧ exec .rhdr s = .next { s1 with err := errCode .truncatedSource, resp := some (.err .truncatedSource) })
    ∧ (Inv s → s.variant = .plain → spos s + 3 ≤ extentOf s →
      ∃ t, exec .rhdr s = .next t ∧ spos t = spos s + 3
        ∧ t.ctype.toNat = (srcByte s (spos s)).toNat / 16
        ∧ t.dsize.toNat = (srcByte s (spos s)).toNat % 16 + 2 ^ 4 * (srcByte s (spos s + 1)).toNat
            + 2 ^ 12 * (srcByte s (spos s + 2)).toNat
        ∧ (t.ctype = 1 → t.err = 0 ∧ t.resp = some (.ok (.size t.dsize)))
        ∧ (t.ctype ≠ 1 → t.err = errCode .unsupportedCompressionType
            ∧ t.resp = some (.err .unsupportedCompressionType))
        ∧ t = { s with
            src := t.src, pos := t.pos, cache := t.cache, ctype := t.ctype, dsize := t.dsize, err := t.err
            resp := t.resp })
    ∧ (Inv s → s.variant = .plain → extentOf s < spos s + 3 →
      ∃ t, exec .rhdr s = .next t ∧ spos t = max (spos s) (extentOf s)
        ∧ t.err = errCode .truncatedSource ∧ t.resp = some (.err .truncatedSource)
        ∧ t = { s with src := t.src, pos := t.pos, cache := t.cache, err := t.err, resp := t.resp })

/-- RHDR under WORD32 (R181, R182, 30_encoding.md R95), with a source attached and no error held. Both variants: it is the step that
fetches and executes one header (log 4); with all 4 header bytes fetched CTYPE and DSIZE are latched and the type is tested;
where a fetch raises, the error is TruncatedSource, whatever the type nibble (60_exceptions.md R238(b)), and CTYPE and DSIZE
are unchanged. A Plain source: the bytes are those of SRCMEM at SPOS, and fetching raises exactly where the header reaches
EXTENT. -/
def Obligations.HeaderReadWord32 : Prop :=
  ∀ s : State, Ready s → s.params.hdrLayout = .word32 →
    exec .rhdr s = step { s with activity := .header false }
    ∧ (∀ (b0 b1 b2 b3 : Byte) (s1 : State), fetchBytes 4 s = .ok [b0, b1, b2, b3] s1 →
      ∃ (typ : BitVec 4) (size : BitVec 24), typ.toNat = b0.toNat / 16
        ∧ size.toNat = b1.toNat + 2 ^ 8 * b2.toNat + 2 ^ 16 * b3.toNat
        ∧ (typ = 1 → exec .rhdr s = .next { s1 with ctype := typ, dsize := size, resp := some (.ok (.size size)) })
        ∧ (typ ≠ 1 → exec .rhdr s = .next { s1 with
            ctype := typ, dsize := size, err := errCode .unsupportedCompressionType
            resp := some (.err .unsupportedCompressionType) }))
    ∧ (∀ (k : ErrKind) (s1 : State), fetchBytes 4 s = .raise k s1 →
      k = .truncatedSource ∧ s1.ctype = s.ctype ∧ s1.dsize = s.dsize
        ∧ exec .rhdr s = .next { s1 with err := errCode .truncatedSource, resp := some (.err .truncatedSource) })
    ∧ (Inv s → s.variant = .plain → spos s + 4 ≤ extentOf s →
      ∃ t, exec .rhdr s = .next t ∧ spos t = spos s + 4
        ∧ t.ctype.toNat = (srcByte s (spos s)).toNat / 16
        ∧ t.dsize.toNat = (srcByte s (spos s + 1)).toNat + 2 ^ 8 * (srcByte s (spos s + 2)).toNat
            + 2 ^ 16 * (srcByte s (spos s + 3)).toNat
        ∧ (t.ctype = 1 → t.err = 0 ∧ t.resp = some (.ok (.size t.dsize)))
        ∧ (t.ctype ≠ 1 → t.err = errCode .unsupportedCompressionType
            ∧ t.resp = some (.err .unsupportedCompressionType))
        ∧ t = { s with
            src := t.src, pos := t.pos, cache := t.cache, ctype := t.ctype, dsize := t.dsize, err := t.err
            resp := t.resp })
    ∧ (Inv s → s.variant = .plain → extentOf s < spos s + 4 →
      ∃ t, exec .rhdr s = .next t ∧ spos t = max (spos s) (extentOf s)
        ∧ t.err = errCode .truncatedSource ∧ t.resp = some (.err .truncatedSource)
        ∧ t = { s with src := t.src, pos := t.pos, cache := t.cache, err := t.err, resp := t.resp })

/-- LZRUN 0 (R183 corner case, R188): OUTMEM is empty, Ok, no byte is fetched. -/
def Obligations.EmptyRun : Prop :=
  ∀ s : State, Ready s → exec (.lzrun 0) s = .next { s with
    outmem := [], outSize := 0, opos := 0, flags := 0, fcnt := 0, resp := some (.ok .none) }

/-- Exact size (R190): LZRUN n always completes, and it responds Ok with exactly n bytes written, or an error with fewer;
no byte at n or above is ever written; the cipher key, CTYPE, DSIZE and the attachment are unchanged. -/
def Obligations.ExactSize : Prop :=
  ∀ (s : State) (n : BitVec 24), Inv s → Ready s →
    ∃ t, exec (.lzrun n) s = .next t
      ∧ t.outSize = n.toNat
      ∧ (∀ i, (outRead t i).isSome = true ↔ i < t.opos)
      ∧ ((t.resp = some (.ok .none) ∧ t.err = 0 ∧ t.opos = n.toNat)
          ∨ ∃ k, t.resp = some (.err k) ∧ t.err = errCode k ∧ t.opos < n.toNat)
      ∧ t = { s with
          src := t.src, pos := t.pos, cache := t.cache, acc := t.acc, opos := t.opos, flags := t.flags
          fcnt := t.fcnt, len := t.len, dist := t.dist, err := t.err, outmem := t.outmem, outSize := t.outSize
          resp := t.resp }

/-- A literal-only token stream (95_test_vectors.md S3): all flag bits 0; the output equals the concatenation of the
literal bytes in order, and SPOS is left just after the last of them (R188). -/
def Obligations.LiteralStream : Prop :=
  ∀ (s : State) (n : BitVec 24), Inv s → Ready s → s.variant = .plain →
    spos s + n.toNat + (n.toNat + 7) / 8 ≤ extentOf s →
    (∀ g, 8 * g < n.toNat → srcByte s (spos s + 9 * g) = 0) →
    ∃ t, exec (.lzrun n) s = .next t ∧ t.resp = some (.ok .none) ∧ t.opos = n.toNat
      ∧ (∀ k, k < n.toNat → outRead t k = some (srcByte s (spos s + k + k / 8 + 1)))
      ∧ spos t = spos s + n.toNat + (n.toNat + 7) / 8

/-- A whole Plain region of literals under TABLE6 (R189): LZREG responds Ok(DSIZE) with the literals in OUTMEM, from every
state. -/
def Obligations.LiteralRegion : Prop :=
  ∀ (s : State) (ptr : Word) (n : BitVec 24), s.params.hdrLayout = .table6 →
    (srcByte s ptr.toNat).toNat / 16 = 1 →
    n.toNat = (srcByte s ptr.toNat).toNat % 16 + 2 ^ 4 * (srcByte s (ptr.toNat + 1)).toNat
      + 2 ^ 12 * (srcByte s (ptr.toNat + 2)).toNat →
    ptr.toNat + 3 + n.toNat + (n.toNat + 7) / 8 ≤ extentOf s →
    (∀ g, 8 * g < n.toNat → srcByte s (ptr.toNat + 3 + 9 * g) = 0) →
    ∃ t, exec (.lzreg .plain ptr) s = .next t ∧ t.resp = some (.ok (.size n)) ∧ t.err = 0
      ∧ t.opos = n.toNat ∧ t.outSize = n.toNat
      ∧ (∀ k, k < n.toNat → outRead t k = some (srcByte s (ptr.toNat + 3 + k + k / 8 + 1)))
      ∧ spos t = ptr.toNat + 3 + n.toNat + (n.toNat + 7) / 8

/-- The source's own example (30_encoding.md R104, vector LZ2): a (length 5, distance 1) reference after one literal 'A'
expands to six 'A', from every state whose SRCMEM holds the region 16 00 00 40 41 20 00. -/
def Obligations.RunLengthExample : Prop :=
  ∀ (s : State) (ptr : Word), s.params.hdrLayout = .table6 → s.params.refLayout = .hi4len →
    ptr.toNat + 7 ≤ extentOf s →
    (∀ i, i < 7 → srcByte s (ptr.toNat + i) = ([0x16, 0x00, 0x00, 0x40, 0x41, 0x20, 0x00] : List Byte).getD i 0) →
    ∃ t, exec (.lzreg .plain ptr) s = .next t ∧ t.resp = some (.ok (.size 6)) ∧ t.outSize = 6 ∧ t.opos = 6
      ∧ (∀ i, i < 6 → outRead t i = some 0x41) ∧ t.fcnt = 6 ∧ t.len = 5 ∧ t.dist = 1
      ∧ spos t = ptr.toNat + 7

/-- LZREG always completes (R189, R190), and the stage that fails tells the size of OUTMEM. Fill fails where an Encrypted
window overhangs EXTENT: TruncatedSource, detached, OUTMEM of size 0. Else SADDR completes, and ParseHeader does what RHDR does
after it: if that raises, the same error and OUTMEM of size 0; if not, Run with OUTMEM of size DSIZE: Ok(DSIZE) with all its
bytes written, or TruncatedSource or BackReferenceOutOfRange with fewer. -/
def Obligations.RegionExactSize : Prop :=
  ∀ (s : State) (v : Variant) (ptr : Word), Inv s → s.activity = .idle → (v = .encrypted → s.krdy = true) →
    ∃ t, exec (.lzreg v ptr) s = .next t
      ∧ (∀ i, (outRead t i).isSome = true ↔ i < t.opos)
      ∧ t.ks = s.ks ∧ t.krdy = s.krdy ∧ t.variant = v
      ∧ (v = .encrypted ∧ extentOf s < ptr.toNat + 8 →
        t.resp = some (.err .truncatedSource) ∧ t.err = errCode .truncatedSource ∧ t.srdy = false
          ∧ t.outSize = 0 ∧ t.opos = 0)
      ∧ (v = .plain ∨ ptr.toNat + 8 ≤ extentOf s →
        ∃ s1 s2, exec (.saddr v ptr) s = .next s1 ∧ s1.err = 0 ∧ exec .rhdr s1 = .next s2 ∧ t.srdy = true
          ∧ (s2.err ≠ 0 → t.resp = s2.resp ∧ t.err = s2.err ∧ t.outSize = 0 ∧ t.opos = 0)
          ∧ (s2.err = 0 → t.ctype = 1 ∧ t.dsize = s2.dsize ∧ t.outSize = s2.dsize.toNat
            ∧ ((t.resp = some (.ok (.size t.dsize)) ∧ t.err = 0 ∧ t.opos = t.outSize)
              ∨ ∃ k, k ≠ .unsupportedCompressionType ∧ t.resp = some (.err k) ∧ t.err = errCode k
                ∧ t.opos < t.outSize)))

/-- LZREG is SADDR; RHDR; LZRUN DSIZE, stopped at the first that raises, with OUTMEM emptied first (R189, 41 R159). -/
def Obligations.RegionIsThreeCommands : Prop :=
  ∀ (s : State) (v : Variant) (ptr : Word), (v = .encrypted → s.krdy = true) →
    (∀ s1, exec (.saddr v ptr) (clearOut 0 s) = .next s1 → s1.err ≠ 0 → exec (.lzreg v ptr) s = .next s1)
    ∧ (∀ s1 s2, exec (.saddr v ptr) (clearOut 0 s) = .next s1 → s1.err = 0 → exec .rhdr s1 = .next s2 → s2.err ≠ 0 →
        exec (.lzreg v ptr) s = .next s2)
    ∧ ∀ s1 s2 s3, exec (.saddr v ptr) (clearOut 0 s) = .next s1 → s1.err = 0 → exec .rhdr s1 = .next s2 →
        s2.err = 0 → exec (.lzrun s2.dsize) s2 = .next s3 →
        exec (.lzreg v ptr) s = .next { s3 with
          resp := if s3.err = 0 then some (.ok (.size s2.dsize)) else s3.resp }

/-! ### Memories and invariants -/

/-- Byte memories: a write keeps the canonical form, is read back, and leaves every other address alone; equal contents
are equal data (logs 6, 7). -/
def Obligations.MemoryLaws : Prop :=
  ∀ (d : Option Byte) (m : Memory), Memory.wf d m = true →
    (∀ (a : Nat) (v : Byte), Memory.wf d (memWrite d m a v) = true ∧ memRead d (memWrite d m a v) a = some v
      ∧ ∀ b, b ≠ a → memRead d (memWrite d m a v) b = memRead d m b)
    ∧ ∀ m', Memory.wf d m' = true → (∀ a, memRead d m a = memRead d m' a) → m = m'

/-- No instruction changes the launch parameters, SRCMEM or KEYROM (10_state.md R40, 20_memory.md R61, R63), nor the pending
commands; that these are kept, over RESET too, is the model's choice (log 2). -/
def Obligations.LaunchNeverChanges : Prop :=
  ∀ (i : Instr) (s t : State), exec i s = .next t →
    t.params = s.params ∧ t.srcmem = s.srcmem ∧ t.keyrom = s.keyrom ∧ t.cmdq = s.cmdq

/-- The invariant holds at reset. -/
def Obligations.InvAtReset : Prop := Inv State.reset

/-- Every step keeps the invariant (10_state.md R41, 20_memory.md R66, R70). -/
def Obligations.StepKeepsInv : Prop :=
  ∀ s t : State, Inv s → step s = .next t → Inv t

/-- From a state with the invariant no step stops (60_exceptions.md R242, 20_memory.md R70): no fault, no refusal. -/
def Obligations.InvNeverStops : Prop :=
  ∀ s : State, Inv s → ∃ t, step s = .next t
end

