-- ==== Sys2Proof/Laws/Cipher.lean ====
section
/-! SUPPORT. What the unspecified CIPH can do, said once: its two block results are inverse, and all that later transforms can
tell of the accumulators is their class (40_cipher.md R122). -/

namespace Sys2Proof.Machine

/-- Whatever accumulators are proposed, those left are in the class that follows. -/
@[simp] theorem accAdvance_class (k : Key) (a : Acc) (b : Blk) (p : Acc) :
    Config.accClass k (accAdvance k a b p) = Config.accClass k (Config.accNext k (Config.accClass k a) b) := by
  unfold accAdvance
  dsimp only
  split
  · assumption
  · rfl

/-- Proposed accumulators in the class that follows are the ones left. -/
theorem accAdvance_of_class {k : Key} {a : Acc} {b : Blk} {p : Acc}
    (h : Config.accClass k p = Config.accClass k (Config.accNext k (Config.accClass k a) b)) :
    accAdvance k a b p = p := if_pos h

@[simp] theorem freeBlkEnc_block (k : Key) (a : Acc) (b : Blk) :
    (freeBlkEnc k a b).1 = Config.blkPerm k (Config.accClass k a) b := rfl

@[simp] theorem freeBlkDec_block (k : Key) (a : Acc) (c : Blk) :
    (freeBlkDec k a c).1 = (Config.blkPerm k (Config.accClass k a)).symm c := rfl

@[simp] theorem freeBlkEnc_class (k : Key) (a : Acc) (b : Blk) :
    Config.accClass k (freeBlkEnc k a b).2 = Config.accClass k (Config.accNext k (Config.accClass k a) b) :=
  accAdvance_class k a b _

@[simp] theorem freeBlkDec_class (k : Key) (a : Acc) (c : Blk) :
    Config.accClass k (freeBlkDec k a c).2
      = Config.accClass k (Config.accNext k (Config.accClass k a) (freeBlkDec k a c).1) :=
  accAdvance_class k a _ _

/-- Accumulators of one class are indistinguishable to every later sequence of transforms. -/
theorem sameToLater_of_class {k : Key} {a1 a2 : Acc} (h : Config.accClass k a1 = Config.accClass k a2) :
    SameToLater unspecifiedCiph k a1 a2 := by
  intro bs
  induction bs generalizing a1 a2 with
  | nil => rfl
  | cons e bs ih =>
    obtain ⟨enc, b⟩ := e
    cases enc with
    | true =>
      have block : (freeBlkEnc k a1 b).1 = (freeBlkEnc k a2 b).1 := by rw [freeBlkEnc_block, freeBlkEnc_block, h]
      have tail := ih (show Config.accClass k (freeBlkEnc k a1 b).2 = Config.accClass k (freeBlkEnc k a2 b).2 by
        rw [freeBlkEnc_class k a1, freeBlkEnc_class k a2, h])
      exact congrArg₂ List.cons block tail
    | false =>
      have block : (freeBlkDec k a1 b).1 = (freeBlkDec k a2 b).1 := by rw [freeBlkDec_block, freeBlkDec_block, h]
      have tail := ih (show Config.accClass k (freeBlkDec k a1 b).2 = Config.accClass k (freeBlkDec k a2 b).2 by
        rw [freeBlkDec_class k a1, freeBlkDec_class k a2, block, h])
      exact congrArg₂ List.cons block tail

end Sys2Proof.Machine
end

