-- ==== Sys2Proof/Laws/State.lean ====
section
/-! SUPPORT. One lemma per field per named update of State, so that no later proof unfolds a record update. -/

namespace Sys2Proof.Machine

/-! ### After giving a response -/

@[simp] theorem respond_params (r : Response) (s : State) : (respond r s).params = s.params := rfl
@[simp] theorem respond_srcmem (r : Response) (s : State) : (respond r s).srcmem = s.srcmem := rfl
@[simp] theorem respond_keyrom (r : Response) (s : State) : (respond r s).keyrom = s.keyrom := rfl
@[simp] theorem respond_ks (r : Response) (s : State) : (respond r s).ks = s.ks := rfl
@[simp] theorem respond_acc (r : Response) (s : State) : (respond r s).acc = s.acc := rfl
@[simp] theorem respond_krdy (r : Response) (s : State) : (respond r s).krdy = s.krdy := rfl
@[simp] theorem respond_variant (r : Response) (s : State) : (respond r s).variant = s.variant := rfl
@[simp] theorem respond_src (r : Response) (s : State) : (respond r s).src = s.src := rfl
@[simp] theorem respond_pos (r : Response) (s : State) : (respond r s).pos = s.pos := rfl
@[simp] theorem respond_cache (r : Response) (s : State) : (respond r s).cache = s.cache := rfl
@[simp] theorem respond_srdy (r : Response) (s : State) : (respond r s).srdy = s.srdy := rfl
@[simp] theorem respond_ctype (r : Response) (s : State) : (respond r s).ctype = s.ctype := rfl
@[simp] theorem respond_dsize (r : Response) (s : State) : (respond r s).dsize = s.dsize := rfl
@[simp] theorem respond_opos (r : Response) (s : State) : (respond r s).opos = s.opos := rfl
@[simp] theorem respond_flags (r : Response) (s : State) : (respond r s).flags = s.flags := rfl
@[simp] theorem respond_fcnt (r : Response) (s : State) : (respond r s).fcnt = s.fcnt := rfl
@[simp] theorem respond_len (r : Response) (s : State) : (respond r s).len = s.len := rfl
@[simp] theorem respond_dist (r : Response) (s : State) : (respond r s).dist = s.dist := rfl
@[simp] theorem respond_err (r : Response) (s : State) : (respond r s).err = s.err := rfl
@[simp] theorem respond_outmem (r : Response) (s : State) : (respond r s).outmem = s.outmem := rfl
@[simp] theorem respond_outSize (r : Response) (s : State) : (respond r s).outSize = s.outSize := rfl
@[simp] theorem respond_activity (r : Response) (s : State) : (respond r s).activity = s.activity := rfl
@[simp] theorem respond_cmdq (r : Response) (s : State) : (respond r s).cmdq = s.cmdq := rfl
@[simp] theorem respond_resp (r : Response) (s : State) : (respond r s).resp = some r := rfl

/-! ### After completing with Ok -/

@[simp] theorem finishOk_params (v : Value) (s : State) : (finishOk v s).params = s.params := rfl
@[simp] theorem finishOk_srcmem (v : Value) (s : State) : (finishOk v s).srcmem = s.srcmem := rfl
@[simp] theorem finishOk_keyrom (v : Value) (s : State) : (finishOk v s).keyrom = s.keyrom := rfl
@[simp] theorem finishOk_ks (v : Value) (s : State) : (finishOk v s).ks = s.ks := rfl
@[simp] theorem finishOk_acc (v : Value) (s : State) : (finishOk v s).acc = s.acc := rfl
@[simp] theorem finishOk_krdy (v : Value) (s : State) : (finishOk v s).krdy = s.krdy := rfl
@[simp] theorem finishOk_variant (v : Value) (s : State) : (finishOk v s).variant = s.variant := rfl
@[simp] theorem finishOk_src (v : Value) (s : State) : (finishOk v s).src = s.src := rfl
@[simp] theorem finishOk_pos (v : Value) (s : State) : (finishOk v s).pos = s.pos := rfl
@[simp] theorem finishOk_cache (v : Value) (s : State) : (finishOk v s).cache = s.cache := rfl
@[simp] theorem finishOk_srdy (v : Value) (s : State) : (finishOk v s).srdy = s.srdy := rfl
@[simp] theorem finishOk_ctype (v : Value) (s : State) : (finishOk v s).ctype = s.ctype := rfl
@[simp] theorem finishOk_dsize (v : Value) (s : State) : (finishOk v s).dsize = s.dsize := rfl
@[simp] theorem finishOk_opos (v : Value) (s : State) : (finishOk v s).opos = s.opos := rfl
@[simp] theorem finishOk_flags (v : Value) (s : State) : (finishOk v s).flags = s.flags := rfl
@[simp] theorem finishOk_fcnt (v : Value) (s : State) : (finishOk v s).fcnt = s.fcnt := rfl
@[simp] theorem finishOk_len (v : Value) (s : State) : (finishOk v s).len = s.len := rfl
@[simp] theorem finishOk_dist (v : Value) (s : State) : (finishOk v s).dist = s.dist := rfl
@[simp] theorem finishOk_err (v : Value) (s : State) : (finishOk v s).err = s.err := rfl
@[simp] theorem finishOk_outmem (v : Value) (s : State) : (finishOk v s).outmem = s.outmem := rfl
@[simp] theorem finishOk_outSize (v : Value) (s : State) : (finishOk v s).outSize = s.outSize := rfl
@[simp] theorem finishOk_activity (v : Value) (s : State) : (finishOk v s).activity = .idle := rfl
@[simp] theorem finishOk_cmdq (v : Value) (s : State) : (finishOk v s).cmdq = s.cmdq := rfl
@[simp] theorem finishOk_resp (v : Value) (s : State) : (finishOk v s).resp = some (.ok v) := rfl

/-! ### After raising a decode error (R235) -/

@[simp] theorem raiseError_params (k : ErrKind) (s : State) : (raiseError k s).params = s.params := rfl
@[simp] theorem raiseError_srcmem (k : ErrKind) (s : State) : (raiseError k s).srcmem = s.srcmem := rfl
@[simp] theorem raiseError_keyrom (k : ErrKind) (s : State) : (raiseError k s).keyrom = s.keyrom := rfl
@[simp] theorem raiseError_ks (k : ErrKind) (s : State) : (raiseError k s).ks = s.ks := rfl
@[simp] theorem raiseError_acc (k : ErrKind) (s : State) : (raiseError k s).acc = s.acc := rfl
@[simp] theorem raiseError_krdy (k : ErrKind) (s : State) : (raiseError k s).krdy = s.krdy := rfl
@[simp] theorem raiseError_variant (k : ErrKind) (s : State) : (raiseError k s).variant = s.variant := rfl
@[simp] theorem raiseError_src (k : ErrKind) (s : State) : (raiseError k s).src = s.src := rfl
@[simp] theorem raiseError_pos (k : ErrKind) (s : State) : (raiseError k s).pos = s.pos := rfl
@[simp] theorem raiseError_cache (k : ErrKind) (s : State) : (raiseError k s).cache = s.cache := rfl
@[simp] theorem raiseError_srdy (k : ErrKind) (s : State) : (raiseError k s).srdy = s.srdy := rfl
@[simp] theorem raiseError_ctype (k : ErrKind) (s : State) : (raiseError k s).ctype = s.ctype := rfl
@[simp] theorem raiseError_dsize (k : ErrKind) (s : State) : (raiseError k s).dsize = s.dsize := rfl
@[simp] theorem raiseError_opos (k : ErrKind) (s : State) : (raiseError k s).opos = s.opos := rfl
@[simp] theorem raiseError_flags (k : ErrKind) (s : State) : (raiseError k s).flags = s.flags := rfl
@[simp] theorem raiseError_fcnt (k : ErrKind) (s : State) : (raiseError k s).fcnt = s.fcnt := rfl
@[simp] theorem raiseError_len (k : ErrKind) (s : State) : (raiseError k s).len = s.len := rfl
@[simp] theorem raiseError_dist (k : ErrKind) (s : State) : (raiseError k s).dist = s.dist := rfl
@[simp] theorem raiseError_err (k : ErrKind) (s : State) : (raiseError k s).err = errCode k := rfl
@[simp] theorem raiseError_outmem (k : ErrKind) (s : State) : (raiseError k s).outmem = s.outmem := rfl
@[simp] theorem raiseError_outSize (k : ErrKind) (s : State) : (raiseError k s).outSize = s.outSize := rfl
@[simp] theorem raiseError_activity (k : ErrKind) (s : State) : (raiseError k s).activity = .idle := rfl
@[simp] theorem raiseError_cmdq (k : ErrKind) (s : State) : (raiseError k s).cmdq = s.cmdq := rfl
@[simp] theorem raiseError_resp (k : ErrKind) (s : State) : (raiseError k s).resp = some (.err k) := rfl

/-! ### After clearing ERR (R239) -/

@[simp] theorem clearError_params (s : State) : (clearError s).params = s.params := rfl
@[simp] theorem clearError_srcmem (s : State) : (clearError s).srcmem = s.srcmem := rfl
@[simp] theorem clearError_keyrom (s : State) : (clearError s).keyrom = s.keyrom := rfl
@[simp] theorem clearError_ks (s : State) : (clearError s).ks = s.ks := rfl
@[simp] theorem clearError_acc (s : State) : (clearError s).acc = s.acc := rfl
@[simp] theorem clearError_krdy (s : State) : (clearError s).krdy = s.krdy := rfl
@[simp] theorem clearError_variant (s : State) : (clearError s).variant = s.variant := rfl
@[simp] theorem clearError_src (s : State) : (clearError s).src = s.src := rfl
@[simp] theorem clearError_pos (s : State) : (clearError s).pos = s.pos := rfl
@[simp] theorem clearError_cache (s : State) : (clearError s).cache = s.cache := rfl
@[simp] theorem clearError_srdy (s : State) : (clearError s).srdy = s.srdy := rfl
@[simp] theorem clearError_ctype (s : State) : (clearError s).ctype = s.ctype := rfl
@[simp] theorem clearError_dsize (s : State) : (clearError s).dsize = s.dsize := rfl
@[simp] theorem clearError_opos (s : State) : (clearError s).opos = s.opos := rfl
@[simp] theorem clearError_flags (s : State) : (clearError s).flags = s.flags := rfl
@[simp] theorem clearError_fcnt (s : State) : (clearError s).fcnt = s.fcnt := rfl
@[simp] theorem clearError_len (s : State) : (clearError s).len = s.len := rfl
@[simp] theorem clearError_dist (s : State) : (clearError s).dist = s.dist := rfl
@[simp] theorem clearError_err (s : State) : (clearError s).err = 0 := rfl
@[simp] theorem clearError_outmem (s : State) : (clearError s).outmem = s.outmem := rfl
@[simp] theorem clearError_outSize (s : State) : (clearError s).outSize = s.outSize := rfl
@[simp] theorem clearError_activity (s : State) : (clearError s).activity = s.activity := rfl
@[simp] theorem clearError_cmdq (s : State) : (clearError s).cmdq = s.cmdq := rfl
@[simp] theorem clearError_resp (s : State) : (clearError s).resp = s.resp := rfl

/-! ### After a filled window (R151) -/

@[simp] theorem setWindow_params (a : Nat) (img : Blk) (s : State) : (setWindow a img s).params = s.params := rfl
@[simp] theorem setWindow_srcmem (a : Nat) (img : Blk) (s : State) : (setWindow a img s).srcmem = s.srcmem := rfl
@[simp] theorem setWindow_keyrom (a : Nat) (img : Blk) (s : State) : (setWindow a img s).keyrom = s.keyrom := rfl
@[simp] theorem setWindow_ks (a : Nat) (img : Blk) (s : State) : (setWindow a img s).ks = s.ks := rfl
@[simp] theorem setWindow_acc (a : Nat) (img : Blk) (s : State) : (setWindow a img s).acc = s.acc := rfl
@[simp] theorem setWindow_krdy (a : Nat) (img : Blk) (s : State) : (setWindow a img s).krdy = s.krdy := rfl
@[simp] theorem setWindow_variant (a : Nat) (img : Blk) (s : State) : (setWindow a img s).variant = s.variant := rfl
@[simp] theorem setWindow_src (a : Nat) (img : Blk) (s : State) : (setWindow a img s).src = BitVec.ofNat 32 a := rfl
@[simp] theorem setWindow_pos (a : Nat) (img : Blk) (s : State) : (setWindow a img s).pos = 0 := rfl
@[simp] theorem setWindow_cache (a : Nat) (img : Blk) (s : State) : (setWindow a img s).cache = img := rfl
@[simp] theorem setWindow_srdy (a : Nat) (img : Blk) (s : State) : (setWindow a img s).srdy = s.srdy := rfl
@[simp] theorem setWindow_ctype (a : Nat) (img : Blk) (s : State) : (setWindow a img s).ctype = s.ctype := rfl
@[simp] theorem setWindow_dsize (a : Nat) (img : Blk) (s : State) : (setWindow a img s).dsize = s.dsize := rfl
@[simp] theorem setWindow_opos (a : Nat) (img : Blk) (s : State) : (setWindow a img s).opos = s.opos := rfl
@[simp] theorem setWindow_flags (a : Nat) (img : Blk) (s : State) : (setWindow a img s).flags = s.flags := rfl
@[simp] theorem setWindow_fcnt (a : Nat) (img : Blk) (s : State) : (setWindow a img s).fcnt = s.fcnt := rfl
@[simp] theorem setWindow_len (a : Nat) (img : Blk) (s : State) : (setWindow a img s).len = s.len := rfl
@[simp] theorem setWindow_dist (a : Nat) (img : Blk) (s : State) : (setWindow a img s).dist = s.dist := rfl
@[simp] theorem setWindow_err (a : Nat) (img : Blk) (s : State) : (setWindow a img s).err = s.err := rfl
@[simp] theorem setWindow_outmem (a : Nat) (img : Blk) (s : State) : (setWindow a img s).outmem = s.outmem := rfl
@[simp] theorem setWindow_outSize (a : Nat) (img : Blk) (s : State) : (setWindow a img s).outSize = s.outSize := rfl
@[simp] theorem setWindow_activity (a : Nat) (img : Blk) (s : State) : (setWindow a img s).activity = s.activity := rfl
@[simp] theorem setWindow_cmdq (a : Nat) (img : Blk) (s : State) : (setWindow a img s).cmdq = s.cmdq := rfl
@[simp] theorem setWindow_resp (a : Nat) (img : Blk) (s : State) : (setWindow a img s).resp = s.resp := rfl

/-! ### After loading a flag byte (R184) -/

@[simp] theorem loadFlags_params (f : Byte) (s : State) : (loadFlags f s).params = s.params := rfl
@[simp] theorem loadFlags_srcmem (f : Byte) (s : State) : (loadFlags f s).srcmem = s.srcmem := rfl
@[simp] theorem loadFlags_keyrom (f : Byte) (s : State) : (loadFlags f s).keyrom = s.keyrom := rfl
@[simp] theorem loadFlags_ks (f : Byte) (s : State) : (loadFlags f s).ks = s.ks := rfl
@[simp] theorem loadFlags_acc (f : Byte) (s : State) : (loadFlags f s).acc = s.acc := rfl
@[simp] theorem loadFlags_krdy (f : Byte) (s : State) : (loadFlags f s).krdy = s.krdy := rfl
@[simp] theorem loadFlags_variant (f : Byte) (s : State) : (loadFlags f s).variant = s.variant := rfl
@[simp] theorem loadFlags_src (f : Byte) (s : State) : (loadFlags f s).src = s.src := rfl
@[simp] theorem loadFlags_pos (f : Byte) (s : State) : (loadFlags f s).pos = s.pos := rfl
@[simp] theorem loadFlags_cache (f : Byte) (s : State) : (loadFlags f s).cache = s.cache := rfl
@[simp] theorem loadFlags_srdy (f : Byte) (s : State) : (loadFlags f s).srdy = s.srdy := rfl
@[simp] theorem loadFlags_ctype (f : Byte) (s : State) : (loadFlags f s).ctype = s.ctype := rfl
@[simp] theorem loadFlags_dsize (f : Byte) (s : State) : (loadFlags f s).dsize = s.dsize := rfl
@[simp] theorem loadFlags_opos (f : Byte) (s : State) : (loadFlags f s).opos = s.opos := rfl
@[simp] theorem loadFlags_flags (f : Byte) (s : State) : (loadFlags f s).flags = f := rfl
@[simp] theorem loadFlags_fcnt (f : Byte) (s : State) : (loadFlags f s).fcnt = 8 := rfl
@[simp] theorem loadFlags_len (f : Byte) (s : State) : (loadFlags f s).len = s.len := rfl
@[simp] theorem loadFlags_dist (f : Byte) (s : State) : (loadFlags f s).dist = s.dist := rfl
@[simp] theorem loadFlags_err (f : Byte) (s : State) : (loadFlags f s).err = s.err := rfl
@[simp] theorem loadFlags_outmem (f : Byte) (s : State) : (loadFlags f s).outmem = s.outmem := rfl
@[simp] theorem loadFlags_outSize (f : Byte) (s : State) : (loadFlags f s).outSize = s.outSize := rfl
@[simp] theorem loadFlags_activity (f : Byte) (s : State) : (loadFlags f s).activity = s.activity := rfl
@[simp] theorem loadFlags_cmdq (f : Byte) (s : State) : (loadFlags f s).cmdq = s.cmdq := rfl
@[simp] theorem loadFlags_resp (f : Byte) (s : State) : (loadFlags f s).resp = s.resp := rfl

/-! ### After using a flag (R184) -/

@[simp] theorem useFlag_params (s : State) : (useFlag s).params = s.params := rfl
@[simp] theorem useFlag_srcmem (s : State) : (useFlag s).srcmem = s.srcmem := rfl
@[simp] theorem useFlag_keyrom (s : State) : (useFlag s).keyrom = s.keyrom := rfl
@[simp] theorem useFlag_ks (s : State) : (useFlag s).ks = s.ks := rfl
@[simp] theorem useFlag_acc (s : State) : (useFlag s).acc = s.acc := rfl
@[simp] theorem useFlag_krdy (s : State) : (useFlag s).krdy = s.krdy := rfl
@[simp] theorem useFlag_variant (s : State) : (useFlag s).variant = s.variant := rfl
@[simp] theorem useFlag_src (s : State) : (useFlag s).src = s.src := rfl
@[simp] theorem useFlag_pos (s : State) : (useFlag s).pos = s.pos := rfl
@[simp] theorem useFlag_cache (s : State) : (useFlag s).cache = s.cache := rfl
@[simp] theorem useFlag_srdy (s : State) : (useFlag s).srdy = s.srdy := rfl
@[simp] theorem useFlag_ctype (s : State) : (useFlag s).ctype = s.ctype := rfl
@[simp] theorem useFlag_dsize (s : State) : (useFlag s).dsize = s.dsize := rfl
@[simp] theorem useFlag_opos (s : State) : (useFlag s).opos = s.opos := rfl
@[simp] theorem useFlag_flags (s : State) : (useFlag s).flags = s.flags <<< 1 := rfl
@[simp] theorem useFlag_fcnt (s : State) : (useFlag s).fcnt = s.fcnt - 1 := rfl
@[simp] theorem useFlag_len (s : State) : (useFlag s).len = s.len := rfl
@[simp] theorem useFlag_dist (s : State) : (useFlag s).dist = s.dist := rfl
@[simp] theorem useFlag_err (s : State) : (useFlag s).err = s.err := rfl
@[simp] theorem useFlag_outmem (s : State) : (useFlag s).outmem = s.outmem := rfl
@[simp] theorem useFlag_outSize (s : State) : (useFlag s).outSize = s.outSize := rfl
@[simp] theorem useFlag_activity (s : State) : (useFlag s).activity = s.activity := rfl
@[simp] theorem useFlag_cmdq (s : State) : (useFlag s).cmdq = s.cmdq := rfl
@[simp] theorem useFlag_resp (s : State) : (useFlag s).resp = s.resp := rfl

/-! ### After writing one output byte (R185, R187) -/

@[simp] theorem outPush_params (v : Byte) (s : State) : (outPush v s).params = s.params := rfl
@[simp] theorem outPush_srcmem (v : Byte) (s : State) : (outPush v s).srcmem = s.srcmem := rfl
@[simp] theorem outPush_keyrom (v : Byte) (s : State) : (outPush v s).keyrom = s.keyrom := rfl
@[simp] theorem outPush_ks (v : Byte) (s : State) : (outPush v s).ks = s.ks := rfl
@[simp] theorem outPush_acc (v : Byte) (s : State) : (outPush v s).acc = s.acc := rfl
@[simp] theorem outPush_krdy (v : Byte) (s : State) : (outPush v s).krdy = s.krdy := rfl
@[simp] theorem outPush_variant (v : Byte) (s : State) : (outPush v s).variant = s.variant := rfl
@[simp] theorem outPush_src (v : Byte) (s : State) : (outPush v s).src = s.src := rfl
@[simp] theorem outPush_pos (v : Byte) (s : State) : (outPush v s).pos = s.pos := rfl
@[simp] theorem outPush_cache (v : Byte) (s : State) : (outPush v s).cache = s.cache := rfl
@[simp] theorem outPush_srdy (v : Byte) (s : State) : (outPush v s).srdy = s.srdy := rfl
@[simp] theorem outPush_ctype (v : Byte) (s : State) : (outPush v s).ctype = s.ctype := rfl
@[simp] theorem outPush_dsize (v : Byte) (s : State) : (outPush v s).dsize = s.dsize := rfl
@[simp] theorem outPush_opos (v : Byte) (s : State) : (outPush v s).opos = s.opos + 1 := rfl
@[simp] theorem outPush_flags (v : Byte) (s : State) : (outPush v s).flags = s.flags := rfl
@[simp] theorem outPush_fcnt (v : Byte) (s : State) : (outPush v s).fcnt = s.fcnt := rfl
@[simp] theorem outPush_len (v : Byte) (s : State) : (outPush v s).len = s.len := rfl
@[simp] theorem outPush_dist (v : Byte) (s : State) : (outPush v s).dist = s.dist := rfl
@[simp] theorem outPush_err (v : Byte) (s : State) : (outPush v s).err = s.err := rfl
@[simp] theorem outPush_outmem (v : Byte) (s : State) : (outPush v s).outmem = memWrite outDefault s.outmem s.opos v := rfl
@[simp] theorem outPush_outSize (v : Byte) (s : State) : (outPush v s).outSize = s.outSize := rfl
@[simp] theorem outPush_activity (v : Byte) (s : State) : (outPush v s).activity = s.activity := rfl
@[simp] theorem outPush_cmdq (v : Byte) (s : State) : (outPush v s).cmdq = s.cmdq := rfl
@[simp] theorem outPush_resp (v : Byte) (s : State) : (outPush v s).resp = s.resp := rfl

/-! ### After a fresh OUTMEM (R62) -/

@[simp] theorem clearOut_params (n : Nat) (s : State) : (clearOut n s).params = s.params := rfl
@[simp] theorem clearOut_srcmem (n : Nat) (s : State) : (clearOut n s).srcmem = s.srcmem := rfl
@[simp] theorem clearOut_keyrom (n : Nat) (s : State) : (clearOut n s).keyrom = s.keyrom := rfl
@[simp] theorem clearOut_ks (n : Nat) (s : State) : (clearOut n s).ks = s.ks := rfl
@[simp] theorem clearOut_acc (n : Nat) (s : State) : (clearOut n s).acc = s.acc := rfl
@[simp] theorem clearOut_krdy (n : Nat) (s : State) : (clearOut n s).krdy = s.krdy := rfl
@[simp] theorem clearOut_variant (n : Nat) (s : State) : (clearOut n s).variant = s.variant := rfl
@[simp] theorem clearOut_src (n : Nat) (s : State) : (clearOut n s).src = s.src := rfl
@[simp] theorem clearOut_pos (n : Nat) (s : State) : (clearOut n s).pos = s.pos := rfl
@[simp] theorem clearOut_cache (n : Nat) (s : State) : (clearOut n s).cache = s.cache := rfl
@[simp] theorem clearOut_srdy (n : Nat) (s : State) : (clearOut n s).srdy = s.srdy := rfl
@[simp] theorem clearOut_ctype (n : Nat) (s : State) : (clearOut n s).ctype = s.ctype := rfl
@[simp] theorem clearOut_dsize (n : Nat) (s : State) : (clearOut n s).dsize = s.dsize := rfl
@[simp] theorem clearOut_opos (n : Nat) (s : State) : (clearOut n s).opos = 0 := rfl
@[simp] theorem clearOut_flags (n : Nat) (s : State) : (clearOut n s).flags = s.flags := rfl
@[simp] theorem clearOut_fcnt (n : Nat) (s : State) : (clearOut n s).fcnt = s.fcnt := rfl
@[simp] theorem clearOut_len (n : Nat) (s : State) : (clearOut n s).len = s.len := rfl
@[simp] theorem clearOut_dist (n : Nat) (s : State) : (clearOut n s).dist = s.dist := rfl
@[simp] theorem clearOut_err (n : Nat) (s : State) : (clearOut n s).err = s.err := rfl
@[simp] theorem clearOut_outmem (n : Nat) (s : State) : (clearOut n s).outmem = [] := rfl
@[simp] theorem clearOut_outSize (n : Nat) (s : State) : (clearOut n s).outSize = n := rfl
@[simp] theorem clearOut_activity (n : Nat) (s : State) : (clearOut n s).activity = s.activity := rfl
@[simp] theorem clearOut_cmdq (n : Nat) (s : State) : (clearOut n s).cmdq = s.cmdq := rfl
@[simp] theorem clearOut_resp (n : Nat) (s : State) : (clearOut n s).resp = s.resp := rfl

/-! ### After the beginning of a run (R183) -/

@[simp] theorem beginRun_params (region : Bool) (n : BitVec 24) (s : State) : (beginRun region n s).params = s.params := rfl
@[simp] theorem beginRun_srcmem (region : Bool) (n : BitVec 24) (s : State) : (beginRun region n s).srcmem = s.srcmem := rfl
@[simp] theorem beginRun_keyrom (region : Bool) (n : BitVec 24) (s : State) : (beginRun region n s).keyrom = s.keyrom := rfl
@[simp] theorem beginRun_ks (region : Bool) (n : BitVec 24) (s : State) : (beginRun region n s).ks = s.ks := rfl
@[simp] theorem beginRun_acc (region : Bool) (n : BitVec 24) (s : State) : (beginRun region n s).acc = s.acc := rfl
@[simp] theorem beginRun_krdy (region : Bool) (n : BitVec 24) (s : State) : (beginRun region n s).krdy = s.krdy := rfl
@[simp] theorem beginRun_variant (region : Bool) (n : BitVec 24) (s : State) : (beginRun region n s).variant = s.variant := rfl
@[simp] theorem beginRun_src (region : Bool) (n : BitVec 24) (s : State) : (beginRun region n s).src = s.src := rfl
@[simp] theorem beginRun_pos (region : Bool) (n : BitVec 24) (s : State) : (beginRun region n s).pos = s.pos := rfl
@[simp] theorem beginRun_cache (region : Bool) (n : BitVec 24) (s : State) : (beginRun region n s).cache = s.cache := rfl
@[simp] theorem beginRun_srdy (region : Bool) (n : BitVec 24) (s : State) : (beginRun region n s).srdy = s.srdy := rfl
@[simp] theorem beginRun_ctype (region : Bool) (n : BitVec 24) (s : State) : (beginRun region n s).ctype = s.ctype := rfl
@[simp] theorem beginRun_dsize (region : Bool) (n : BitVec 24) (s : State) : (beginRun region n s).dsize = s.dsize := rfl
@[simp] theorem beginRun_opos (region : Bool) (n : BitVec 24) (s : State) : (beginRun region n s).opos = 0 := rfl
@[simp] theorem beginRun_flags (region : Bool) (n : BitVec 24) (s : State) : (beginRun region n s).flags = 0 := rfl
@[simp] theorem beginRun_fcnt (region : Bool) (n : BitVec 24) (s : State) : (beginRun region n s).fcnt = 0 := rfl
@[simp] theorem beginRun_len (region : Bool) (n : BitVec 24) (s : State) : (beginRun region n s).len = s.len := rfl
@[simp] theorem beginRun_dist (region : Bool) (n : BitVec 24) (s : State) : (beginRun region n s).dist = s.dist := rfl
@[simp] theorem beginRun_err (region : Bool) (n : BitVec 24) (s : State) : (beginRun region n s).err = s.err := rfl
@[simp] theorem beginRun_outmem (region : Bool) (n : BitVec 24) (s : State) : (beginRun region n s).outmem = [] := rfl
@[simp] theorem beginRun_outSize (region : Bool) (n : BitVec 24) (s : State) : (beginRun region n s).outSize = n.toNat := rfl
@[simp] theorem beginRun_activity (region : Bool) (n : BitVec 24) (s : State) : (beginRun region n s).activity = .run region := rfl
@[simp] theorem beginRun_cmdq (region : Bool) (n : BitVec 24) (s : State) : (beginRun region n s).cmdq = s.cmdq := rfl
@[simp] theorem beginRun_resp (region : Bool) (n : BitVec 24) (s : State) : (beginRun region n s).resp = s.resp := rfl

end Sys2Proof.Machine
end

