-- ==== Sys2Proof/Laws/Stream.lean ====
section
/-! SUPPORT. What the shared operations can do, said once: the micro-operations Fill and NextByte, the sequences built
from them, the gate, the copy loop and the loop over stream elements. -/

namespace Sys2Proof.Machine

open Host (Outcome)

/-! ### Sequences of micro-operations -/

@[simp] theorem resBind_ok {α β : Type} (a : α) (s : State) (f : α → State → Res β) : resBind (.ok a s) f = f a s := rfl

@[simp] theorem resBind_raise {α β : Type} (k : ErrKind) (s : State) (f : α → State → Res β) :
    resBind (.raise k s : Res α) f = .raise k s := rfl

/-- A sequence delivers a value only if both parts do. -/
theorem resBind_eq_ok {α β : Type} {r : Res α} {f : α → State → Res β} {b : β} {t : State} :
    resBind r f = .ok b t ↔ ∃ a s, r = .ok a s ∧ f a s = .ok b t := by
  cases r with
  | ok a s => exact ⟨fun h => ⟨a, s, rfl, h⟩, by rintro ⟨_, _, h, h'⟩; cases h; exact h'⟩
  | raise k s => exact ⟨fun h => (by cases h), fun h => (by obtain ⟨_, _, h, _⟩ := h; cases h)⟩

/-- A sequence raises where its first part does, or where its second part does. -/
theorem resBind_eq_raise {α β : Type} {r : Res α} {f : α → State → Res β} {k : ErrKind} {t : State} :
    resBind r f = .raise k t ↔ r = .raise k t ∨ ∃ a s, r = .ok a s ∧ f a s = .raise k t := by
  cases r with
  | ok a s =>
    refine ⟨fun h => .inr ⟨a, s, rfl, h⟩, ?_⟩
    rintro (h | ⟨_, _, h, h'⟩)
    · cases h
    · cases h; exact h'
  | raise k' s =>
    refine ⟨fun h => .inl (by cases h; rfl), ?_⟩
    rintro (h | ⟨_, _, h, _⟩)
    · cases h; rfl
    · cases h

/-! ### The byte source -/

/-- All that reading the stream can change: the position, the window, and ACC by Encrypted fills. -/
def Moved (s t : State) : Prop := t = { s with src := t.src, pos := t.pos, cache := t.cache, acc := t.acc }

theorem Moved.refl (s : State) : Moved s s := rfl

theorem Moved.trans {s t u : State} (h1 : Moved s t) (h2 : Moved t u) : Moved s u := by
  unfold Moved at *
  rw [h2, h1]

/-- Everything Fill can do (R151): an Encrypted window inside SRCMEM is decrypted, one that overhangs raises and changes
nothing; a Plain fill always completes. -/
theorem fill_cases (a : Nat) (s : State) :
    (s.variant = .encrypted ∧ extentOf s < a + 8 ∧ fill a s = .raise .truncatedSource s)
    ∨ (s.variant = .encrypted ∧ a + 8 ≤ extentOf s
        ∧ fill a s = .ok () (setWindow a ((ciphOf s.params).blkDec s.ks s.acc (rawWindow s a)).1
            { s with acc := ((ciphOf s.params).blkDec s.ks s.acc (rawWindow s a)).2 }))
    ∨ (s.variant = .plain ∧ fill a s = .ok () (setWindow a (plainWindow s a) s)) := by
  unfold fill
  cases hv : s.variant with
  | plain => exact .inr (.inr ⟨rfl, rfl⟩)
  | encrypted =>
    by_cases h : a + 8 > extentOf s
    · exact .inl ⟨rfl, h, by simp [h]⟩
    · exact .inr (.inl ⟨rfl, by omega, by simp [h]⟩)

/-- A fill moves the stream and nothing else; POS is 0 after it. -/
theorem fill_ok {a : Nat} {s t : State} (h : fill a s = .ok () t) : Moved s t ∧ t.pos = 0 := by
  rcases fill_cases a s with ⟨_, _, e⟩ | ⟨_, _, e⟩ | ⟨_, e⟩ <;> rw [e] at h <;> cases h <;> exact ⟨rfl, rfl⟩

/-- A fill raises TruncatedSource only, from an Encrypted source, and changes nothing (R236). -/
theorem fill_raise {a : Nat} {s t : State} {k : ErrKind} (h : fill a s = .raise k t) :
    s.variant = .encrypted ∧ k = .truncatedSource ∧ t = s := by
  rcases fill_cases a s with ⟨v, _, e⟩ | ⟨_, _, e⟩ | ⟨_, e⟩ <;> rw [e] at h <;> cases h
  exact ⟨v, rfl, rfl⟩

/-- Where bytes are left in the window, nothing is refilled (R153: lazy). -/
theorem refill_of_lt {s : State} (h : s.pos < 8) : refill s = .ok () s := by
  unfold refill
  rw [if_neg (by omega)]

/-- Where the window is used up, the next one is filled. -/
theorem refill_of_le {s : State} (h : 8 ≤ s.pos) : refill s = fill (s.src.toNat + 8) s := by
  unfold refill
  rw [if_pos h]

/-- Everything the delivery of a byte can do (R153). -/
theorem deliver_cases (s : State) :
    (s.variant = .plain ∧ extentOf s ≤ spos s ∧ deliver s = .raise .truncatedSource s)
    ∨ ((s.variant = .plain → spos s < extentOf s)
        ∧ deliver s = .ok (blkGet s.cache s.pos) { s with pos := s.pos + 1 }) := by
  unfold deliver
  by_cases h : s.variant = .plain ∧ extentOf s ≤ spos s
  · exact .inl ⟨h.1, h.2, if_pos h⟩
  · exact .inr ⟨fun hv => by by_contra hc; exact h ⟨hv, by omega⟩, if_neg h⟩

/-- NextByte where bytes are left in the window. -/
theorem nextByte_of_lt {s : State} (h : s.pos < 8) : nextByte s = deliver s := by
  unfold nextByte
  rw [refill_of_lt h]
  rfl

/-- NextByte where the window is used up. -/
theorem nextByte_of_le {s : State} (h : 8 ≤ s.pos) :
    nextByte s = resBind (fill (s.src.toNat + 8) s) fun _ s => deliver s := by
  unfold nextByte
  rw [refill_of_le h]

/-- A byte delivered moves the stream and nothing else. -/
theorem nextByte_ok {s t : State} {b : Byte} (h : nextByte s = .ok b t) : Moved s t := by
  obtain ⟨_, u, hr, hd⟩ := resBind_eq_ok.mp h
  have hu : Moved s u := by
    by_cases hp : s.pos < 8
    · rw [refill_of_lt hp] at hr; cases hr; exact Moved.refl s
    · rw [refill_of_le (by omega)] at hr; exact (fill_ok hr).1
  rcases deliver_cases u with ⟨_, _, e⟩ | ⟨_, e⟩ <;> rw [e] at hd <;> cases hd
  exact hu.trans rfl

/-- NextByte raises TruncatedSource only; at most the refill of a Plain window has moved the stream (R153). -/
theorem nextByte_raise {s t : State} {k : ErrKind} (h : nextByte s = .raise k t) :
    k = .truncatedSource ∧ Moved s t := by
  rcases resBind_eq_raise.mp h with hr | ⟨_, u, hr, hd⟩
  · by_cases hp : s.pos < 8
    · rw [refill_of_lt hp] at hr; cases hr
    · rw [refill_of_le (by omega)] at hr
      obtain ⟨_, hk, ht⟩ := fill_raise hr
      subst ht
      exact ⟨hk, Moved.refl t⟩
  · have hu : Moved s u := by
      by_cases hp : s.pos < 8
      · rw [refill_of_lt hp] at hr; cases hr; exact Moved.refl s
      · rw [refill_of_le (by omega)] at hr; exact (fill_ok hr).1
    rcases deliver_cases u with ⟨_, _, e⟩ | ⟨_, e⟩ <;> rw [e] at hd <;> cases hd
    exact ⟨rfl, hu⟩

/-- Fill does not look at what the running command still has to do. -/
theorem fill_activity (p : Nat) (s : State) (a : Activity) :
    (∀ t, fill p s = .ok () t → fill p { s with activity := a } = .ok () { t with activity := a })
    ∧ ∀ k t, fill p s = .raise k t → fill p { s with activity := a } = .raise k { t with activity := a } := by
  rcases fill_cases p s with ⟨hv, hx, e⟩ | ⟨hv, hx, e⟩ | ⟨hv, e⟩ <;>
    rcases fill_cases p { s with activity := a } with ⟨hv', hx', e'⟩ | ⟨hv', hx', e'⟩ | ⟨hv', e'⟩ <;>
    dsimp only at hv' <;> rw [hv] at hv' <;> try cases hv'
  · exact ⟨fun t h => (by rw [e] at h; cases h), fun k t h => by rw [e] at h; cases h; exact e'⟩
  · exact absurd hx (Nat.not_lt.mpr hx')
  · exact absurd hx' (Nat.not_lt.mpr hx)
  · exact ⟨fun t h => by rw [e] at h; cases h; exact e', fun k t h => by rw [e] at h; cases h⟩
  · exact ⟨fun t h => by rw [e] at h; cases h; exact e', fun k t h => by rw [e] at h; cases h⟩

/-- Nor does the delivery of a byte. -/
theorem deliver_activity (s : State) (a : Activity) :
    (∀ b t, deliver s = .ok b t → deliver { s with activity := a } = .ok b { t with activity := a })
    ∧ ∀ k t, deliver s = .raise k t → deliver { s with activity := a } = .raise k { t with activity := a } := by
  by_cases hx : s.variant = .plain ∧ extentOf s ≤ spos s
  · have e : deliver s = .raise .truncatedSource s := if_pos hx
    have e' : deliver { s with activity := a } = .raise .truncatedSource { s with activity := a } := if_pos hx
    exact ⟨fun b t h => (by rw [e] at h; cases h), fun k t h => by rw [e] at h; cases h; exact e'⟩
  · have e : deliver s = .ok (blkGet s.cache s.pos) { s with pos := s.pos + 1 } := if_neg hx
    have e' : deliver { s with activity := a }
        = .ok (blkGet s.cache s.pos) { s with activity := a, pos := s.pos + 1 } := if_neg hx
    exact ⟨fun b t h => by rw [e] at h; cases h; exact e', fun k t h => by rw [e] at h; cases h⟩

/-- Nor does NextByte: inside a command it delivers the byte, or raises the error, that it would between commands. -/
theorem nextByte_activity (s : State) (a : Activity) :
    (∀ b t, nextByte s = .ok b t → nextByte { s with activity := a } = .ok b { t with activity := a })
    ∧ ∀ k t, nextByte s = .raise k t → nextByte { s with activity := a } = .raise k { t with activity := a } := by
  by_cases hp : s.pos < 8
  · rw [nextByte_of_lt hp, nextByte_of_lt (s := { s with activity := a }) hp]
    exact deliver_activity s a
  · rw [nextByte_of_le (by omega), nextByte_of_le (s := { s with activity := a }) (Nat.not_lt.mp hp)]
    constructor
    · intro b t h
      obtain ⟨_, u, hf, hd⟩ := resBind_eq_ok.mp h
      exact resBind_eq_ok.mpr ⟨(), _, (fill_activity _ s a).1 u hf, (deliver_activity u a).1 b t hd⟩
    · intro k t h
      rcases resBind_eq_raise.mp h with hf | ⟨_, u, hf, hd⟩
      · exact resBind_eq_raise.mpr (.inl ((fill_activity _ s a).2 k t hf))
      · exact resBind_eq_raise.mpr (.inr ⟨(), _, (fill_activity _ s a).1 u hf, (deliver_activity u a).2 k t hd⟩)

/-! ### Commands -/

/-- Everything the gate can do (R235, R240): refuse, respond with the error held, or run the body. -/
theorem gated_cases (body : State → Outcome State Fault Refusal) (s : State) :
    (s.srdy = false ∧ gated body s = .next (refuse s))
    ∨ (s.srdy = true ∧ ∃ k, errOf s.err = some k ∧ gated body s = .next (respond (.err k) s))
    ∨ (s.srdy = true ∧ s.err = 0 ∧ gated body s = body s) := by
  unfold gated
  cases hs : s.srdy with
  | false => exact .inl ⟨rfl, rfl⟩
  | true =>
    refine .inr ?_
    cases he : errOf s.err with
    | some k => exact .inl ⟨rfl, k, rfl, rfl⟩
    | none =>
      refine .inr ⟨rfl, ?_, rfl⟩
      unfold errOf at he
      by_contra hc
      rw [if_neg hc] at he
      split at he
      · cases he
      · split at he <;> cases he

/-- With a source attached and no error held the gate runs the body. -/
theorem gated_of_ready {body : State → Outcome State Fault Refusal} {s : State} (hs : s.srdy = true) (he : s.err = 0) :
    gated body s = body s := by
  rcases gated_cases body s with ⟨h, _⟩ | ⟨_, k, h, _⟩ | ⟨_, _, e⟩
  · rw [hs] at h; cases h
  · rw [he] at h; cases h
  · exact e

/-- The code of an error held in ERR reads back as that error (R234). -/
@[simp] theorem errOf_errCode (k : ErrKind) : errOf (errCode k) = some k := by cases k <;> rfl

/-- ERR holds no error exactly when it is 0 (R37). -/
@[simp] theorem errOf_zero : errOf 0 = none := rfl

/-- A command's end gives a next state, completed or with the error raised. -/
theorem finish_next {α : Type} {val : α → Value} {r : Res α} {t : State} (h : finish val r = .next t) :
    (∃ a s, r = .ok a s ∧ t = finishOk (val a) s) ∨ ∃ k s, r = .raise k s ∧ t = raiseError k s := by
  cases r with
  | ok a s => exact .inl ⟨a, s, rfl, by cases h; rfl⟩
  | raise k s => exact .inr ⟨k, s, rfl, by cases h; rfl⟩

/-! ### Runs -/

/-- All that a run can change beside the position of the stream: OUTMEM and OPOS. -/
theorem copyLoop_next {k : Nat} {s t : State} (h : copyLoop k s = .next t) :
    t = { s with outmem := t.outmem, opos := t.opos } ∧ s.opos ≤ t.opos ∧ t.opos ≤ s.opos + k := by
  induction k generalizing s with
  | zero => cases h; exact ⟨rfl, Nat.le_refl _, Nat.le_refl _⟩
  | succ k ih =>
    unfold copyLoop at h
    split at h
    · cases h; exact ⟨rfl, Nat.le_refl _, Nat.le_add_right _ _⟩
    · split at h
      · obtain ⟨e, h1, h2⟩ := ih h
        simp only [outPush_opos] at h1 h2
        exact ⟨by rw [e]; rfl, by omega, by omega⟩
      · cases h

/-- The element loop, from a state whose command has ended. -/
theorem runElements_idle {s : State} (h : s.activity = .idle) (k : Nat) : runElements k s = .next s := by
  cases k with
  | zero => rfl
  | succ k => simp [runElements, h]

/-- The element loop, from a state inside a command. -/
theorem runElements_busy {s : State} (h : s.activity ≠ .idle) (k : Nat) :
    runElements (k + 1) s =
      match elementStep s with
      | .next s => runElements k s
      | .fault f => .fault f
      | .refused r => .refused r := by
  cases ha : s.activity with
  | idle => exact absurd ha h
  | header r => cases s; dsimp only at ha; subst ha; rfl
  | run r => cases s; dsimp only at ha; subst ha; rfl

/-- The induction over the element loop, packaged once: what holds where it begins, and is kept by every element executed
inside a command, holds of the state it answers. -/
theorem runElements_induction (P : State → Prop)
    (hstep : ∀ s t, s.activity ≠ .idle → P s → elementStep s = .next t → P t) :
    ∀ (k : Nat) (s t : State), P s → runElements k s = .next t → P t := by
  intro k
  induction k with
  | zero => intro s t hs h; cases h; exact hs
  | succ k ih =>
    intro s t hs h
    by_cases ha : s.activity = .idle
    · rw [runElements_idle ha] at h; cases h; exact hs
    · rw [runElements_busy ha] at h
      cases he : elementStep s with
      | next u => rw [he] at h; exact ih u t (hstep s u ha hs he) h
      | fault f => rw [he] at h; cases h
      | refused r => rw [he] at h; cases h

end Sys2Proof.Machine
end

