-- ==== Sys2Proof/Laws/Elements.lean ====
section
/-! SUPPORT. What attaching a source, fetching and executing a stream element, and whole runs can do, said once. -/

namespace Sys2Proof.Machine

open Host (Outcome)

/-! ### Wider reads and attaching -/

/-- Two bytes that arrive are two deliveries, composed (R155). -/
theorem nextU16_eq_ok {s t : State} {v : BitVec 16} :
    nextU16 s = .ok v t ↔ ∃ b0 u b1, nextByte s = .ok b0 u ∧ nextByte u = .ok b1 t ∧ v = le16 b0 b1 := by
  unfold nextU16
  simp only [resBind_eq_ok]
  constructor
  · rintro ⟨b0, u, h0, b1, w, h1, e⟩
    cases e
    exact ⟨b0, u, b1, h0, h1, rfl⟩
  · rintro ⟨b0, u, b1, h0, h1, rfl⟩
    exact ⟨b0, u, h0, b1, t, h1, rfl⟩

/-- Four bytes that arrive are four deliveries, composed (R156). -/
theorem nextU32_eq_ok {s t : State} {v : Word} :
    nextU32 s = .ok v t ↔ ∃ b0 u0 b1 u1 b2 u2 b3, nextByte s = .ok b0 u0 ∧ nextByte u0 = .ok b1 u1
      ∧ nextByte u1 = .ok b2 u2 ∧ nextByte u2 = .ok b3 t ∧ v = le32 b0 b1 b2 b3 := by
  unfold nextU32
  simp only [resBind_eq_ok]
  constructor
  · rintro ⟨b0, u0, h0, b1, u1, h1, b2, u2, h2, b3, u3, h3, e⟩
    cases e
    exact ⟨b0, u0, b1, u1, b2, u2, b3, h0, h1, h2, h3, rfl⟩
  · rintro ⟨b0, u0, b1, u1, b2, u2, b3, h0, h1, h2, h3, rfl⟩
    exact ⟨b0, u0, h0, b1, u1, h1, b2, u2, h2, b3, t, h3, rfl⟩

/-- Everything attaching a source can do (R152): an Encrypted window that overhangs EXTENT raises and leaves the source
detached; an Encrypted window inside it is decrypted; a Plain one is copied. -/
theorem attach_cases (v : Variant) (ptr : Word) (s : State) :
    (v = .encrypted ∧ extentOf s < ptr.toNat + 8
      ∧ attach v ptr s = .raise .truncatedSource { s with err := 0, srdy := false, variant := .encrypted })
    ∨ (v = .encrypted ∧ ptr.toNat + 8 ≤ extentOf s
      ∧ attach v ptr s = .ok () { setWindow ptr.toNat ((ciphOf s.params).blkDec s.ks s.acc (rawWindow s ptr.toNat)).1 s with
          acc := ((ciphOf s.params).blkDec s.ks s.acc (rawWindow s ptr.toNat)).2
          err := 0, srdy := true, variant := .encrypted })
    ∨ (v = .plain
      ∧ attach v ptr s = .ok () { setWindow ptr.toNat (plainWindow s ptr.toNat) s with
          err := 0, srdy := true, variant := .plain }) := by
  unfold attach
  rcases fill_cases ptr.toNat { clearError s with srdy := false, variant := v } with
    ⟨hv, h, e⟩ | ⟨hv, h, e⟩ | ⟨hv, e⟩ <;> rw [e] <;> dsimp only at hv <;> subst hv
  · exact .inl ⟨rfl, h, rfl⟩
  · exact .inr (.inl ⟨rfl, h, rfl⟩)
  · exact .inr (.inr ⟨rfl, rfl⟩)

/-! ### The next bytes of the stream -/

@[simp] theorem fetchBytes_zero (s : State) : fetchBytes 0 s = .ok [] s := rfl

/-- The next k + 1 bytes are the next byte and then the next k. -/
theorem fetchBytes_succ_eq_ok {k : Nat} {s t : State} {bs : List Byte} :
    fetchBytes (k + 1) s = .ok bs t ↔
      ∃ b u bs', nextByte s = .ok b u ∧ fetchBytes k u = .ok bs' t ∧ bs = b :: bs' := by
  simp only [fetchBytes, resBind_eq_ok]
  constructor
  · rintro ⟨b, u, h0, bs', w, h1, e⟩
    cases e
    exact ⟨b, u, bs', h0, h1, rfl⟩
  · rintro ⟨b, u, bs', h0, h1, rfl⟩
    exact ⟨b, u, h0, bs', t, h1, rfl⟩

/-- They fail to arrive where the first fails, or where the rest does. -/
theorem fetchBytes_succ_eq_raise {k : Nat} {s t : State} {e : ErrKind} :
    fetchBytes (k + 1) s = .raise e t ↔
      nextByte s = .raise e t ∨ ∃ b u, nextByte s = .ok b u ∧ fetchBytes k u = .raise e t := by
  simp only [fetchBytes, resBind_eq_raise]
  constructor
  · rintro (h | ⟨b, u, h0, h | ⟨_, _, _, h⟩⟩)
    · exact .inl h
    · exact .inr ⟨b, u, h0, h⟩
    · cases h
  · rintro (h | ⟨b, u, h0, h⟩)
    · exact .inl h
    · exact .inr ⟨b, u, h0, .inl h⟩

/-- Bytes that arrive are as many as asked for and have moved the stream alone. -/
theorem fetchBytes_ok {k : Nat} {s t : State} {bs : List Byte} (h : fetchBytes k s = .ok bs t) :
    bs.length = k ∧ Moved s t := by
  induction k generalizing s bs with
  | zero => cases h; exact ⟨rfl, Moved.refl _⟩
  | succ k ih =>
    obtain ⟨b, u, bs', h0, h1, rfl⟩ := fetchBytes_succ_eq_ok.mp h
    exact ⟨by rw [List.length_cons, (ih h1).1], (nextByte_ok h0).trans (ih h1).2⟩

/-- Bytes that do not arrive raise TruncatedSource and have moved the stream alone (R236). -/
theorem fetchBytes_raise {k : Nat} {s t : State} {e : ErrKind} (h : fetchBytes k s = .raise e t) :
    e = .truncatedSource ∧ Moved s t := by
  induction k generalizing s with
  | zero => cases h
  | succ k ih =>
    rcases fetchBytes_succ_eq_raise.mp h with h | ⟨b, u, h0, h⟩
    · exact nextByte_raise h
    · exact ⟨(ih h).1, (nextByte_ok h0).trans (ih h).2⟩

/-! ### Fetching an element -/

/-- All that fetching an element can change: the stream position, and the flag a token uses. -/
def Fetched (s t : State) : Prop :=
  t = { s with src := t.src, pos := t.pos, cache := t.cache, acc := t.acc, flags := t.flags, fcnt := t.fcnt }

theorem Moved.fetched {s t : State} (h : Moved s t) : Fetched s t := by
  unfold Moved at h
  unfold Fetched
  rw [h]

theorem useFlag_fetched {s t : State} (h : Moved (useFlag s) t) : Fetched s t := by
  unfold Moved at h
  unfold Fetched
  rw [h]
  rfl

/-- A header that arrives has moved the stream and nothing else. -/
theorem fetchHeader_ok {s t : State} {e : Element} (h : fetchHeader s = .ok e t) : Moved s t := by
  unfold fetchHeader at h
  split at h <;> simp only [resBind_eq_ok] at h
  · obtain ⟨_, _, h0, _, _, h1, _, _, h2, e⟩ := h
    cases e
    exact ((nextByte_ok h0).trans (nextByte_ok h1)).trans (nextByte_ok h2)
  · obtain ⟨_, _, h0, _, _, h1, _, _, h2, _, _, h3, e⟩ := h
    cases e
    exact (((nextByte_ok h0).trans (nextByte_ok h1)).trans (nextByte_ok h2)).trans (nextByte_ok h3)

/-- A header that does not arrive raises TruncatedSource (R181, R238(b)). -/
theorem fetchHeader_raise {s t : State} {k : ErrKind} (h : fetchHeader s = .raise k t) :
    k = .truncatedSource ∧ Moved s t := by
  unfold fetchHeader at h
  split at h <;> simp only [resBind_eq_raise] at h
  · rcases h with h | ⟨_, _, h0, h | ⟨_, _, h1, h | ⟨_, _, _, h⟩⟩⟩
    · exact nextByte_raise h
    · exact ⟨(nextByte_raise h).1, (nextByte_ok h0).trans (nextByte_raise h).2⟩
    · exact ⟨(nextByte_raise h).1, ((nextByte_ok h0).trans (nextByte_ok h1)).trans (nextByte_raise h).2⟩
    · cases h
  · rcases h with h | ⟨_, _, h0, h | ⟨_, _, h1, h | ⟨_, _, h2, h | ⟨_, _, _, h⟩⟩⟩⟩
    · exact nextByte_raise h
    · exact ⟨(nextByte_raise h).1, (nextByte_ok h0).trans (nextByte_raise h).2⟩
    · exact ⟨(nextByte_raise h).1, ((nextByte_ok h0).trans (nextByte_ok h1)).trans (nextByte_raise h).2⟩
    · exact ⟨(nextByte_raise h).1,
        (((nextByte_ok h0).trans (nextByte_ok h1)).trans (nextByte_ok h2)).trans (nextByte_raise h).2⟩
    · cases h

/-- A token that arrives is a literal for a flag 0 and a back-reference for a flag 1 (R184). -/
theorem fetchToken_ok {r : Bool} {s t : State} {e : Element} (h : fetchToken r s = .ok e t) :
    Moved s t ∧ ((r = false ∧ ∃ d, e = .lit d) ∨ (r = true ∧ ∃ r0 r1, e = decodeRef s.params.refLayout r0 r1)) := by
  unfold fetchToken at h
  split at h <;> simp only [resBind_eq_ok] at h
  · obtain ⟨d, _, h0, e⟩ := h
    cases e
    exact ⟨nextByte_ok h0, .inl ⟨rfl, d, rfl⟩⟩
  · obtain ⟨r0, u, h0, r1, _, h1, e⟩ := h
    have hp : u.params = s.params := by rw [nextByte_ok h0]
    have hp2 := (nextByte_ok h1)
    cases e
    refine ⟨(nextByte_ok h0).trans (nextByte_ok h1), .inr ⟨rfl, r0, r1, ?_⟩⟩
    rw [← hp, show t.params = u.params by rw [hp2]]

/-- A token that does not arrive raises TruncatedSource (R238(c)). -/
theorem fetchToken_raise {r : Bool} {s t : State} {k : ErrKind} (h : fetchToken r s = .raise k t) :
    k = .truncatedSource ∧ Moved s t := by
  unfold fetchToken at h
  split at h <;> simp only [resBind_eq_raise] at h
  · rcases h with h | ⟨_, _, _, h⟩
    · exact nextByte_raise h
    · cases h
  · rcases h with h | ⟨_, _, h0, h | ⟨_, _, _, h⟩⟩
    · exact nextByte_raise h
    · exact ⟨(nextByte_raise h).1, (nextByte_ok h0).trans (nextByte_raise h).2⟩
    · cases h

/-- Fetching an element of a run (R183, R184): END, a flag byte, or the token that FLAGS[7] selects. -/
theorem fetchRun_ok {s t : State} {e : Element} (h : fetchRun s = .ok e t) :
    (s.outSize ≤ s.opos ∧ e = .endRun ∧ t = s)
    ∨ (s.opos < s.outSize ∧ s.fcnt = 0 ∧ ∃ f, e = .flg f ∧ Moved s t)
    ∨ (s.opos < s.outSize ∧ s.fcnt ≠ 0 ∧ Moved (useFlag s) t
        ∧ ((nextFlag s = false ∧ ∃ d, e = .lit d)
          ∨ (nextFlag s = true ∧ ∃ r0 r1, e = decodeRef s.params.refLayout r0 r1))) := by
  unfold fetchRun at h
  split at h
  · rename_i h0
    cases h
    exact .inl ⟨h0, rfl, rfl⟩
  · rename_i h0
    split at h
    · rename_i h1
      rw [resBind_eq_ok] at h
      obtain ⟨f, _, hb, e⟩ := h
      cases e
      exact .inr (.inl ⟨by omega, h1, f, rfl, nextByte_ok hb⟩)
    · rename_i h1
      exact .inr (.inr ⟨by omega, h1, fetchToken_ok h⟩)

/-- Fetching raises TruncatedSource only. -/
theorem fetchElement_raise {s t : State} {k : ErrKind} (h : fetchElement s = .raise k t) :
    k = .truncatedSource ∧ Fetched s t := by
  unfold fetchElement at h
  split at h
  · exact (fetchHeader_raise h).imp id Moved.fetched
  · unfold fetchRun at h
    split at h
    · cases h
    · split at h
      · rcases resBind_eq_raise.mp h with hb | ⟨_, _, _, e⟩
        · exact (nextByte_raise hb).imp id Moved.fetched
        · cases e
      · exact (fetchToken_raise h).imp id useFlag_fetched
  · cases h

/-- Fetching moves the stream and may use a flag; it changes nothing else. -/
theorem fetchElement_ok {s t : State} {e : Element} (h : fetchElement s = .ok e t) : Fetched s t := by
  unfold fetchElement at h
  split at h
  · exact (fetchHeader_ok h).fetched
  · rcases fetchRun_ok h with ⟨_, _, rfl⟩ | ⟨_, _, _, _, m⟩ | ⟨_, _, m, _⟩
    · rfl
    · exact m.fetched
    · exact useFlag_fetched m
  · cases h
    rfl

/-! ### Executing an element -/

/-- All that stream elements can change. Not among it: the launch, SRCMEM, KEYROM, KS, KRDY, the attachment (VARIANT,
SRDY) and the pending commands. -/
def RunMoved (s t : State) : Prop :=
  t = { s with
    src := t.src, pos := t.pos, cache := t.cache, acc := t.acc, ctype := t.ctype, dsize := t.dsize, opos := t.opos
    flags := t.flags, fcnt := t.fcnt, len := t.len, dist := t.dist, err := t.err, outmem := t.outmem
    outSize := t.outSize, activity := t.activity, resp := t.resp }

theorem RunMoved.refl (s : State) : RunMoved s s := rfl

theorem RunMoved.trans {s t u : State} (h1 : RunMoved s t) (h2 : RunMoved t u) : RunMoved s u := by
  unfold RunMoved at *
  rw [h2, h1]

theorem Fetched.runMoved {s t : State} (h : Fetched s t) : RunMoved s t := by
  unfold Fetched at h
  unfold RunMoved
  rw [h]

/-- Everything the end of a header parse can do (R181, R182). -/
theorem latchHeader_cases (typ : BitVec 4) (size : BitVec 24) (s : State) :
    (typ ≠ 1 ∧ latchHeader typ size s = .next (raiseError .unsupportedCompressionType { s with ctype := typ, dsize := size }))
    ∨ (typ = 1 ∧ latchHeader typ size s = .next (afterHeader { s with ctype := typ, dsize := size })) := by
  unfold latchHeader
  by_cases h : typ = 1
  · exact .inr ⟨h, if_pos h⟩
  · exact .inl ⟨h, if_neg h⟩

theorem afterHeader_runMoved (s : State) : RunMoved s (afterHeader s) := by
  unfold afterHeader
  split <;> rfl

theorem latchHeader_runMoved {typ : BitVec 4} {size : BitVec 24} {s t : State} (h : latchHeader typ size s = .next t) :
    RunMoved s t := by
  rcases latchHeader_cases typ size s with ⟨_, e⟩ | ⟨_, e⟩ <;> rw [e] at h <;> cases h
  · rfl
  · exact RunMoved.trans (t := { s with ctype := typ, dsize := size }) rfl (afterHeader_runMoved _)

/-- Everything REF can do (R186, R187). -/
theorem execRef_cases (len dist : Nat) (s : State) :
    (s.opos < dist ∧ execRef len dist s = .next (raiseError .backReferenceOutOfRange { s with len := len, dist := dist }))
    ∨ (dist ≤ s.opos ∧ execRef len dist s = copyLoop len { s with len := len, dist := dist }) := by
  unfold execRef
  by_cases h : s.opos < dist
  · exact .inl ⟨h, if_pos h⟩
  · exact .inr ⟨by omega, if_neg h⟩

theorem execRef_runMoved {len dist : Nat} {s t : State} (h : execRef len dist s = .next t) : RunMoved s t := by
  rcases execRef_cases len dist s with ⟨_, e⟩ | ⟨_, e⟩ <;> rw [e] at h
  · cases h
    rfl
  · refine RunMoved.trans (t := { s with len := len, dist := dist }) rfl ?_
    unfold RunMoved
    rw [(copyLoop_next h).1]

/-- Executing an element changes only what stream elements can change. -/
theorem execElement_runMoved {e : Element} {s t : State} (h : execElement e s = .next t) : RunMoved s t := by
  cases e with
  | hdr typ size => exact latchHeader_runMoved h
  | hdrW32 typ ign size => exact latchHeader_runMoved h
  | flg f => cases h; rfl
  | lit d =>
    simp only [execElement, execLit] at h
    split at h
    · cases h; rfl
    · cases h
  | ref len dist => exact execRef_runMoved h
  | endRun =>
    simp only [execElement, execEndRun] at h
    split at h <;> cases h <;> rfl

/-- One stream element changes only what stream elements can change. -/
theorem elementStep_runMoved {s t : State} (h : elementStep s = .next t) : RunMoved s t := by
  unfold elementStep at h
  split at h
  · rename_i hf
    exact (fetchElement_ok hf).runMoved.trans (execElement_runMoved h)
  · rename_i hf
    cases h
    exact (fetchElement_raise hf).2.runMoved.trans rfl

/-- Any number of stream elements change only what stream elements can change. -/
theorem runElements_runMoved {k : Nat} {s t : State} (h : runElements k s = .next t) : RunMoved s t :=
  runElements_induction (RunMoved s) (fun _ _ _ hu he => hu.trans (elementStep_runMoved he)) k s t (RunMoved.refl s) h

/-- Executing an element inside the loop is the arm of `exec` for its instruction. -/
theorem exec_element (e : Element) (s : State) : exec e.toInstr s = execElement e s := by cases e <;> rfl

/-- Inside a command a step is one round of the element loop (30_encoding.md R102). -/
theorem step_eq_elementStep {s : State} (h : s.activity ≠ .idle) : step s = elementStep s := by
  have : step s = stepElement s := by
    unfold step
    cases ha : s.activity with
    | idle => exact absurd ha h
    | header r => rfl
    | run r => rfl
  rw [this]
  unfold stepElement elementStep
  cases fetchElement s with
  | ok e u => exact exec_element e u
  | raise k u => rfl

end Sys2Proof.Machine
end

