-- ==== Sys2Proof/Laws/Memory.lean ====
section
/-! SUPPORT. The laws of byte memories: a write is read back, leaves other addresses alone, and keeps the canonical
form; what a canonical memory lists below its lower bound. -/

namespace Sys2Proof.Machine

@[simp] theorem memRead_nil (d : Option Byte) (a : Nat) : memRead d [] a = d := rfl

theorem memRead_cons (d : Option Byte) (a' : Nat) (v : Byte) (m : Memory) (a : Nat) :
    memRead d ((a', v) :: m) a = if a' = a then some v else memRead d m a := rfl

theorem memWfFrom_cons (d : Option Byte) (lo a : Nat) (v : Byte) (m : Memory) :
    memWfFrom d lo ((a, v) :: m) = true ↔ lo ≤ a ∧ some v ≠ d ∧ memWfFrom d (a + 1) m = true := by
  simp [memWfFrom]

/-- A lower bound may be lowered. -/
theorem memWfFrom_mono {d : Option Byte} {lo lo' : Nat} {m : Memory} (h : memWfFrom d lo m = true) (hl : lo' ≤ lo) :
    memWfFrom d lo' m = true := by
  cases m with
  | nil => rfl
  | cons c m =>
    obtain ⟨a, v⟩ := c
    rw [memWfFrom_cons] at h ⊢
    exact ⟨by omega, h.2⟩

/-- Below its lower bound a canonical memory lists nothing. -/
theorem memRead_below {d : Option Byte} {lo : Nat} {m : Memory} (h : memWfFrom d lo m = true) {a : Nat} (ha : a < lo) :
    memRead d m a = d := by
  induction m generalizing lo with
  | nil => rfl
  | cons c m ih =>
    obtain ⟨a', v⟩ := c
    rw [memWfFrom_cons] at h
    rw [memRead_cons, if_neg (by omega)]
    exact ih h.2.2 (by omega)

/-- Putting a cell in front keeps the form, if the rest lies above it. -/
theorem memCons_wf {d : Option Byte} {lo a : Nat} {v : Byte} {m : Memory} (h : memWfFrom d (a + 1) m = true)
    (ha : lo ≤ a) : memWfFrom d lo (memCons d a v m) = true := by
  unfold memCons
  split
  · exact memWfFrom_mono h (by omega)
  · rename_i hv
    rw [memWfFrom_cons]
    exact ⟨ha, hv, h⟩

/-- What a cell put in front reads as. -/
theorem memRead_memCons {d : Option Byte} {a : Nat} {v : Byte} {m : Memory} (h : memWfFrom d (a + 1) m = true) (b : Nat) :
    memRead d (memCons d a v m) b = if a = b then some v else memRead d m b := by
  unfold memCons
  split
  · rename_i hv
    split
    · rename_i hab
      rw [memRead_below h (by omega), hv]
    · rfl
  · rfl

/-- A write keeps the canonical form. -/
theorem memWrite_wfFrom {d : Option Byte} {lo : Nat} {m : Memory} (h : memWfFrom d lo m = true) {a : Nat} (ha : lo ≤ a)
    (v : Byte) : memWfFrom d lo (memWrite d m a v) = true := by
  induction m generalizing lo with
  | nil => exact memCons_wf (m := []) rfl ha
  | cons c m ih =>
    obtain ⟨a', v'⟩ := c
    have h0 := h
    rw [memWfFrom_cons] at h
    unfold memWrite
    split
    · exact memCons_wf (by rw [memWfFrom_cons]; exact ⟨by omega, h.2⟩) ha
    · split
      · rename_i e
        subst e
        exact memCons_wf h.2.2 ha
      · rw [memWfFrom_cons]
        exact ⟨h.1, h.2.1, ih h.2.2 (by omega)⟩

/-- A write is read back, and every other address reads as before. -/
theorem memRead_memWrite {d : Option Byte} {lo : Nat} {m : Memory} (h : memWfFrom d lo m = true) (a : Nat) (v : Byte)
    (b : Nat) : memRead d (memWrite d m a v) b = if a = b then some v else memRead d m b := by
  induction m generalizing lo with
  | nil => exact memRead_memCons rfl b
  | cons c m ih =>
    obtain ⟨a', v'⟩ := c
    rw [memWfFrom_cons] at h
    unfold memWrite
    split
    · exact memRead_memCons (by rw [memWfFrom_cons]; exact ⟨by omega, h.2⟩) b
    · split
      · rename_i e
        subst e
        rw [memRead_memCons h.2.2, memRead_cons]
        split <;> rfl
      · rename_i e
        rw [memRead_cons, memRead_cons, ih h.2.2]
        by_cases hb : a' = b
        · subst hb
          rw [if_pos rfl, if_pos rfl, if_neg (by omega)]
        · rw [if_neg hb, if_neg hb]

/-- OUTMEM has no byte that an unlisted address reads as, so a write there is read back from any list of cells. -/
theorem outRead_write (m : Memory) (a : Nat) (v : Byte) (b : Nat) :
    memRead outDefault (memWrite outDefault m a v) b = if a = b then some v else memRead outDefault m b := by
  induction m with
  | nil => simp [memWrite, memCons, outDefault, memRead]
  | cons c m ih =>
    obtain ⟨a', v'⟩ := c
    unfold memWrite
    split
    · simp [memCons, outDefault, memRead]
    · split
      · rename_i e
        subst e
        simp only [memCons, outDefault, reduceCtorEq, if_false, memRead]
        split <;> rfl
      · rename_i e
        rw [memRead_cons, memRead_cons, ih]
        by_cases hb : a' = b
        · subst hb
          rw [if_pos rfl, if_pos rfl, if_neg (by omega)]
        · rw [if_neg hb, if_neg hb]

/-- The canonical form of a whole memory is kept by a write. -/
theorem memory_write_wf {d : Option Byte} {m : Memory} (h : Memory.wf d m = true) (a : Nat) (v : Byte) :
    Memory.wf d (memWrite d m a v) = true := memWrite_wfFrom h (Nat.zero_le a) v

/-- At reset both memories are canonical. -/
theorem reset_memories_wf :
    Memory.wf srcDefault State.reset.srcmem = true ∧ Memory.wf outDefault State.reset.outmem = true := ⟨rfl, rfl⟩

end Sys2Proof.Machine
end

