-- ==== Sys2Proof/Laws/Operands.lean ====
section
/-! SUPPORT. What the operand helpers compute, as numbers: one lemma per helper, so that facts about bytes and fields are
closed by omega. -/

namespace Sys2Proof.Machine

/-- Concatenation as arithmetic. -/
theorem toNat_append_add {n m : Nat} (a : BitVec n) (b : BitVec m) : (a ++ b).toNat = a.toNat * 2 ^ m + b.toNat := by
  rw [BitVec.toNat_append, ← Nat.shiftLeft_add_eq_or_of_lt b.isLt, Nat.shiftLeft_eq]

theorem le16_toNat (b0 b1 : Byte) : (le16 b0 b1).toNat = b0.toNat + 256 * b1.toNat := by
  rw [le16, toNat_append_add]; omega

theorem le24_toNat (b0 b1 b2 : Byte) : (le24 b0 b1 b2).toNat = b0.toNat + 256 * b1.toNat + 65536 * b2.toNat := by
  rw [le24, toNat_append_add, toNat_append_add]; omega

theorem le32_toNat (b0 b1 b2 b3 : Byte) :
    (le32 b0 b1 b2 b3).toNat = b0.toNat + 256 * b1.toNat + 65536 * b2.toNat + 16777216 * b3.toNat := by
  rw [le32, toNat_append_add, toNat_append_add, toNat_append_add]; omega

theorem wordByte_toNat (w : Word) (i : Nat) : (wordByte w i).toNat = w.toNat / 2 ^ (8 * i) % 256 := by
  rw [wordByte, BitVec.extractLsb'_toNat, Nat.shiftRight_eq_div_pow]

theorem sizeByte_toNat (w : BitVec 24) (i : Nat) : (sizeByte w i).toNat = w.toNat / 2 ^ (8 * i) % 256 := by
  rw [sizeByte, BitVec.extractLsb'_toNat, Nat.shiftRight_eq_div_pow]

theorem hdrType_toNat (b : Byte) : (hdrType b).toNat = b.toNat / 16 := by
  have := b.isLt
  rw [hdrType, BitVec.extractLsb'_toNat, Nat.shiftRight_eq_div_pow]; omega

theorem hdrLow_toNat (b : Byte) : (hdrLow b).toNat = b.toNat % 16 := by
  rw [hdrLow, BitVec.extractLsb'_toNat, Nat.shiftRight_eq_div_pow]; omega

theorem hdrSize6_toNat (b0 b1 b2 : Byte) :
    (hdrSize6 b0 b1 b2).toNat = b0.toNat % 16 + 16 * b1.toNat + 4096 * b2.toNat := by
  have := b1.isLt
  have := b2.isLt
  rw [hdrSize6, BitVec.toNat_setWidth, toNat_append_add, toNat_append_add, hdrLow_toNat]; omega

theorem refFields_hi4len_len (r0 r1 : Byte) : (refFieldsOf .hi4len r0 r1).1.toNat = r0.toNat / 16 := by
  have := r0.isLt
  rw [refFieldsOf, BitVec.extractLsb'_toNat, Nat.shiftRight_eq_div_pow]; omega

theorem refFields_hi4len_dist (r0 r1 : Byte) :
    (refFieldsOf .hi4len r0 r1).2.toNat = 256 * (r0.toNat % 16) + r1.toNat := by
  have h : (r0.extractLsb' 0 4).toNat = r0.toNat % 16 := by
    rw [BitVec.extractLsb'_toNat, Nat.shiftRight_eq_div_pow]; omega
  show (r0.extractLsb' 0 4 ++ r1).toNat = _
  rw [toNat_append_add, h]; omega

/-- LEN is 3..18 under every layout (R100). -/
theorem lenOf_range (f : BitVec 4) : 3 ≤ lenOf f ∧ lenOf f ≤ 18 := by
  have := f.isLt
  unfold lenOf; omega

/-- DIST is 1..4096 under every layout (R100). -/
theorem distOf_range (f : BitVec 12) : 1 ≤ distOf f ∧ distOf f ≤ 4096 := by
  have := f.isLt
  unfold distOf; omega

/-- Element i of a block given by its elements. -/
theorem blkGet_blkOfFn (f : Nat → Byte) {i : Nat} (h : i < 8) : blkGet (blkOfFn f) i = f i := by
  interval_cases i <;> rfl

/-- Two blocks with the same elements are the same block. -/
theorem blk_ext {a b : Blk} (h : ∀ i, i < 8 → blkGet a i = blkGet b i) : a = b := by
  obtain ⟨a0, a1, a2, a3, a4, a5, a6, a7⟩ := a
  obtain ⟨b0, b1, b2, b3, b4, b5, b6, b7⟩ := b
  have h0 := h 0 (by omega)
  have h1 := h 1 (by omega)
  have h2 := h 2 (by omega)
  have h3 := h 3 (by omega)
  have h4 := h 4 (by omega)
  have h5 := h 5 (by omega)
  have h6 := h 6 (by omega)
  have h7 := h 7 (by omega)
  simp only [blkGet] at h0 h1 h2 h3 h4 h5 h6 h7
  rw [h0, h1, h2, h3, h4, h5, h6, h7]

end Sys2Proof.Machine
end

