-- ==== Sys2Proof/Laws/PerInstr.lean ====
section
/-! SUPPORT. A law per instruction: its encoding has exactly the bytes of the place where it stands. -/

namespace Sys2Proof.Laws.EncodingLength

/-- The encoding of an instruction fills its place (30_encoding.md R102; command frames: log 1). -/
def Statement (i : Instr) : Prop := (encode i).length = siteBytes i.site

theorem reset : Statement .reset := rfl
theorem kinit (seed : Word) (level : Byte) : Statement (.kinit seed level) := rfl
theorem bdec (blk : Blk) : Statement (.bdec blk) := rfl
theorem benc (blk : Blk) : Statement (.benc blk) := rfl
theorem saddr (v : Variant) (ptr : Word) : Statement (.saddr v ptr) := rfl
theorem gu8 : Statement .gu8 := rfl
theorem gu16 : Statement .gu16 := rfl
theorem gu32 : Statement .gu32 := rfl
theorem rhdr : Statement .rhdr := rfl
theorem lzrun (n : BitVec 24) : Statement (.lzrun n) := rfl
theorem lzreg (v : Variant) (ptr : Word) : Statement (.lzreg v ptr) := rfl
theorem hdr (t : BitVec 4) (n : BitVec 24) : Statement (.hdr t n) := rfl
theorem hdrW32 (t x : BitVec 4) (n : BitVec 24) : Statement (.hdrW32 t x n) := rfl
theorem flg (f : Byte) : Statement (.flg f) := rfl
theorem lit (d : Byte) : Statement (.lit d) := rfl
theorem ref (len dist : Nat) : Statement (.ref len dist) := rfl
theorem endRun : Statement .endRun := rfl

end Sys2Proof.Laws.EncodingLength
end

