-- ==== Sys2Proof/Laws/PlainSource.lean ====
section
/-! SUPPORT. A Plain source delivers SRCMEM[SPOS], SRCMEM[SPOS + 1], ... (41_bytesource.md R150, R157, R158(a)): said once
for NextByte, so that facts about GU8, RHDR and runs need not look at the window. -/

namespace Sys2Proof.Machine

/-- What the invariant says of an attached Plain source. -/
structure PlainSource (s : State) : Prop where
  plain : s.variant = .plain
  pos_le : s.pos ≤ 8
  image : s.cache = plainWindow s s.src.toNat
  delivered : 0 < s.pos → spos s ≤ extentOf s

theorem extentOf_le (s : State) : extentOf s ≤ 0x80000 := by
  unfold extentOf extentBytes
  split <;> omega

/-- The stream of a state reads through its parameters and SRCMEM alone. -/
theorem plainWindow_congr {s t : State} (hp : t.params = s.params) (hm : t.srcmem = s.srcmem) (a : Nat) :
    plainWindow t a = plainWindow s a := by
  have he : extentOf t = extentOf s := by rw [extentOf, extentOf, hp]
  have hb : ∀ b, srcByte t b = srcByte s b := fun b => by rw [srcByte, srcByte, hm]
  unfold plainWindow
  rw [he]
  congr 1
  funext i
  rw [hb]

theorem Inv.plainSource {s : State} (h : Inv s) (hs : s.srdy = true) (hv : s.variant = .plain) : PlainSource s where
  plain := hv
  pos_le := h.pos_le
  image := by
    have := h.image hs
    rw [CacheImage, hv] at this
    exact this
  delivered := h.delivered hs hv

/-- A window just filled from a Plain source. -/
theorem plainSource_filled {s : State} (hv : s.variant = .plain) (a : Nat) (ha : a < 2 ^ 32) :
    PlainSource (setWindow a (plainWindow s a) s) := by
  have e : (BitVec.ofNat 32 a).toNat = a := by rw [BitVec.toNat_ofNat]; omega
  refine ⟨hv, Nat.zero_le _, ?_, fun h => absurd h (Nat.lt_irrefl 0)⟩
  show plainWindow s a = plainWindow _ (BitVec.ofNat 32 a).toNat
  rw [e]
  exact (plainWindow_congr rfl rfl a).symm

/-- Below EXTENT the byte at SPOS is delivered, and SPOS advances by exactly 1. -/
theorem PlainSource.next {s : State} (h : PlainSource s) (hx : spos s < extentOf s) :
    ∃ t, nextByte s = .ok (srcByte s (spos s)) t ∧ PlainSource t ∧ spos t = spos s + 1
      ∧ t = { s with src := t.src, pos := t.pos, cache := t.cache }
      ∧ (s.pos < 8 → t.src = s.src ∧ t.cache = s.cache)
      ∧ (s.pos = 8 → t.src = s.src + 8 ∧ t.pos = 1) := by
  have hE := extentOf_le s
  have hsp : spos s = s.src.toNat + s.pos := rfl
  have hdel : ∀ u : State, PlainSource u → u.pos < 8 → spos u < extentOf u →
      deliver u = .ok (srcByte u (spos u)) { u with pos := u.pos + 1 } := by
    intro u hu hp hxu
    rcases deliver_cases u with ⟨_, hc, _⟩ | ⟨_, e⟩
    · omega
    · rw [e, hu.image, plainWindow, blkGet_blkOfFn _ hp,
        if_pos (show u.src.toNat + u.pos < extentOf u from hxu)]
      rfl
  by_cases hp : s.pos < 8
  · refine ⟨{ s with pos := s.pos + 1 }, ?_, ⟨h.plain, ?_, h.image, ?_⟩, rfl, rfl, fun _ => ⟨rfl, rfl⟩, fun h8 => ?_⟩
    · rw [nextByte_of_lt hp, hdel s h hp hx]
    · show s.pos + 1 ≤ 8
      omega
    · intro _
      show s.src.toNat + (s.pos + 1) ≤ extentOf s
      omega
    · omega
  · have h8 : s.pos = 8 := by have := h.pos_le; omega
    have hs8 : s.src.toNat + 8 < 2 ^ 32 := by omega
    have hf : fill (s.src.toNat + 8) s = .ok () (setWindow (s.src.toNat + 8) (plainWindow s (s.src.toNat + 8)) s) := by
      rcases fill_cases (s.src.toNat + 8) s with ⟨hv, _⟩ | ⟨hv, _⟩ | ⟨_, e⟩
      · rw [h.plain] at hv; cases hv
      · rw [h.plain] at hv; cases hv
      · exact e
    have hu := plainSource_filled h.plain (s.src.toNat + 8) hs8
    have esrc : (BitVec.ofNat 32 (s.src.toNat + 8)).toNat = s.src.toNat + 8 := by rw [BitVec.toNat_ofNat]; omega
    have esp : spos (setWindow (s.src.toNat + 8) (plainWindow s (s.src.toNat + 8)) s) = spos s := by
      show (BitVec.ofNat 32 (s.src.toNat + 8)).toNat + 0 = s.src.toNat + s.pos
      omega
    refine ⟨{ setWindow (s.src.toNat + 8) (plainWindow s (s.src.toNat + 8)) s with pos := 1 }, ?_,
      ⟨h.plain, ?_, hu.image, ?_⟩, ?_, rfl, fun hlt => absurd hlt hp, fun _ => ⟨?_, rfl⟩⟩
    · rw [nextByte_of_le (by omega), hf, resBind_ok, hdel _ hu (by show (0 : Nat) < 8; omega) (by rw [esp]; exact hx), esp]
      rfl
    · show (1 : Nat) ≤ 8
      omega
    · intro _
      show (BitVec.ofNat 32 (s.src.toNat + 8)).toNat + 1 ≤ extentOf s
      omega
    · show (BitVec.ofNat 32 (s.src.toNat + 8)).toNat + 1 = s.src.toNat + s.pos + 1
      omega
    · apply BitVec.eq_of_toNat_eq
      show (BitVec.ofNat 32 (s.src.toNat + 8)).toNat = (s.src + 8).toNat
      rw [esrc, BitVec.toNat_add]
      show _ = (s.src.toNat + 8) % 2 ^ 32
      omega

/-- At or beyond EXTENT TruncatedSource is raised and SPOS is the same number as before; only a refill may have moved the
window. -/
theorem PlainSource.truncated {s : State} (h : PlainSource s) (hx : extentOf s ≤ spos s) :
    ∃ t, nextByte s = .raise .truncatedSource t ∧ PlainSource t ∧ spos t = spos s
      ∧ t = { s with src := t.src, pos := t.pos, cache := t.cache }
      ∧ (s.pos < 8 → t = s) ∧ (s.pos = 8 → t.src = s.src + 8 ∧ t.pos = 0) := by
  have hE := extentOf_le s
  have hsp : spos s = s.src.toNat + s.pos := rfl
  have hdel : ∀ u : State, u.variant = .plain → extentOf u ≤ spos u → deliver u = .raise .truncatedSource u := by
    intro u hv hxu
    rcases deliver_cases u with ⟨_, _, e⟩ | ⟨hc, _⟩
    · exact e
    · have := hc hv; omega
  by_cases hp : s.pos < 8
  · exact ⟨s, by rw [nextByte_of_lt hp, hdel s h.plain hx], h, rfl, rfl, fun _ => rfl, fun h8 => by omega⟩
  · have h8 : s.pos = 8 := by have := h.pos_le; omega
    have hs8 : s.src.toNat + 8 < 2 ^ 32 := by have := h.delivered (by omega); omega
    have hf : fill (s.src.toNat + 8) s = .ok () (setWindow (s.src.toNat + 8) (plainWindow s (s.src.toNat + 8)) s) := by
      rcases fill_cases (s.src.toNat + 8) s with ⟨hv, _⟩ | ⟨hv, _⟩ | ⟨_, e⟩
      · rw [h.plain] at hv; cases hv
      · rw [h.plain] at hv; cases hv
      · exact e
    have esrc : (BitVec.ofNat 32 (s.src.toNat + 8)).toNat = s.src.toNat + 8 := by rw [BitVec.toNat_ofNat]; omega
    have esp : spos (setWindow (s.src.toNat + 8) (plainWindow s (s.src.toNat + 8)) s) = spos s := by
      show (BitVec.ofNat 32 (s.src.toNat + 8)).toNat + 0 = s.src.toNat + s.pos
      omega
    refine ⟨setWindow (s.src.toNat + 8) (plainWindow s (s.src.toNat + 8)) s, ?_, plainSource_filled h.plain _ hs8, esp, rfl,
      fun hlt => absurd hlt hp, fun _ => ⟨?_, rfl⟩⟩
    · rw [nextByte_of_le (by omega), hf, resBind_ok,
        hdel (setWindow (s.src.toNat + 8) (plainWindow s (s.src.toNat + 8)) s) h.plain (by rw [esp]; exact hx)]
    · apply BitVec.eq_of_toNat_eq
      show (BitVec.ofNat 32 (s.src.toNat + 8)).toNat = (s.src + 8).toNat
      rw [esrc, BitVec.toNat_add]
      show _ = (s.src.toNat + 8) % 2 ^ 32
      omega

end Sys2Proof.Machine
end

