-- ==== Sys2Proof/Tests/Slice0.lean ====
section
/-! SUPPORT. The model's own tests: ill-formed terms refused, words written out from the spec's encodings, single steps
with results from 95_test_vectors.md, and for every statement with hypotheses a state that meets them. -/

namespace Sys2Proof.Tests

open Sys2Proof Sys2Proof.Machine Host

/-! ### Helpers -/

/-- Bytes put into SRCMEM by the host, from address a on. -/
def put : Nat → List Byte → State → State
  | _, [], s => s
  | a, b :: bs, s => put (a + 1) bs (hostWriteSrc a b s)

/-- The state after an outcome, or the reset state. -/
def after (o : Outcome State Fault Refusal) : State := (nextState? o).getD State.reset

/-- The reset state with bytes at 0x200. -/
def withRegion (bs : List Byte) : State := put 0x200 bs State.reset

/-- The reset state with bytes at 0x200 and a Plain source attached at p. -/
def plainAt (bs : List Byte) (p : Word) : State := after (exec (.saddr .plain p) (withRegion bs))

/-- The reset state with KRDY = 1, all words of KS zero. -/
def keyed : State := { State.reset with krdy := true }

/-- An attached Encrypted source with nothing delivered. -/
def encryptedAt (p : Word) : State := after (exec (.saddr .encrypted p) keyed)

/-- The response of an outcome. -/
def respOf (o : Outcome State Fault Refusal) : Option Response := (nextState? o).bind State.resp

/-- A response means a next state that gives it. -/
theorem next_of_resp {o : Outcome State Fault Refusal} {r : Response} (h : respOf o = some r) :
    ∃ t, o = .next t ∧ t.resp = some r := by
  cases o with
  | next t => exact ⟨t, rfl, h⟩
  | fault f => cases h
  | refused f => cases h

/-- The decidable part of the invariant, for a state whose source is Plain or detached and whose KS is that of reset. -/
def invCheck (s : State) : Bool :=
  decide (s.pos ≤ 8) && decide (s.fcnt ≤ 8) && decide (s.variant = .plain) && decide (s.cache = plainWindow s s.src.toNat)
    && decide (spos s ≤ extentOf s) && decide (s.opos ≤ s.outSize) && decide (s.outSize < 2 ^ 24)
    && decide (s.outmem.map Prod.fst = List.range s.opos) && Memory.wf srcDefault s.srcmem
    && s.srcmem.all (fun c => decide (c.1 < extentOf s)) && decide (s.len ≤ 18) && decide (s.len = 0 ∨ 3 ≤ s.len)
    && decide (s.dist ≤ 4096) && decide (s.ks.length = Config.np + s.params.ns)
    && decide (s.resp ≠ some (.err .unsupportedCompressionType)) && decide (s.resp ≠ some (.err .backReferenceOutOfRange))
    && decide (s.resp ≠ some (.err .truncatedSource)) && decide (s.activity = .idle ∨ (s.srdy = true ∧ s.err = 0))

/-- A state that passes the check has the invariant. -/
theorem inv_of_check {s : State} (h : invCheck s = true) : Inv s := by
  simp only [invCheck, Bool.and_eq_true, decide_eq_true_eq, List.all_eq_true] at h
  obtain ⟨⟨⟨⟨⟨⟨⟨⟨⟨⟨⟨⟨⟨⟨⟨⟨⟨h1, h2⟩, h3⟩, h4⟩, h5⟩, h6⟩, h7⟩, h8⟩, h9⟩, h10⟩, h11⟩, h12⟩, h13⟩, h14⟩, h15⟩, h16⟩, h17⟩, h18⟩ := h
  exact {
    pos_le := h1
    fcnt_le := h2
    image := fun _ => by rw [CacheImage, h3]; exact h4
    delivered := fun _ _ _ => h5
    keyed := fun _ hv => by rw [h3] at hv; cases hv
    opos_le := h6
    size_lt := h7
    written := h8
    src_wf := h9
    src_below := h10
    ks_words := h14
    len_range := by omega
    dist_range := by omega
    err_resp := fun _ k hk => by cases k <;> contradiction
    running := fun ha => h18.resolve_left ha }

/-- Region LZ2 of 95_test_vectors.md: the source's own example. -/
def lz2 : List Byte := [0x16, 0x00, 0x00, 0x40, 0x41, 0x20, 0x00]

/-- Region LZ10: nine literals need a second flag byte. -/
def lz10 : List Byte := [0x19, 0x00, 0x00, 0x00, 0x31, 0x32, 0x33, 0x34, 0x35, 0x36, 0x37, 0x38, 0x00, 0x39]

/-- Region LZ10 with a Plain source attached after its header. -/
def atTokens : State := plainAt lz10 0x203

/-- A window used up: eight bytes delivered. -/
def usedUp (s : State) : State := { s with pos := 8 }

/-- A run of ten bytes with two bytes, 0x61 0x62, produced. -/
def midRun : State :=
  { plainAt lz2 0x203 with activity := .run false, outSize := 10, opos := 2, outmem := [(0, 0x61), (1, 0x62)] }

/-! ### Ill-formed terms -/

theorem test_size_of_21_bits_refused : (Instr.hdr 1 0x100000).wellFormed = false := by decide
theorem test_length_2_refused : (Instr.ref 2 1).wellFormed = false := by decide
theorem test_length_19_refused : (Instr.ref 19 1).wellFormed = false := by decide
theorem test_distance_0_refused : (Instr.ref 3 0).wellFormed = false := by decide
theorem test_distance_4097_refused : (Instr.ref 3 4097).wellFormed = false := by decide

/-! ### Words written out from 30_encoding.md R92, R94 to R99 and the checks of 95_test_vectors.md -/

theorem test_decode_reset : decode .command [0x00, 0, 0, 0, 0, 0, 0, 0, 0] = .ok .reset := by rfl
theorem test_decode_kinit : decode .command [0x01, 0x4D, 0x41, 0x43, 0x68, 2, 0, 0, 0] = .ok (.kinit 0x6843414D 2) := by rfl
theorem test_decode_bdec : decode .command [0x02, 0, 1, 2, 3, 4, 5, 6, 7] = .ok (.bdec ⟨0, 1, 2, 3, 4, 5, 6, 7⟩) := by rfl
theorem test_decode_benc : decode .command [0x03, 0, 1, 2, 3, 4, 5, 6, 7] = .ok (.benc ⟨0, 1, 2, 3, 4, 5, 6, 7⟩) := by rfl
theorem test_decode_saddr : decode .command [0x10, 1, 0x00, 0x02, 0, 0, 0, 0, 0] = .ok (.saddr .encrypted 0x200) := by rfl
theorem test_decode_gu8 : decode .command [0x11, 0, 0, 0, 0, 0, 0, 0, 0] = .ok .gu8 := by rfl
theorem test_decode_gu16 : decode .command [0x12, 0, 0, 0, 0, 0, 0, 0, 0] = .ok .gu16 := by rfl
theorem test_decode_gu32 : decode .command [0x13, 0, 0, 0, 0, 0, 0, 0, 0] = .ok .gu32 := by rfl
theorem test_decode_rhdr : decode .command [0x20, 0, 0, 0, 0, 0, 0, 0, 0] = .ok .rhdr := by rfl
theorem test_decode_lzrun : decode .command [0x21, 0x56, 0x34, 0x12, 0, 0, 0, 0, 0] = .ok (.lzrun 0x123456) := by rfl
theorem test_decode_lzreg : decode .command [0x22, 0, 0x03, 0x80, 0, 0, 0, 0, 0] = .ok (.lzreg .plain 0x8003) := by rfl
theorem test_decode_hdr : decode (.header .table6) [0x17, 0x12, 0x00] = .ok (.hdr 1 295) := by rfl
theorem test_decode_hdr_high : decode (.header .table6) [0x12, 0x01, 0x01] = .ok (.hdr 1 4114) := by rfl
theorem test_decode_hdr_word32 : decode (.header .word32) [0x1F, 0x06, 0x00, 0x00] = .ok (.hdrW32 1 15 6) := by rfl
theorem test_decode_flg : decode .flag [0x40] = .ok (.flg 0b01000000) := by rfl
theorem test_decode_lit : decode .literal [0x41] = .ok (.lit 0x41) := by rfl
theorem test_decode_ref : decode (.backRef .hi4len) [0x01, 0x23] = .ok (.ref 3 292) := by rfl
theorem test_decode_ref_long : decode (.backRef .hi4len) [0xF0, 0x0B] = .ok (.ref 18 12) := by rfl
theorem test_decode_end : decode .finished [] = .ok .endRun := by rfl
theorem test_decode_reserved : decode .command [0x04, 0, 0, 0, 0, 0, 0, 0, 0] = .error (.reservedCode 0x04) := by rfl
theorem test_decode_short_frame : decode .command [0x11] = .error (.wrongLength 1) := by rfl
theorem test_table_word_ref : decodeTableWord 16 0x2301 = some (.ref 3 292) := by rfl
theorem test_table_word_gu32 : decodeTableWord 8 0x13 = some .gu32 := by rfl

/-! ### Single steps, with the results of 95_test_vectors.md -/

/-- CT2: RESET responds Ok. -/
theorem test_reset_step : respOf (step ((usedUp atTokens).withFetchWord 8 0x00)) = some (.ok .none) := by decide

/-- The toy table T of 95_test_vectors.md section 2.1. -/
def toyTable : List Word := (List.range 1042).map fun i => 0x9E3779B9 * BitVec.ofNat 32 (i + 1)

/-- Section 2.2: F(01020304) over T. -/
theorem test_refF : refF toyTable 0x01020304 = 0x6754EAE6 := by decide +kernel

/-- Section 2.2: the first round of the trace. -/
theorem test_refRound :
    refRound toyTable 0 ⟨0x07060504, 0x03020100, 0, 0⟩ = ⟨0x7B09B677, 0x99317CBD, 0x99317CBD, 0x780BB777⟩ := by decide +kernel

/-- Section 2.3, trace of the first `ks_mix`: the key code after its two encryptions, and `bswap32` of its first word. -/
theorem test_refKeyCode :
    refKeyCode toyTable (refAuxInit 0x6843414D) = [0xEC7CE98A, 0x88C82DA2, 0xDB5D4142]
      ∧ bswap32 0xEC7CE98A = 0x8AE97CEC := by decide +kernel

/-- KINIT with level 0 sets KRDY and responds Ok (section 2.4 row 4). -/
theorem test_kinit_step :
    (after (exec (.kinit 0 0) State.reset)).krdy = true ∧ respOf (exec (.kinit 0 0) State.reset) = some (.ok .none) := by
  decide

/-- Section 2.4 rows 1 and 7: refused without a key. -/
theorem test_bdec_refused : respOf (exec (.bdec ⟨0, 1, 2, 3, 4, 5, 6, 7⟩) State.reset) = some .refused := by decide
theorem test_benc_refused : respOf (exec (.benc ⟨0, 1, 2, 3, 4, 5, 6, 7⟩) State.reset) = some .refused := by decide

/-- Section 2.4 row 5 and section 2.2: BENC of 00 .. 07 under KS = T. -/
theorem test_benc_step :
    respOf (exec (.benc ⟨0, 1, 2, 3, 4, 5, 6, 7⟩) { keyed with ks := toyTable })
      = some (.ok (.block ⟨0x8D, 0x97, 0x3B, 0x4E, 0x00, 0x0F, 0x0A, 0x2B⟩)) := by decide +kernel

/-- Section 2.4 row 6: BDEC takes it back. -/
theorem test_bdec_step :
    respOf (exec (.bdec ⟨0x8D, 0x97, 0x3B, 0x4E, 0x00, 0x0F, 0x0A, 0x2B⟩) { keyed with ks := toyTable })
      = some (.ok (.block ⟨0, 1, 2, 3, 4, 5, 6, 7⟩)) := by decide +kernel

/-- BS3: the window at the end of SRCMEM is filled up with zeros. -/
theorem test_saddr_step :
    (after (exec (.saddr .plain 0x1FFFE) (put 0x1FFFE [0xFE, 0xFF] State.reset))).cache
      = ⟨0xFE, 0xFF, 0, 0, 0, 0, 0, 0⟩ := by decide

/-- BS6: a window that overhangs the end raises and leaves SRDY = 0. -/
theorem test_saddr_overhang :
    respOf (exec (.saddr .encrypted 0x1FFF9) keyed) = some (.err .truncatedSource)
      ∧ (after (exec (.saddr .encrypted 0x1FFF9) keyed)).srdy = false := by decide

/-- BS2: the ninth byte comes from a lazy refill. -/
theorem test_gu8_refills :
    respOf (exec .gu8 (usedUp (plainAt lz10 0x200))) = some (.ok (.u8 0x35))
      ∧ (after (exec .gu8 (usedUp (plainAt lz10 0x200)))).src = 0x208 := by decide

/-- BS4: no address wraps. -/
theorem test_gu8_beyond_end :
    respOf (exec .gu8 (after (exec (.saddr .plain 0xFFFFFFFF) State.reset))) = some (.err .truncatedSource) := by decide

/-- BS1: little-endian, first byte read in the low half. -/
theorem test_gu16_step : respOf (exec .gu16 (plainAt lz10 0x204)) = some (.ok (.u16 0x3231)) := by decide

/-- BS5: a read that fails part-way keeps the bytes it consumed. -/
theorem test_gu16_partial :
    respOf (exec .gu16 (plainAt [] 0x1FFFF)) = some (.err .truncatedSource)
      ∧ (after (exec .gu16 (plainAt [] 0x1FFFF))).pos = 1 := by decide

/-- P5: a data word read before the header. -/
theorem test_gu32_step :
    respOf (exec .gu32 (plainAt [0x78, 0x56, 0x34, 0x12] 0x200)) = some (.ok (.u32 0x12345678)) := by decide

/-- LZ12: an unsupported type is raised after the size is latched. -/
theorem test_rhdr_unsupported :
    respOf (exec .rhdr (plainAt [0x26, 0x00, 0x00] 0x200)) = some (.err .unsupportedCompressionType)
      ∧ (after (exec .rhdr (plainAt [0x26, 0x00, 0x00] 0x200))).dsize = 6 := by decide

/-- P4 step 2: RHDR responds Ok(DSIZE). -/
theorem test_rhdr_step : respOf (exec .rhdr (plainAt lz2 0x200)) = some (.ok (.size 6)) := by decide

/-- LZ16: a run of three literals leaves five flags. -/
theorem test_lzrun_step :
    (after (exec (.lzrun 3) (plainAt [0x00, 0x61, 0x62, 0x63] 0x200))).fcnt = 5
      ∧ (after (exec (.lzrun 3) (plainAt [0x00, 0x61, 0x62, 0x63] 0x200))).outmem = [(0, 0x61), (1, 0x62), (2, 0x63)] := by
  decide

/-- LZ2: the source's example. -/
theorem test_lzreg_step :
    respOf (exec (.lzreg .plain 0x200) (withRegion lz2)) = some (.ok (.size 6))
      ∧ (after (exec (.lzreg .plain 0x200) (withRegion lz2))).outmem
        = [(0, 0x41), (1, 0x41), (2, 0x41), (3, 0x41), (4, 0x41), (5, 0x41)] := by decide

/-- LZ4: a first token REF is out of range; both its bytes were fetched. -/
theorem test_lzreg_bad_reference :
    respOf (exec (.lzreg .plain 0x200) (withRegion [0x14, 0x00, 0x00, 0x80, 0x00, 0x00]))
        = some (.err .backReferenceOutOfRange)
      ∧ spos (after (exec (.lzreg .plain 0x200) (withRegion [0x14, 0x00, 0x00, 0x80, 0x00, 0x00]))) = 0x206 := by decide

/-- R184: the flag byte of LZ2, then its first flag is 0. -/
theorem test_flg_step :
    (after (exec (.flg 0x40) midRun)).fcnt = 8 ∧ nextFlag (after (exec (.flg 0x40) midRun)) = false
      ∧ nextFlag (useFlag (after (exec (.flg 0x40) midRun))) = true := by decide

/-- R185. -/
theorem test_lit_step : outRead (after (exec (.lit 0x63) midRun)) 2 = some 0x63 := by decide

/-- LZ7 (distance 2 here): an overlapping copy repeats what it writes. -/
theorem test_ref_overlaps :
    (after (exec (.ref 5 2) midRun)).outmem
      = [(0, 0x61), (1, 0x62), (2, 0x61), (3, 0x62), (4, 0x61), (5, 0x62), (6, 0x61)] := by decide

/-- LZ8: the copy is cut at the declared size. -/
theorem test_ref_cut : (after (exec (.ref 18 1) midRun)).opos = 10 := by decide

/-- R182: HDR latches before the type is tested. -/
theorem test_hdr_step : (after (exec (.hdr 2 6) midRun)).ctype = 2 ∧ (after (exec (.hdr 2 6) midRun)).err = 1 := by decide

/-- R95, LZ13: the low nibble is ignored. -/
theorem test_hdrW32_step :
    exec (.hdrW32 1 0xF 6) { plainAt lz2 0x204 with activity := .header false }
      = exec (.hdrW32 1 0 6) { plainAt lz2 0x204 with activity := .header false } := by rfl

/-- R188. -/
theorem test_end_step : respOf (exec .endRun midRun) = some (.ok .none) := by decide

/-! ### Every statement with hypotheses has a state and operands that meet them -/

/-- A source attached inside LZ10, two bytes before the end of SRCMEM, and one with a used-up window. -/
theorem atTokens_inv : Inv atTokens := inv_of_check (by decide +kernel)
theorem atTokens_ready : Ready atTokens := by unfold Ready; decide
theorem usedUp_inv : Inv (usedUp atTokens) := inv_of_check (by decide +kernel)
theorem usedUp_ready : Ready (usedUp atTokens) := by unfold Ready; decide
theorem midRun_inv : Inv midRun := inv_of_check (by decide +kernel)

/-- DecodeEncodeRoundTrip: the bounds of every checked operand. -/
theorem witness_DecodeEncodeRoundTrip :
    (Instr.ref 3 1).wellFormed = true ∧ (Instr.ref 18 4096).wellFormed = true ∧ (Instr.hdr 15 0xFFFFF).wellFormed = true
      ∧ (Instr.gu8).wellFormed = true := by decide

theorem witness_EncodeDecodeStream :
    Site.backRef .hi4len ≠ .command ∧ Site.backRef .hi4len ≠ .backRef .other
      ∧ decode (.backRef .hi4len) [0xFF, 0xFF] = .ok (.ref 18 4096)
      ∧ decode (.header .table6) [0xFF, 0xFF, 0xFF] = .ok (.hdr 15 0xFFFFF) := ⟨by decide, by decide, rfl, rfl⟩

/-- ReservedCodesRefused, and the last clause of RefusalTable: a code next to the table's last, and BENC's where it is absent. -/
theorem witness_ReservedCodesRefused :
    let c : Byte := 0x23
    let ops : List Byte := List.replicate 8 0
    let s : State := { State.reset with cmdq := c :: (ops ++ [0x11]) }
    s.activity = .idle ∧ ops.length = 8 ∧ s.cmdq = c :: (ops ++ [0x11])
      ∧ c.toNat ∉ [0x00, 0x01, 0x02, 0x03, 0x10, 0x11, 0x12, 0x13, 0x20, 0x21, 0x22] := by decide

theorem witness_ReservedCodesRefused_benc :
    let ops : List Byte := List.replicate 8 0
    let s : State := { State.reset with cmdq := 0x03 :: ops, params := { Config.params with hasBenc := false } }
    s.activity = .idle ∧ ops.length = 8 ∧ s.cmdq = 0x03 :: (ops ++ []) ∧ s.params.hasBenc = false := by decide

/-- RefusalTable: no key, BENC absent, no source. -/
theorem witness_RefusalTable :
    State.reset.krdy = false ∧ State.reset.srdy = false
      ∧ { keyed with params := { Config.params with hasBenc := false } }.params.hasBenc = false := by decide

theorem witness_StepRunsCommand :
    let s : State := { State.reset with cmdq := encode (.lzrun 5) ++ [0x11] }
    s.activity = .idle ∧ (Instr.lzrun 5).wellFormed = true ∧ (Instr.lzrun 5).site = .command := by decide

/-- StepRunsElement: a flag byte fetched, and a fetch at the end of SRCMEM that raises. -/
theorem witness_StepRunsElement :
    let s : State := { atTokens with activity := .run false, outSize := 9 }
    s.activity ≠ .idle ∧ nextSite s = .flag
      ∧ ∃ s1, fetchBytes (siteBytes (nextSite s)) (beforeFetch s) = .ok [0x00] s1 := ⟨by decide, by decide, _, rfl⟩

theorem witness_StepRunsElement_raise :
    let s : State := { plainAt [] 0x20000 with activity := .run false, outSize := 9 }
    s.activity ≠ .idle ∧ ∃ k s1, fetchBytes (siteBytes (nextSite s)) (beforeFetch s) = .raise k s1 :=
  ⟨by decide, .truncatedSource, _, rfl⟩

/-- StepIdlesWithoutCommand: an empty queue, and one byte short of a frame. -/
theorem witness_StepIdlesWithoutCommand :
    State.reset.activity = .idle ∧ State.reset.cmdq.length < frameBytes
      ∧ { State.reset with cmdq := List.replicate 8 0x11 }.cmdq.length < frameBytes := by decide

/-- LzrunIsItsElements and EmptyRun: a ready source, at a boundary of its window too. -/
theorem witness_LzrunIsItsElements :
    atTokens.srdy = true ∧ atTokens.err = 0 ∧ (usedUp atTokens).srdy = true ∧ (usedUp atTokens).err = 0 := by decide

theorem witness_EmptyRun : Ready atTokens ∧ Ready (usedUp atTokens) := ⟨atTokens_ready, usedUp_ready⟩

theorem witness_CommandRunsToCompletion :
    ∃ s t : State, s.activity = .idle ∧ step s = .next t ∧ t.resp = some (.ok (.u8 0x00)) :=
  have ⟨t, h, r⟩ := next_of_resp (o := step { atTokens with cmdq := encode .gu8 }) (r := .ok (.u8 0x00)) (by decide)
  ⟨_, t, by decide, h, r⟩

/-- KinitKeySchedule, SaddrForms. -/
theorem witness_idle : State.reset.activity = .idle := rfl

theorem witness_KinitForgetsEarlierState :
    ∃ s s' : State, s.params = s'.params ∧ s.keyrom = s'.keyrom ∧ s.krdy = false ∧ s'.krdy = true :=
  ⟨State.reset, keyed, rfl, rfl, rfl, rfl⟩

/-- BdecResult, BencResult, EncryptThenDecrypt, RefCipherIgnoresAcc. -/
theorem witness_BencResult :
    keyed.activity = .idle ∧ keyed.params.hasBenc = true ∧ keyed.krdy = true ∧ keyed.params.ciph = .refK1 := by decide

theorem witness_RefCipherIgnoresAcc :
    keyed.params.ciph = .refK1 ∧ ∃ t, exec (.bdec ⟨0, 0, 0, 0, 0, 0, 0, 0⟩) keyed = .next t := ⟨rfl, _, rfl⟩

/-- OnlyKinitWritesKey, LaunchNeverChanges. -/
theorem witness_OnlyKinitWritesKey :
    (∃ t, exec .gu8 atTokens = .next t) ∧ (∀ seed level, Instr.gu8 ≠ .kinit seed level) ∧ Instr.gu8 ≠ .reset :=
  ⟨(next_of_resp (o := exec .gu8 atTokens) (r := .ok (.u8 0x00)) (by decide)).imp fun _ h => h.1,
    fun _ _ h => (by cases h), by decide⟩

/-- PlainLeavesCipher: both its clauses. -/
theorem witness_PlainLeavesCipher :
    (∃ t, exec (.saddr .plain 0xFFFFFFFF) State.reset = .next t) ∧ atTokens.variant = .plain
      ∧ ∃ t, exec .gu8 atTokens = .next t :=
  ⟨⟨_, rfl⟩, by decide, witness_OnlyKinitWritesKey.1⟩

/-- SaddrForms: the last window inside SRCMEM, the first that overhangs it, and no key. -/
theorem witness_SaddrForms :
    keyed.activity = .idle ∧ keyed.krdy = true ∧ (0x1FFF8 : Word).toNat + 8 ≤ extentOf keyed
      ∧ extentOf keyed < (0x1FFF9 : Word).toNat + 8 ∧ State.reset.krdy = false := by decide

/-- EncryptedWindowDecrypts: eight bytes of SRCMEM that are an encryption under the keys of reset. -/
theorem witness_EncryptedWindowDecrypts :
    let e := ((ciphOf keyed.params).blkEnc keyed.ks keyed.acc ⟨1, 2, 3, 4, 5, 6, 7, 8⟩).1
    let s := put 0x1FFF8 (blkBytes e) keyed
    s.krdy = true ∧ (0x1FFF8 : Word).toNat + 8 ≤ extentOf s
      ∧ ∀ i, i < 8 → srcByte s ((0x1FFF8 : Word).toNat + i)
          = blkGet ((ciphOf s.params).blkEnc s.ks s.acc ⟨1, 2, 3, 4, 5, 6, 7, 8⟩).1 i := by decide +kernel

/-- PlainByteDelivered: inside a window, after a used-up one, and the last byte of SRCMEM. -/
theorem witness_PlainByteDelivered :
    Inv atTokens ∧ Ready atTokens ∧ atTokens.variant = .plain ∧ spos atTokens < extentOf atTokens ∧ atTokens.pos < 8 :=
  ⟨atTokens_inv, atTokens_ready, by decide, by decide, by decide⟩

theorem witness_PlainByteDelivered_refill :
    Inv (usedUp atTokens) ∧ Ready (usedUp atTokens) ∧ (usedUp atTokens).variant = .plain
      ∧ spos (usedUp atTokens) < extentOf (usedUp atTokens) ∧ (usedUp atTokens).pos = 8 :=
  ⟨usedUp_inv, usedUp_ready, by decide, by decide, rfl⟩

theorem witness_PlainByteDelivered_last :
    Inv (plainAt lz2 0x1FFFF) ∧ Ready (plainAt lz2 0x1FFFF) ∧ (plainAt lz2 0x1FFFF).variant = .plain
      ∧ spos (plainAt lz2 0x1FFFF) + 1 = extentOf (plainAt lz2 0x1FFFF) :=
  ⟨inv_of_check (by decide +kernel), by unfold Ready; decide, by decide, by decide⟩

/-- PlainByteTruncated: exactly at EXTENT, inside a window and after a used-up one. -/
theorem witness_PlainByteTruncated :
    Inv (plainAt [] 0x20000) ∧ Ready (plainAt [] 0x20000) ∧ (plainAt [] 0x20000).variant = .plain
      ∧ spos (plainAt [] 0x20000) = extentOf (plainAt [] 0x20000) ∧ (plainAt [] 0x20000).pos < 8 :=
  ⟨inv_of_check (by decide +kernel), by unfold Ready; decide, by decide, by decide, by decide⟩

theorem witness_PlainByteTruncated_refill :
    Inv (usedUp (plainAt [] 0x1FFF8)) ∧ Ready (usedUp (plainAt [] 0x1FFF8)) ∧ (plainAt [] 0x1FFF8).variant = .plain
      ∧ extentOf (usedUp (plainAt [] 0x1FFF8)) ≤ spos (usedUp (plainAt [] 0x1FFF8))
      ∧ (usedUp (plainAt [] 0x1FFF8)).pos = 8 :=
  ⟨inv_of_check (by decide +kernel), by unfold Ready; decide, by decide, by decide, rfl⟩

/-- EncryptedByteForms: in a window; the last refill inside SRCMEM; the first that overhangs it. -/
theorem witness_EncryptedByteForms :
    Ready (encryptedAt 0x1FFF0) ∧ (encryptedAt 0x1FFF0).variant = .encrypted ∧ (encryptedAt 0x1FFF0).pos < 8
      ∧ Ready (usedUp (encryptedAt 0x1FFF0)) ∧ (usedUp (encryptedAt 0x1FFF0)).pos = 8
      ∧ (usedUp (encryptedAt 0x1FFF0)).src.toNat + 16 ≤ extentOf (usedUp (encryptedAt 0x1FFF0))
      ∧ Ready (usedUp (encryptedAt 0x1FFF1))
      ∧ extentOf (usedUp (encryptedAt 0x1FFF1)) < (usedUp (encryptedAt 0x1FFF1)).src.toNat + 16 := by
  unfold Ready; decide +kernel

/-- PlainWideReadsDelivered: the last two and the last four bytes of SRCMEM. -/
theorem witness_PlainWideReadsDelivered_two :
    Inv (plainAt [] 0x1FFFE) ∧ Ready (plainAt [] 0x1FFFE) ∧ (plainAt [] 0x1FFFE).variant = .plain
      ∧ spos (plainAt [] 0x1FFFE) + 2 ≤ extentOf (plainAt [] 0x1FFFE) :=
  ⟨inv_of_check (by decide +kernel), by unfold Ready; decide, by decide, by decide⟩

theorem witness_PlainWideReadsDelivered_four :
    Inv (plainAt [] 0x1FFFC) ∧ Ready (plainAt [] 0x1FFFC) ∧ (plainAt [] 0x1FFFC).variant = .plain
      ∧ spos (plainAt [] 0x1FFFC) + 4 ≤ extentOf (plainAt [] 0x1FFFC) :=
  ⟨inv_of_check (by decide +kernel), by unfold Ready; decide, by decide, by decide⟩

/-- WiderReadsAreByteReads: two bytes; an error in the first; an error in the second; and the same for halves. -/
theorem witness_WiderReadsAreByteReads :
    respOf (exec .gu8 atTokens) = some (.ok (.u8 0x00))
      ∧ respOf (exec .gu8 (after (exec .gu8 atTokens))) = some (.ok (.u8 0x31))
      ∧ respOf (exec .gu8 (plainAt [] 0x20000)) = some (.err .truncatedSource)
      ∧ respOf (exec .gu8 (plainAt [] 0x1FFFF)) = some (.ok (.u8 0))
      ∧ respOf (exec .gu8 (after (exec .gu8 (plainAt [] 0x1FFFF)))) = some (.err .truncatedSource) := by decide

theorem witness_WiderReadsAreByteReads_halves :
    respOf (exec .gu16 atTokens) = some (.ok (.u16 0x3100))
      ∧ respOf (exec .gu16 (after (exec .gu16 atTokens))) = some (.ok (.u16 0x3332))
      ∧ respOf (exec .gu16 (plainAt [] 0x1FFFF)) = some (.err .truncatedSource)
      ∧ respOf (exec .gu16 (plainAt [] 0x1FFFE)) = some (.ok (.u16 0))
      ∧ respOf (exec .gu16 (after (exec .gu16 (plainAt [] 0x1FFFE)))) = some (.err .truncatedSource) := by decide

/-- SameBoundariesBothVariants: a Plain and an Encrypted source at one position, at a refill. -/
theorem witness_SameBoundariesBothVariants :
    (usedUp (plainAt [] 0x200)).src = (usedUp (encryptedAt 0x200)).src
      ∧ (usedUp (plainAt [] 0x200)).pos = (usedUp (encryptedAt 0x200)).pos
      ∧ (respOf (exec .gu8 (usedUp (plainAt [] 0x200)))) = some (.ok (.u8 0))
      ∧ ∃ v, respOf (exec .gu8 (usedUp (encryptedAt 0x200))) = some (.ok v) :=
  ⟨by decide +kernel, by decide +kernel, by decide +kernel, _, rfl⟩

/-- BeyondExtentNeverRead: two memories that differ exactly at EXTENT. -/
theorem witness_BeyondExtentNeverRead :
    (∀ a, a < extentOf State.reset →
      memRead srcDefault [(0x20000, 5)] a = memRead srcDefault State.reset.srcmem a)
    ∧ memRead srcDefault [(0x20000, 5)] 0x20000 ≠ memRead srcDefault State.reset.srcmem 0x20000
    ∧ ∃ t, exec (.saddr .plain 0x1FFFF) State.reset = .next t := by
  refine ⟨fun a ha => ?_, by decide, _, rfl⟩
  have h : a < 0x20000 := ha
  rw [memRead_cons, if_neg (by omega)]
  rfl

/-- HostWriteSeenAtNextFill: a write into the window in CACHE, which SADDR fills again in both variants. -/
theorem witness_HostWriteSeenAtNextFill :
    0x203 < extentOf atTokens ∧ Memory.wf srcDefault atTokens.srcmem = true ∧ Ready atTokens ∧ atTokens.pos < 8
      ∧ (∃ t, exec .gu8 atTokens = .next t) ∧ 0x203 = (0x200 : Word).toNat + 3
      ∧ 0x1FFFF < extentOf keyed ∧ Memory.wf srcDefault keyed.srcmem = true ∧ keyed.krdy = true
      ∧ 0x1FFFF = (0x1FFF8 : Word).toNat + 7 ∧ (0x1FFF8 : Word).toNat + 8 ≤ extentOf keyed :=
  ⟨by decide, by decide, atTokens_ready, by decide, witness_OnlyKinitWritesKey.1, by decide, by decide, by decide, rfl,
    by decide, by decide⟩

/-- HostWriteSeenAtNextFill: a used-up window, the write to the first and to the last byte of the next one. -/
theorem witness_HostWriteSeenAtNextFill_refill :
    let p := usedUp (plainAt [] 0x1FFF0)
    let e := usedUp (encryptedAt 0x1FFF0)
    Ready p ∧ p.pos = 8 ∧ p.variant = .plain ∧ 0x1FFF8 = p.src.toNat + 8 + 0 ∧ 0x1FFFF = p.src.toNat + 8 + 7
      ∧ 0x1FFFF < extentOf p ∧ Memory.wf srcDefault p.srcmem = true
      ∧ Ready e ∧ e.pos = 8 ∧ e.variant = .encrypted ∧ 0x1FFFF = e.src.toNat + 8 + 7 ∧ 0x1FFFF < extentOf e
      ∧ e.src.toNat + 16 ≤ extentOf e ∧ Memory.wf srcDefault e.srcmem = true := by
  unfold Ready; decide +kernel

/-- ErrorGating: an attached source with an error held. -/
theorem witness_ErrorGating :
    let s : State := { atTokens with err := errCode .backReferenceOutOfRange }
    s.srdy = true ∧ s.err = errCode .backReferenceOutOfRange ∧ ∃ t, exec (.kinit 0 0) s = .next t :=
  ⟨by decide, by decide, _, rfl⟩

/-- OnlyRestartClearsErr: SADDR does. -/
theorem witness_OnlyRestartClearsErr :
    let s : State := { State.reset with err := errCode .truncatedSource }
    (Instr.saddr .plain 0).site = .command ∧ s.err ≠ 0 ∧ ∃ t, exec (.saddr .plain 0) s = .next t ∧ t.err ≠ s.err :=
  ⟨by decide, by decide, _, rfl, by decide⟩

/-- HeaderMeaning: its three clauses. -/
theorem witness_HeaderMeaning :
    (2 : BitVec 4) ≠ 1 ∧ (0 : BitVec 4) ≠ 1
      ∧ { atTokens with activity := .header false }.activity = .header false
      ∧ { atTokens with activity := .header true }.activity = .header true := by decide

/-- TokenSelection: a flag 0 and a flag 1. -/
theorem witness_TokenSelection :
    let s : State := { midRun with fcnt := 1, flags := 0x80 }
    s.activity = .run false ∧ s.opos < s.outSize ∧ s.fcnt ≠ 0 ∧ 128 ≤ s.flags.toNat := by decide

theorem witness_TokenSelection_literal :
    let s : State := { midRun with fcnt := 8, flags := 0x7F }
    s.activity = .run false ∧ s.opos < s.outSize ∧ s.fcnt ≠ 0 ∧ s.flags.toNat < 128 := by decide

/-- LiteralMeaning: the last byte of OUTMEM. -/
theorem witness_LiteralMeaning : { midRun with outSize := 3 }.opos < { midRun with outSize := 3 }.outSize := by decide

/-- BackReferenceOutOfRange: DIST = OPOS + 1. -/
theorem witness_BackReferenceOutOfRange : midRun.opos < 3 := by decide

/-- BackReferenceCopies: DIST = 1 and DIST = OPOS. -/
theorem witness_BackReferenceCopies : Inv midRun ∧ 1 ≤ 1 ∧ 1 ≤ midRun.opos ∧ 1 ≤ 2 ∧ 2 ≤ midRun.opos :=
  ⟨midRun_inv, by decide, by decide, by decide, by decide⟩

theorem witness_EndMeaning :
    midRun.activity = .run false ∧ { midRun with activity := .run true }.activity = .run true := by decide

/-- A launch with the other header layout. -/
def word32 (s : State) : State := { s with params := { s.params with hdrLayout := .word32 } }

/-- HeaderReadTable6: the header of LZ2, and the last three bytes of SRCMEM. -/
theorem witness_HeaderReadTable6 :
    Inv (plainAt lz2 0x200) ∧ Ready (plainAt lz2 0x200) ∧ (plainAt lz2 0x200).variant = .plain
      ∧ (plainAt lz2 0x200).params.hdrLayout = .table6 ∧ spos (plainAt lz2 0x200) + 3 ≤ extentOf (plainAt lz2 0x200)
      ∧ (∃ s1, fetchBytes 3 (plainAt lz2 0x200) = .ok [0x16, 0x00, 0x00] s1)
      ∧ spos (plainAt [] 0x1FFFD) + 3 = extentOf (plainAt [] 0x1FFFD) :=
  ⟨inv_of_check (by decide +kernel), by unfold Ready; decide, by decide, by decide, by decide, ⟨_, rfl⟩, by decide⟩

/-- HeaderReadTable6: a Plain header of which one byte is missing, with a type nibble that is not 1. -/
theorem witness_HeaderReadTable6_truncated :
    let s := after (exec (.saddr .plain 0x1FFFE) (put 0x1FFFE [0x26, 0x00] State.reset))
    Inv s ∧ Ready s ∧ s.variant = .plain ∧ s.params.hdrLayout = .table6 ∧ spos s + 2 = extentOf s
      ∧ extentOf s < spos s + 3 ∧ ∃ k s1, fetchBytes 3 s = .raise k s1 :=
  ⟨inv_of_check (by decide +kernel), by unfold Ready; decide, by decide, by decide, by decide, by decide,
    .truncatedSource, _, rfl⟩

/-- HeaderReadTable6: an Encrypted header fetched, and one whose refill overhangs EXTENT. -/
theorem witness_HeaderReadTable6_encrypted :
    (Ready (encryptedAt 0x200) ∧ (encryptedAt 0x200).params.hdrLayout = .table6)
      ∧ (∃ b0 b1 b2 s1, fetchBytes 3 (encryptedAt 0x200) = .ok [b0, b1, b2] s1)
      ∧ (Ready (usedUp (encryptedAt 0x1FFF1)) ∧ (usedUp (encryptedAt 0x1FFF1)).params.hdrLayout = .table6)
      ∧ ∃ k s1, fetchBytes 3 (usedUp (encryptedAt 0x1FFF1)) = .raise k s1 :=
  ⟨by unfold Ready; decide +kernel, ⟨_, _, _, _, rfl⟩, by unfold Ready; decide +kernel, .truncatedSource, _, rfl⟩

/-- HeaderReadWord32: the last four bytes of SRCMEM, and one byte fewer. -/
theorem witness_HeaderReadWord32 :
    let s := word32 (plainAt [] 0x1FFFC)
    Inv s ∧ Ready s ∧ s.variant = .plain ∧ s.params.hdrLayout = .word32 ∧ spos s + 4 = extentOf s
      ∧ ∃ s1, fetchBytes 4 s = .ok [0, 0, 0, 0] s1 :=
  ⟨inv_of_check (by decide +kernel), by unfold Ready; decide, by decide, by decide, by decide, _, rfl⟩

theorem witness_HeaderReadWord32_truncated :
    let s := word32 (plainAt [] 0x1FFFD)
    Inv s ∧ Ready s ∧ s.variant = .plain ∧ s.params.hdrLayout = .word32 ∧ extentOf s < spos s + 4
      ∧ ∃ k s1, fetchBytes 4 s = .raise k s1 :=
  ⟨inv_of_check (by decide +kernel), by unfold Ready; decide, by decide, by decide, by decide, .truncatedSource, _, rfl⟩

/-- HeaderReadWord32: an Encrypted header. -/
theorem witness_HeaderReadWord32_encrypted :
    Ready (word32 (encryptedAt 0x200)) ∧ (word32 (encryptedAt 0x200)).params.hdrLayout = .word32
      ∧ ∃ b0 b1 b2 b3 s1, fetchBytes 4 (word32 (encryptedAt 0x200)) = .ok [b0, b1, b2, b3] s1 :=
  ⟨by unfold Ready; decide +kernel, by decide +kernel, _, _, _, _, _, rfl⟩

theorem witness_ExactSize : Inv atTokens ∧ Ready atTokens := ⟨atTokens_inv, atTokens_ready⟩

/-- LiteralStream: the nine literals of LZ10, two flag bytes. -/
theorem witness_LiteralStream :
    Inv atTokens ∧ Ready atTokens ∧ atTokens.variant = .plain
      ∧ spos atTokens + (9 : BitVec 24).toNat + ((9 : BitVec 24).toNat + 7) / 8 ≤ extentOf atTokens
      ∧ ∀ g, 8 * g < (9 : BitVec 24).toNat → srcByte atTokens (spos atTokens + 9 * g) = 0 := by
  refine ⟨atTokens_inv, atTokens_ready, by decide, by decide, fun g hg => ?_⟩
  have h : ∀ g, g < 2 → srcByte atTokens (spos atTokens + 9 * g) = 0 := by decide
  exact h g (by simp only [BitVec.reduceToNat] at hg; omega)

/-- LiteralRegion: LZ10. -/
theorem witness_LiteralRegion :
    let s := withRegion lz10
    let n : BitVec 24 := 9
    s.params.hdrLayout = .table6 ∧ (srcByte s 0x200).toNat / 16 = 1
      ∧ n.toNat = (srcByte s 0x200).toNat % 16 + 2 ^ 4 * (srcByte s 0x201).toNat + 2 ^ 12 * (srcByte s 0x202).toNat
      ∧ 0x200 + 3 + n.toNat + (n.toNat + 7) / 8 ≤ extentOf s
      ∧ ∀ g, 8 * g < n.toNat → srcByte s (0x200 + 3 + 9 * g) = 0 := by
  refine ⟨by decide, by decide, by decide, by decide, fun g hg => ?_⟩
  have h : ∀ g, g < 2 → srcByte (withRegion lz10) (0x200 + 3 + 9 * g) = 0 := by decide
  exact h g (by simp only [BitVec.reduceToNat] at hg; omega)

/-- RunLengthExample: LZ2. -/
theorem witness_RunLengthExample :
    let s := withRegion lz2
    s.params.hdrLayout = .table6 ∧ s.params.refLayout = .hi4len ∧ (0x200 : Word).toNat + 7 ≤ extentOf s
      ∧ ∀ i, i < 7 → srcByte s ((0x200 : Word).toNat + i)
          = ([0x16, 0x00, 0x00, 0x40, 0x41, 0x20, 0x00] : List Byte).getD i 0 := by decide

/-- RegionExactSize: a Plain region, an Encrypted window that overhangs EXTENT by one byte, and the last inside it. -/
theorem witness_RegionExactSize :
    Inv (withRegion lz2) ∧ (withRegion lz2).activity = .idle
      ∧ Inv keyed ∧ keyed.activity = .idle ∧ keyed.krdy = true
      ∧ extentOf keyed < (0x1FFF9 : Word).toNat + 8 ∧ (0x1FFF8 : Word).toNat + 8 ≤ extentOf keyed :=
  ⟨inv_of_check (by decide +kernel), by decide, inv_of_check (by decide +kernel), rfl, rfl, by decide, by decide⟩

/-- RegionExactSize: a header that raises, and one that does not. -/
theorem witness_RegionExactSize_stages :
    (after (exec .rhdr (after (exec (.saddr .plain 0x203) (withRegion lz2))))).err ≠ 0
      ∧ (after (exec .rhdr (after (exec (.saddr .plain 0x200) (withRegion lz2))))).err = 0 := by decide

/-- RegionIsThreeCommands: its last clause runs through SADDR, RHDR and LZRUN; its first two end at an error. -/
theorem witness_RegionIsThreeCommands :
    let s1 := after (exec (.saddr .plain 0x200) (clearOut 0 (withRegion lz2)))
    let s2 := after (exec .rhdr s1)
    respOf (exec (.saddr .plain 0x200) (clearOut 0 (withRegion lz2))) = some (.ok .none) ∧ s1.err = 0
      ∧ respOf (exec .rhdr s1) = some (.ok (.size 6)) ∧ s2.err = 0
      ∧ respOf (exec (.lzrun s2.dsize) s2) = some (.ok .none) := by decide

theorem witness_RegionIsThreeCommands_errors :
    let s1 := after (exec (.saddr .plain 0x203) (clearOut 0 (withRegion lz2)))
    respOf (exec (.saddr .encrypted 0x1FFF9) (clearOut 0 keyed)) = some (.err .truncatedSource)
      ∧ respOf (exec (.saddr .plain 0x203) (clearOut 0 (withRegion lz2))) = some (.ok .none) ∧ s1.err = 0
      ∧ respOf (exec .rhdr s1) = some (.err .unsupportedCompressionType) := by decide

theorem witness_MemoryLaws :
    Memory.wf srcDefault [(3, 7), (4, 1)] = true ∧ Memory.wf outDefault [(0, 0)] = true ∧ Memory.wf srcDefault [] = true := by
  decide

/-- StepKeepsInv and InvNeverStops: inside a run. -/
theorem witness_StepKeepsInv : Inv midRun ∧ ∃ t, step midRun = .next t ∧ t.fcnt = 8 := ⟨midRun_inv, _, rfl, by decide⟩

end Sys2Proof.Tests
end

section
/-! SUPPORT. Little-endian composition and the bytes of a word are inverse to each other (00_scope.md R13). -/

namespace Sys2Proof.Machine

/-- Byte i of a composed word is the byte composed at place i. -/
@[simp] theorem wordByte_le32 (b0 b1 b2 b3 : Byte) {i : Nat} (h : i < 4) :
    wordByte (le32 b0 b1 b2 b3) i = [b0, b1, b2, b3][i] := by
  have h0 := b0.isLt
  have h1 := b1.isLt
  have h2 := b2.isLt
  have h3 := b3.isLt
  apply BitVec.eq_of_toNat_eq
  rw [wordByte_toNat, le32_toNat]
  interval_cases i <;> simp only [List.getElem_cons_zero, List.getElem_cons_succ] <;> omega

/-- `bytes_le32` after `le32`. -/
@[simp] theorem wordBytes_le32 (b0 b1 b2 b3 : Byte) : wordBytes (le32 b0 b1 b2 b3) = [b0, b1, b2, b3] := by
  simp [wordBytes]

/-- `le32` after `bytes_le32`. -/
@[simp] theorem le32_wordByte (w : Word) : le32 (wordByte w 0) (wordByte w 1) (wordByte w 2) (wordByte w 3) = w := by
  have hw := w.isLt
  apply BitVec.eq_of_toNat_eq
  simp only [le32_toNat, wordByte_toNat]
  omega

/-- The highest byte of a word needs no reduction: a word has no bit above 31. -/
theorem wordByte_three_toNat (w : Word) : (wordByte w 3).toNat = w.toNat / 2 ^ 24 := by
  have hw := w.isLt
  rw [wordByte_toNat]
  omega

/-- Settles O26: the numbers are those of the operand laws, and each of the two maps undoes the other; the four bytes of a
word that the last clause asks for are those of `wordByte`. -/
theorem littleEndianComposition : Obligations.LittleEndianComposition := by
  refine ⟨le16_toNat, le32_toNat, wordBytes_le32, fun w => ?_⟩
  have byte0 : (wordByte w 0).toNat = w.toNat % 2 ^ 8 := by rw [wordByte_toNat]; omega
  exact ⟨wordByte w 0, wordByte w 1, wordByte w 2, wordByte w 3, rfl, le32_wordByte w,
    byte0, wordByte_toNat w 1, wordByte_toNat w 2, wordByte_three_toNat w⟩

end Sys2Proof.Machine
end

section
/-! SUPPORT. Postconditions of micro-operations, said once for any predicate on states: what holds where the parts of a sequence
end, delivered or raised alike, holds where the sequence ends, and then after the command that runs it. -/

namespace Sys2Proof.Machine

open Host (Outcome)

/-- The state that a micro-operation reaches, whether it delivers a value or raises (60_exceptions.md R236). -/
def Res.state {α : Type} : Res α → State
  | .ok _ s => s
  | .raise _ s => s

@[simp] theorem Res.state_ok {α : Type} (a : α) (s : State) : (Res.ok a s).state = s := rfl

@[simp] theorem Res.state_raise {α : Type} (k : ErrKind) (s : State) : (Res.raise k s : Res α).state = s := rfl

/-- The rule for one micro-operation after another. -/
theorem resBind_state {α β : Type} {P : State → Prop} {r : Res α} {f : α → State → Res β} (hr : P r.state)
    (hf : ∀ a s, P s → P (f a s).state) : P (resBind r f).state := by
  cases r with
  | ok a s => exact hf a s hr
  | raise k s => exact hr

section
variable {P : State → Prop} {s : State} (hbyte : ∀ u, P u → P (nextByte u).state)
include hbyte

/-- What NextByte keeps, a two-byte read keeps. -/
theorem nextU16_state (hs : P s) : P (nextU16 s).state :=
  resBind_state (hbyte s hs) fun _ u hu => resBind_state (hbyte u hu) fun _ _ hv => hv

/-- What NextByte keeps, a four-byte read keeps. -/
theorem nextU32_state (hs : P s) : P (nextU32 s).state :=
  resBind_state (hbyte s hs) fun _ u hu => resBind_state (hbyte u hu) fun _ v hv =>
    resBind_state (hbyte v hv) fun _ w hw => resBind_state (hbyte w hw) fun _ _ hx => hx

/-- What NextByte keeps, the fetch of a header keeps under both layouts. -/
theorem fetchHeader_state (hs : P s) : P (fetchHeader s).state := by
  unfold fetchHeader
  split
  · exact resBind_state (hbyte s hs) fun _ u hu => resBind_state (hbyte u hu) fun _ v hv =>
      resBind_state (hbyte v hv) fun _ _ hw => hw
  · exact resBind_state (hbyte s hs) fun _ u hu => resBind_state (hbyte u hu) fun _ v hv =>
      resBind_state (hbyte v hv) fun _ w hw => resBind_state (hbyte w hw) fun _ _ hx => hx

/-- What NextByte keeps, the fetch of a token keeps. -/
theorem fetchToken_state (isRef : Bool) (hs : P s) : P (fetchToken isRef s).state := by
  cases isRef with
  | false => exact resBind_state (hbyte s hs) fun _ _ hu => hu
  | true => exact resBind_state (hbyte s hs) fun _ u hu => resBind_state (hbyte u hu) fun _ _ hv => hv

/-- What NextByte and the use of a flag keep, the fetch of an element keeps. -/
theorem fetchElement_state (hflag : ∀ u, P u → P (useFlag u)) (hs : P s) : P (fetchElement s).state := by
  unfold fetchElement
  split
  · exact fetchHeader_state hbyte hs
  · unfold fetchRun
    split
    · exact hs
    · split
      · exact resBind_state (hbyte s hs) fun _ _ hu => hu
      · exact fetchToken_state hbyte _ (hflag s hs)
  · exact hs

end

/-- A command's end, whichever it is, keeps what both ends keep. -/
theorem finish_state {P : State → Prop} {α : Type} {val : α → Value} {r : Res α} {t : State} (hr : P r.state)
    (hok : ∀ v u, P u → P (finishOk v u)) (hraise : ∀ k u, P u → P (raiseError k u)) (h : finish val r = .next t) : P t := by
  rcases finish_next h with ⟨a, u, rfl, rfl⟩ | ⟨k, u, rfl, rfl⟩
  · exact hok _ u hr
  · exact hraise k u hr

/-- The error read from ERR is the one whose code ERR holds (60_exceptions.md R234). -/
theorem errOf_eq_some {e : BitVec 2} {k : ErrKind} : errOf e = some k ↔ e = errCode k := by
  cases k <;> revert e <;> decide

end Sys2Proof.Machine
end

section
/-! SUPPORT. What every command leaves as it is: the launch and the pending commands always, the key unless it is KINIT or
RESET (10_state.md R21, R23, R40). -/

namespace Sys2Proof.Machine

open Host (Outcome)

/-- The launch (its parameters, SRCMEM, KEYROM), the key (KS, KRDY) and the pending commands are the same. -/
def SameKey (s t : State) : Prop :=
  t = { t with
    params := s.params, srcmem := s.srcmem, keyrom := s.keyrom, ks := s.ks, krdy := s.krdy, cmdq := s.cmdq }

/-- Field by field. -/
theorem SameKey.fields {s t : State} (h : SameKey s t) :
    t.params = s.params ∧ t.srcmem = s.srcmem ∧ t.keyrom = s.keyrom ∧ t.cmdq = s.cmdq ∧ t.ks = s.ks ∧ t.krdy = s.krdy := by
  unfold SameKey at h
  rw [h]
  exact ⟨rfl, rfl, rfl, rfl, rfl, rfl⟩

theorem SameKey.refl (s : State) : SameKey s s := rfl

theorem SameKey.trans {s t u : State} (h1 : SameKey s t) (h2 : SameKey t u) : SameKey s u := by
  unfold SameKey at *
  rw [h2, h1]

/-- Stream elements leave the launch, the key and the pending commands. -/
theorem RunMoved.sameKey {s t : State} (h : RunMoved s t) : SameKey s t := by
  unfold RunMoved at h
  rw [h]
  rfl

/-- So does the byte source. -/
theorem nextByte_sameKey (s : State) : SameKey s (nextByte s).state := by
  cases h : nextByte s with
  | ok b t => exact (nextByte_ok h).fetched.runMoved.sameKey
  | raise k t => exact (nextByte_raise h).2.fetched.runMoved.sameKey

/-- So does attaching a source, in each of its three cases. -/
theorem attach_sameKey (v : Variant) (ptr : Word) (s : State) : SameKey s (attach v ptr s).state := by
  rcases attach_cases v ptr s with ⟨_, _, e⟩ | ⟨_, _, e⟩ | ⟨_, e⟩ <;> rw [e] <;> rfl

section
variable {s t : State}

theorem finish_sameKey {α : Type} {val : α → Value} {r : Res α} (hr : SameKey s r.state) (h : finish val r = .next t) :
    SameKey s t :=
  finish_state hr (fun _ _ hu => hu.trans rfl) (fun _ _ hu => hu.trans rfl) h

/-- A gated command leaves what its body leaves. -/
theorem gated_sameKey {body : State → Outcome State Fault Refusal} (h : gated body s = .next t)
    (hbody : body s = .next t → SameKey s t) : SameKey s t := by
  rcases gated_cases body s with ⟨_, e⟩ | ⟨_, k, _, e⟩ | ⟨_, _, e⟩ <;> rw [e] at h
  · cases h; rfl
  · cases h; rfl
  · exact hbody h

theorem completeRun_sameKey (h : completeRun s = .next t) : SameKey s t := (runElements_runMoved h).sameKey

theorem execBdec_sameKey {blk : Blk} (h : execBdec blk s = .next t) : SameKey s t := by
  unfold execBdec at h
  split at h <;> cases h <;> rfl

theorem execBenc_sameKey {blk : Blk} (h : execBenc blk s = .next t) : SameKey s t := by
  unfold execBenc at h
  split at h
  · split at h <;> cases h <;> rfl
  · cases h; rfl

theorem execSaddr_sameKey {v : Variant} {ptr : Word} (h : execSaddr v ptr s = .next t) : SameKey s t := by
  unfold execSaddr at h
  split at h
  · cases h; rfl
  · exact finish_sameKey (attach_sameKey v ptr s) h

theorem execGu8_sameKey (h : execGu8 s = .next t) : SameKey s t :=
  gated_sameKey h (finish_sameKey (nextByte_sameKey s))

theorem execGu16_sameKey (h : execGu16 s = .next t) : SameKey s t :=
  gated_sameKey h (finish_sameKey (nextU16_state (fun u hu => hu.trans (nextByte_sameKey u)) (SameKey.refl s)))

theorem execGu32_sameKey (h : execGu32 s = .next t) : SameKey s t :=
  gated_sameKey h (finish_sameKey (nextU32_state (fun u hu => hu.trans (nextByte_sameKey u)) (SameKey.refl s)))

theorem execRhdr_sameKey (h : execRhdr s = .next t) : SameKey s t :=
  gated_sameKey h fun hb =>
    SameKey.trans (t := { s with activity := .header false }) rfl (elementStep_runMoved hb).sameKey

theorem execLzrun_sameKey {n : BitVec 24} (h : execLzrun n s = .next t) : SameKey s t :=
  gated_sameKey h fun hb => SameKey.trans (t := beginRun false n s) rfl (completeRun_sameKey hb)

theorem parseAndRun_sameKey (h : parseAndRun s = .next t) : SameKey s t := by
  have parsing : SameKey s { s with activity := .header true } := rfl
  unfold parseAndRun at h
  split at h
  · next u hu => exact (parsing.trans (elementStep_runMoved hu).sameKey).trans (completeRun_sameKey h)
  · cases h
  · cases h

theorem execLzreg_sameKey {v : Variant} {ptr : Word} (h : execLzreg v ptr s = .next t) : SameKey s t := by
  have attached := SameKey.trans (s := s) (t := clearOut 0 s) rfl (attach_sameKey v ptr (clearOut 0 s))
  unfold execLzreg at h
  split at h
  · cases h; rfl
  · split at h
    · next k u e =>
      rw [e] at attached
      cases h
      exact attached.trans rfl
    · next u e =>
      rw [e] at attached
      exact attached.trans (parseAndRun_sameKey h)

end

/-- Every instruction but KINIT and RESET leaves the launch, the key and the pending commands. -/
theorem exec_sameKey {i : Instr} {s t : State} (h : exec i s = .next t) (hk : ∀ seed level, i ≠ .kinit seed level)
    (hr : i ≠ .reset) : SameKey s t := by
  cases i with
  | reset => exact absurd rfl hr
  | kinit seed level => exact absurd rfl (hk seed level)
  | bdec blk => exact execBdec_sameKey h
  | benc blk => exact execBenc_sameKey h
  | saddr v ptr => exact execSaddr_sameKey h
  | gu8 => exact execGu8_sameKey h
  | gu16 => exact execGu16_sameKey h
  | gu32 => exact execGu32_sameKey h
  | rhdr => exact execRhdr_sameKey h
  | lzrun n => exact execLzrun_sameKey h
  | lzreg v ptr => exact execLzreg_sameKey h
  | hdr typ size => exact (latchHeader_runMoved h).sameKey
  | hdrW32 typ ign size => exact (latchHeader_runMoved h).sameKey
  | flg f => exact (execElement_runMoved (e := .flg f) h).sameKey
  | lit d => exact (execElement_runMoved (e := .lit d) h).sameKey
  | ref len dist => exact (execRef_runMoved h).sameKey
  | endRun => exact (execElement_runMoved (e := .endRun) h).sameKey

/-- Settles O24: of all instructions that neither compute nor drop the key, none writes KS or KRDY. -/
theorem onlyKinitWritesKey : Obligations.OnlyKinitWritesKey := by
  intro i s t h hk hr
  obtain ⟨_, _, _, _, ks, krdy⟩ := (exec_sameKey h hk hr).fields
  exact ⟨ks, krdy⟩

/-- Settles O57: RESET takes the launch over into the state it builds, KINIT writes the cipher's registers alone, and every
other instruction leaves the launch with the key. -/
theorem launchNeverChanges : Obligations.LaunchNeverChanges := by
  intro i s t h
  by_cases hr : i = .reset
  · subst hr
    cases h
    exact ⟨rfl, rfl, rfl, rfl⟩
  · by_cases hk : ∃ seed level, i = .kinit seed level
    · obtain ⟨seed, level, rfl⟩ := hk
      cases h
      exact ⟨rfl, rfl, rfl, rfl⟩
    · obtain ⟨params, srcmem, keyrom, cmdq, _, _⟩ := (exec_sameKey h (fun seed level e => hk ⟨seed, level, e⟩) hr).fields
      exact ⟨params, srcmem, keyrom, cmdq⟩

end Sys2Proof.Machine
end

section
/-! SUPPORT. The invariant where a command begins and ends: at reset, after a fresh OUTMEM, and after the operations that set
ERR, the response and what the command still has to do (10_state.md R41, R42). -/

namespace Sys2Proof.Machine

/-- The reset values meet the invariant over every canonical SRCMEM that ends at EXTENT. -/
theorem resetWith_inv (params : Params) (srcmem : Memory) (keyrom : List Word) (cmdq : List Byte)
    (hwf : Memory.wf srcDefault srcmem = true) (hbelow : ∀ c ∈ srcmem, c.1 < extentBytes params.extent) :
    Inv (resetWith params srcmem keyrom cmdq) where
  pos_le := Nat.le_refl 8
  fcnt_le := Nat.zero_le 8
  image := fun hs => by cases hs
  delivered := fun hs => by cases hs
  keyed := fun hs => by cases hs
  opos_le := Nat.le_refl 0
  size_lt := Nat.two_pow_pos 24
  written := rfl
  src_wf := hwf
  src_below := hbelow
  ks_words := List.length_replicate
  len_range := .inl rfl
  dist_range := .inl rfl
  err_resp := fun _ _ hk => by cases hk
  running := fun ha => absurd rfl ha

/-- Settles O14: each value is that of `resetWith`, whatever the launch. -/
theorem powerOnState : Obligations.PowerOnState :=
  ⟨rfl, rfl, rfl, rfl, rfl, rfl, rfl, rfl, rfl, rfl, rfl, rfl⟩

/-- Settles O58: at reset SRCMEM lists nothing. -/
theorem invAtReset : Obligations.InvAtReset :=
  resetWith_inv Config.params [] [] [] reset_memories_wf.1 fun _ hc => absurd hc List.not_mem_nil

section
variable {s : State} (h : Inv s)
include h

/-- A command that ends with Ok. -/
theorem finishOk_inv (v : Value) : Inv (finishOk v s) :=
  { h with
    err_resp := fun _ _ hk => by cases hk
    running := fun ha => absurd rfl ha }

/-- A command that ends with an error: the response names the error that ERR holds (R41(d)). -/
theorem raiseError_inv (k : ErrKind) : Inv (raiseError k s) :=
  { h with
    err_resp := fun _ _ hk => by cases hk; rfl
    running := fun ha => absurd rfl ha }

/-- A command that is refused. -/
theorem refuse_inv : Inv (refuse s) := { h with err_resp := fun _ _ hk => by cases hk }

/-- A command stopped by the gate responds with the error held (60_exceptions.md R235). -/
theorem respond_held_inv {k : ErrKind} (hk : errOf s.err = some k) : Inv (respond (.err k) s) :=
  { h with err_resp := fun _ _ hr => by cases hr; exact errOf_eq_some.mp hk }

/-- The invariant does not speak of the pending commands. -/
theorem cmdq_inv (bs : List Byte) : Inv { s with cmdq := bs } := { h with }

/-- A command that begins to fetch stream elements, from an attached source and without an error. -/
theorem busy_inv {a : Activity} (ha : a ≠ .idle) (hs : s.srdy = true) (he : s.err = 0) : Inv { s with activity := a } :=
  { h with
    err_resp := fun hi => absurd hi ha
    running := fun _ => ⟨hs, he⟩ }

/-- A fresh OUTMEM of a size that fits 24 bits (20_memory.md R62). -/
theorem clearOut_inv {n : Nat} (hn : n < 2 ^ 24) : Inv (clearOut n s) :=
  { h with
    opos_le := Nat.zero_le n
    size_lt := hn
    written := rfl }

/-- The beginning of a run (42_lz77.md R183). -/
theorem beginRun_inv (region : Bool) (n : BitVec 24) (hs : s.srdy = true) (he : s.err = 0) : Inv (beginRun region n s) :=
  have run : Inv { clearOut n.toNat s with activity := .run region } :=
    busy_inv (clearOut_inv h n.isLt) (by simp) hs he
  { run with fcnt_le := Nat.zero_le 8 }

end

end Sys2Proof.Machine
end

section
/-! SUPPORT. The byte source keeps the invariant: the window in CACHE is a fill image, and no byte beyond EXTENT is delivered
(10_state.md R41(b), 20_memory.md R66). -/

namespace Sys2Proof.Machine

/-- SRC holds every address of a fill that a 32-bit number can be. -/
theorem src_toNat {a : Nat} (ha : a < 2 ^ 32) : (BitVec.ofNat 32 a).toNat = a := by
  rw [BitVec.toNat_ofNat, Nat.mod_eq_of_lt ha]

/-- A Plain window is a fill image. -/
theorem cacheImage_plain {s : State} {a : Nat} (hv : s.variant = .plain) (hsrc : s.src.toNat = a)
    (hc : s.cache = plainWindow s a) : CacheImage s := by
  rw [CacheImage, hv, hsrc]
  exact hc

/-- A decrypted window inside SRCMEM is a fill image. -/
theorem cacheImage_encrypted {s : State} {a : Nat} {k : Key} {c : Acc} (hv : s.variant = .encrypted) (hsrc : s.src.toNat = a)
    (hx : a + 8 ≤ extentOf s) (hc : s.cache = ((ciphOf s.params).blkDec k c (rawWindow s a)).1) : CacheImage s := by
  rw [CacheImage, hv, hsrc]
  exact ⟨hx, k, c, hc⟩

/-- A window inside SRCMEM begins at a 32-bit address. -/
theorem lt_of_window_inside {s : State} {a : Nat} (hx : a + 8 ≤ extentOf s) : a < 2 ^ 32 := by
  have := extentOf_le s
  omega

/-- A fill keeps the invariant: a fresh window is an image, and nothing of it has been delivered. -/
theorem fill_inv {s : State} (h : Inv s) {a : Nat} (ha : s.variant = .plain → a < 2 ^ 32) : Inv (fill a s).state := by
  rcases fill_cases a s with ⟨_, _, e⟩ | ⟨hv, hx, e⟩ | ⟨hv, e⟩ <;> rw [e]
  · exact h
  · exact { h with
      pos_le := Nat.zero_le 8
      image := fun _ => cacheImage_encrypted hv (src_toNat (lt_of_window_inside hx)) hx rfl
      delivered := fun _ _ hp => absurd hp (Nat.lt_irrefl 0) }
  · exact { h with
      pos_le := Nat.zero_le 8
      image := fun _ => cacheImage_plain hv (src_toNat (ha hv)) rfl
      delivered := fun _ _ hp => absurd hp (Nat.lt_irrefl 0) }

/-- Delivering a byte of the window keeps the invariant: of a Plain source it lay below EXTENT. -/
theorem deliver_inv {s : State} (h : Inv s) (hp : s.pos < 8) : Inv (deliver s).state := by
  rcases deliver_cases s with ⟨_, _, e⟩ | ⟨hx, e⟩ <;> rw [e]
  · exact h
  · exact { h with
      pos_le := hp
      delivered := fun _ hv _ => hx hv }

/-- NextByte keeps the invariant of an attached source: the bytes of a used-up Plain window lay below EXTENT, so the address
of the next window is a 32-bit number. -/
theorem nextByte_inv {s : State} (h : Inv s) (hs : s.srdy = true) : Inv (nextByte s).state := by
  by_cases hp : s.pos < 8
  · rw [nextByte_of_lt hp]
    exact deliver_inv h hp
  · have hp8 : 8 ≤ s.pos := Nat.not_lt.mp hp
    have nextWindow : s.variant = .plain → s.src.toNat + 8 < 2 ^ 32 := fun hv => by
      have below := h.delivered hs hv (by omega)
      have := extentOf_le s
      unfold spos at below
      omega
    have filled := fill_inv h nextWindow
    rw [nextByte_of_le hp8]
    cases e : fill (s.src.toNat + 8) s with
    | ok _ u =>
      rw [e] at filled
      have pos_zero := (fill_ok e).2
      exact deliver_inv filled (by simp [pos_zero])
    | raise k u =>
      rw [e] at filled
      exact filled

/-- The invariant, of a state with an attached source: what reading the stream keeps. -/
def Attached (s : State) : Prop := Inv s ∧ s.srdy = true

theorem nextByte_attached (s : State) (h : Attached s) : Attached (nextByte s).state := by
  obtain ⟨hinv, hs⟩ := h
  refine ⟨nextByte_inv hinv hs, ?_⟩
  cases e : nextByte s with
  | ok b t => rw [Res.state_ok, nextByte_ok e]; exact hs
  | raise k t => rw [Res.state_raise, (nextByte_raise e).2]; exact hs

theorem useFlag_attached (s : State) (h : Attached s) : Attached (useFlag s) := by
  obtain ⟨hinv, hs⟩ := h
  exact ⟨{ hinv with fcnt_le := Nat.le_trans (Nat.sub_le s.fcnt 1) hinv.fcnt_le }, hs⟩

/-- Fetching an element keeps the invariant, delivered or raised. -/
theorem fetchElement_inv {s : State} (h : Inv s) (hs : s.srdy = true) : Inv (fetchElement s).state :=
  have fetched : Attached (fetchElement s).state := fetchElement_state nextByte_attached useFlag_attached ⟨h, hs⟩
  fetched.1

section
variable {s t : State} {v : Variant} {ptr : Word} (h : Inv s) (hk : needsKey v s = false)
include h

/-- A source that could not be attached: the command raises, and the source is left detached (41_bytesource.md R152). -/
theorem attach_raise_inv {k : ErrKind} (e : attach v ptr s = .raise k t) : Inv (raiseError k t) := by
  rcases attach_cases v ptr s with ⟨_, _, e'⟩ | ⟨_, _, e'⟩ | ⟨_, e'⟩ <;> rw [e'] at e <;> cases e
  exact { h with
    image := fun hs => by cases hs
    delivered := fun hs => by cases hs
    keyed := fun hs => by cases hs
    err_resp := fun _ _ hr => by cases hr; rfl
    running := fun ha => absurd rfl ha }

include hk

/-- A source just attached, without an error. Between the clearing of ERR and the end of the command the last response may
still name the old error, so what follows, `a` and `r`, is part of the statement. -/
theorem attach_ok_inv (e : attach v ptr s = .ok () t) (a : Activity) (r : Option Response)
    (hr : a = .idle → ∀ k, r ≠ some (.err k)) : Inv { t with activity := a, resp := r } := by
  rcases attach_cases v ptr s with ⟨_, _, e'⟩ | ⟨rfl, hx, e'⟩ | ⟨_, e'⟩ <;> rw [e'] at e <;> cases e
  · exact { h with
      pos_le := Nat.zero_le 8
      image := fun _ => cacheImage_encrypted rfl (src_toNat (lt_of_window_inside hx)) hx rfl
      delivered := fun _ _ hp => absurd hp (Nat.lt_irrefl 0)
      keyed := fun _ _ => by simpa [needsKey] using hk
      err_resp := fun ha k hrk => absurd hrk (hr ha k)
      running := fun _ => ⟨rfl, rfl⟩ }
  · exact { h with
      pos_le := Nat.zero_le 8
      image := fun _ => cacheImage_plain rfl (src_toNat ptr.isLt) rfl
      delivered := fun _ _ hp => absurd hp (Nat.lt_irrefl 0)
      keyed := fun _ hv => by cases hv
      err_resp := fun ha k hrk => absurd hrk (hr ha k)
      running := fun _ => ⟨rfl, rfl⟩ }

end

end Sys2Proof.Machine
end

section
/-! SUPPORT. Stream elements keep the invariant (42_lz77.md R181 to R188): what is fetched has the ranges of 30_encoding.md
R100, and exactly the bytes of OUTMEM below OPOS are written (10_state.md R41(c)). -/

namespace Sys2Proof.Machine

open Host (Outcome)

/-! ### OUTMEM -/

/-- A write above every listed address goes to the end. -/
theorem memWrite_above {m : Memory} {a : Nat} (v : Byte) (h : ∀ c ∈ m, c.1 < a) :
    memWrite outDefault m a v = m ++ [(a, v)] := by
  induction m with
  | nil => rfl
  | cons c m ih =>
    obtain ⟨a', v'⟩ := c
    have lt : a' < a := h (a', v') List.mem_cons_self
    unfold memWrite
    rw [if_neg (by omega), if_neg (by omega), ih fun c hc => h c (List.mem_cons_of_mem _ hc)]
    rfl

/-- The byte at OPOS written, exactly the bytes below the next OPOS hold a value. -/
theorem memWrite_written {m : Memory} {n : Nat} (v : Byte) (h : m.map Prod.fst = List.range n) :
    (memWrite outDefault m n v).map Prod.fst = List.range (n + 1) := by
  have below : ∀ c ∈ m, c.1 < n := fun c hc =>
    List.mem_range.mp (h ▸ List.mem_map_of_mem hc)
  rw [memWrite_above v below, List.map_append, h, List.range_succ]
  rfl

/-- Writing one output byte below the declared size. -/
theorem outPush_inv {s : State} (h : Inv s) (hlt : s.opos < s.outSize) (v : Byte) : Inv (outPush v s) :=
  { h with
    opos_le := hlt
    written := memWrite_written v h.written }

/-- The copy loop stops at the declared size (R187). -/
theorem copyLoop_inv {k : Nat} {s t : State} (h : Inv s) (e : copyLoop k s = .next t) : Inv t := by
  induction k generalizing s with
  | zero => cases e; exact h
  | succ k ih =>
    unfold copyLoop at e
    split at e
    · cases e; exact h
    · next hlt =>
      split at e
      · exact ih (outPush_inv h (by omega) _) e
      · cases e

/-! ### Elements -/

/-- A header that arrives is well formed: a TABLE6 size has 20 bits. -/
theorem fetchHeader_wellFormed {s t : State} {e : Element} (h : fetchHeader s = .ok e t) : e.toInstr.wellFormed = true := by
  unfold fetchHeader at h
  split at h <;> simp only [resBind_eq_ok] at h
  · obtain ⟨b0, _, _, b1, _, _, b2, _, _, e⟩ := h
    cases e
    have h1 := b1.isLt
    have h2 := b2.isLt
    simp only [decodeHdr6, Element.toInstr, Instr.wellFormed, hdrSize6_toNat, decide_eq_true_eq]
    omega
  · obtain ⟨_, _, _, _, _, _, _, _, _, _, _, _, e⟩ := h
    cases e
    rfl

/-- A back-reference that arrives is well formed under every layout: LEN is 3..18 and DIST is 1..4096. -/
theorem decodeRef_wellFormed (l : RefLayout) (r0 r1 : Byte) : (decodeRef l r0 r1).toInstr.wellFormed = true := by
  obtain ⟨len_ge, len_le⟩ := lenOf_range (refFieldsOf l r0 r1).1
  obtain ⟨dist_ge, dist_le⟩ := distOf_range (refFieldsOf l r0 r1).2
  simp [decodeRef, Element.toInstr, Instr.wellFormed, len_ge, len_le, dist_ge, dist_le]

/-- Every element that arrives is well formed (30_encoding.md R100). -/
theorem fetchElement_wellFormed {s t : State} {e : Element} (h : fetchElement s = .ok e t) :
    e.toInstr.wellFormed = true := by
  unfold fetchElement at h
  split at h
  · exact fetchHeader_wellFormed h
  · rcases fetchRun_ok h with ⟨_, rfl, _⟩ | ⟨_, _, f, rfl, _⟩ | ⟨_, _, _, ⟨_, d, rfl⟩ | ⟨_, r0, r1, rfl⟩⟩
    · rfl
    · rfl
    · rfl
    · exact decodeRef_wellFormed s.params.refLayout r0 r1
  · cases h; rfl

theorem afterHeader_inv {s : State} (h : Inv s) : Inv (afterHeader s) := by
  unfold afterHeader
  split
  · exact finishOk_inv h _
  · next ha =>
    obtain ⟨hs, he⟩ := h.running (by simp [ha])
    exact beginRun_inv h true s.dsize hs he
  · exact h
  · exact h

theorem latchHeader_inv {typ : BitVec 4} {size : BitVec 24} {s t : State} (h : Inv s) (e : latchHeader typ size s = .next t) :
    Inv t := by
  have latched : Inv { s with ctype := typ, dsize := size } := { h with }
  rcases latchHeader_cases typ size s with ⟨_, e'⟩ | ⟨_, e'⟩ <;> rw [e'] at e <;> cases e
  · exact raiseError_inv latched _
  · exact afterHeader_inv latched

theorem execRef_inv {len dist : Nat} {s t : State} (h : Inv s) (hwf : (Instr.ref len dist).wellFormed = true)
    (e : execRef len dist s = .next t) : Inv t := by
  simp only [Instr.wellFormed, Bool.and_eq_true, decide_eq_true_eq] at hwf
  obtain ⟨⟨⟨len_ge, len_le⟩, dist_ge⟩, dist_le⟩ := hwf
  have selected : Inv { s with len := len, dist := dist } :=
    { h with
      len_range := .inr ⟨len_ge, len_le⟩
      dist_range := .inr ⟨dist_ge, dist_le⟩ }
  rcases execRef_cases len dist s with ⟨_, e'⟩ | ⟨_, e'⟩ <;> rw [e'] at e
  · cases e; exact raiseError_inv selected _
  · exact copyLoop_inv selected e

/-- Executing a well-formed element keeps the invariant. -/
theorem execElement_inv {el : Element} {s t : State} (h : Inv s) (hwf : el.toInstr.wellFormed = true)
    (e : execElement el s = .next t) : Inv t := by
  cases el with
  | hdr typ size => exact latchHeader_inv h e
  | hdrW32 typ ign size => exact latchHeader_inv h e
  | flg f =>
    cases e
    exact { h with fcnt_le := Nat.le_refl 8 }
  | lit d =>
    simp only [execElement, execLit] at e
    split at e
    · next hlt => cases e; exact outPush_inv h hlt d
    · cases e
  | ref len dist => exact execRef_inv h hwf e
  | endRun =>
    simp only [execElement, execEndRun] at e
    split at e <;> cases e
    · exact finishOk_inv h _
    · exact finishOk_inv h _
    · exact h
    · exact h

/-- Inside a command a stream element, fetched and executed or failing to arrive, keeps the invariant. -/
theorem elementStep_inv {s t : State} (h : Inv s) (ha : s.activity ≠ .idle) (e : elementStep s = .next t) : Inv t := by
  obtain ⟨hs, _⟩ := h.running ha
  have fetched := fetchElement_inv h hs
  unfold elementStep at e
  split at e
  · next el u hf =>
    rw [hf] at fetched
    exact execElement_inv fetched (fetchElement_wellFormed hf) e
  · next k u hf =>
    rw [hf] at fetched
    cases e
    exact raiseError_inv fetched k

/-- A run keeps the invariant, by the induction over its elements. -/
theorem completeRun_inv {s t : State} (h : Inv s) (e : completeRun s = .next t) : Inv t :=
  runElements_induction Inv (fun _ _ ha hu he => elementStep_inv hu ha he) _ s t h e

end Sys2Proof.Machine
end

section
/-! SUPPORT. Commands keep the invariant, and with the stream elements every step does (10_state.md R41). -/

namespace Sys2Proof.Machine

open Host (Outcome)

/-! ### The key schedule keeps the number of key words (40_cipher.md R121, R123) -/

theorem refXorLoop_length (kc : List Word) (m n i : Nat) (k : Key) : (refXorLoop kc m n i k).length = k.length := by
  induction n generalizing i k with
  | zero => rfl
  | succ n ih => rw [refXorLoop, ih, List.length_set]

theorem refPairLoop_length (n i : Nat) (s0 s1 : Word) (k : Key) : (refPairLoop n i s0 s1 k).length = k.length := by
  induction n generalizing i s0 s1 k with
  | zero => rfl
  | succ n ih => rw [refPairLoop, ih, List.length_set, List.length_set]

theorem refKsMix_length (m : Nat) (k : Key) (kc : List Word) (j : Nat) : (refKsMix m k kc j).1.length = k.length := by
  simp only [refKsMix, refPairLoop_length, refXorLoop_length]

/-- One iteration of `ks_mix` under the CIPH of any launch. -/
theorem ksMix_length (p : Params) (k : Key) (u : List Word) (j : Nat) : ((ciphOf p).ksMix k u j).1.length = k.length := by
  unfold ciphOf
  split
  · exact refKsMix_length _ k u j
  · simp only [unspecifiedCiph, List.length_map, List.length_range]

theorem ksIterate_length (p : Params) (n j : Nat) (k : Key) (u : List Word) :
    (ksIterate (ciphOf p) n j k u).length = k.length := by
  induction n generalizing j k u with
  | zero => rfl
  | succ n ih => rw [ksIterate, ih, ksMix_length]

/-- The key that KINIT computes has NP + NS words (10_state.md R21). -/
theorem keySchedule_length (s : State) (seed : Word) (level : Byte) :
    (keySchedule s seed level).length = Config.np + s.params.ns := by
  rw [keySchedule, ksIterate_length, keyTable, List.length_map, List.length_range]

/-! ### Commands -/

/-- The end of a command that read the stream. -/
theorem finish_inv {α : Type} {val : α → Value} {r : Res α} {t : State} (hr : Attached r.state)
    (e : finish val r = .next t) : Inv t :=
  finish_state (P := Inv) hr.1 (fun v _ hu => finishOk_inv hu v) (fun k _ hu => raiseError_inv hu k) e

/-- The last two steps of LZREG, from a source just attached. -/
theorem parseAndRun_inv {s t : State} (h : Inv { s with activity := .header true })
    (e : parseAndRun s = .next t) : Inv t := by
  unfold parseAndRun at e
  split at e
  · next u hu => exact completeRun_inv (elementStep_inv h (by simp) hu) e
  · cases e
  · cases e

section
variable {s t : State} (h : Inv s)
include h

theorem execReset_inv (e : execReset s = .next t) : Inv t := by
  cases e
  exact finishOk_inv (resetWith_inv s.params s.srcmem s.keyrom s.cmdq h.src_wf h.src_below) _

theorem execKinit_inv {seed : Word} {level : Byte} (e : execKinit seed level s = .next t) : Inv t := by
  have keyed : Inv { s with
      ks := keySchedule s seed level
      acc := (ciphOf s.params).accInit (keySchedule s seed level) seed level
      krdy := true } :=
    { h with
      keyed := fun _ _ => rfl
      ks_words := keySchedule_length s seed level }
  cases e
  exact finishOk_inv keyed _

/-- A block transform rewrites ACC alone, of which the invariant says nothing. -/
theorem blockCommand_inv {f : Key → Acc → Blk → Blk × Acc} {blk : Blk} (e : blockCommand f blk s = .next t) : Inv t := by
  have transformed : Inv { s with acc := (f s.ks s.acc blk).2 } := { h with }
  cases e
  exact finishOk_inv transformed _

theorem execBdec_inv {blk : Blk} (e : execBdec blk s = .next t) : Inv t := by
  unfold execBdec at e
  split at e
  · exact blockCommand_inv h e
  · cases e; exact refuse_inv h

theorem execBenc_inv {blk : Blk} (e : execBenc blk s = .next t) : Inv t := by
  unfold execBenc at e
  split at e
  · split at e
    · exact blockCommand_inv h e
    · cases e; exact refuse_inv h
  · cases e; exact refuse_inv h

theorem execSaddr_inv {v : Variant} {ptr : Word} (e : execSaddr v ptr s = .next t) : Inv t := by
  unfold execSaddr at e
  split at e
  · cases e; exact refuse_inv h
  · next hk =>
    rcases finish_next e with ⟨_, u, ea, rfl⟩ | ⟨k, u, ea, rfl⟩
    · exact attach_ok_inv h (Bool.eq_false_iff.mpr hk) ea .idle _ fun _ _ hr => by cases hr
    · exact attach_raise_inv h ea

/-- The gate keeps the invariant where its body does with a source attached and no error held. -/
theorem gated_inv {body : State → Outcome State Fault Refusal} (e : gated body s = .next t)
    (hbody : s.srdy = true → s.err = 0 → body s = .next t → Inv t) : Inv t := by
  rcases gated_cases body s with ⟨_, e'⟩ | ⟨_, k, hk, e'⟩ | ⟨hs, he, e'⟩ <;> rw [e'] at e
  · cases e; exact refuse_inv h
  · cases e; exact respond_held_inv h hk
  · exact hbody hs he e

theorem execGu8_inv (e : execGu8 s = .next t) : Inv t :=
  gated_inv h e fun hs _ => finish_inv (nextByte_attached s ⟨h, hs⟩)

theorem execGu16_inv (e : execGu16 s = .next t) : Inv t :=
  gated_inv h e fun hs _ => finish_inv (nextU16_state nextByte_attached ⟨h, hs⟩)

theorem execGu32_inv (e : execGu32 s = .next t) : Inv t :=
  gated_inv h e fun hs _ => finish_inv (nextU32_state nextByte_attached ⟨h, hs⟩)

theorem execRhdr_inv (e : execRhdr s = .next t) : Inv t :=
  gated_inv h e fun hs he => elementStep_inv (busy_inv h (by simp) hs he) (by simp)

theorem execLzrun_inv {n : BitVec 24} (e : execLzrun n s = .next t) : Inv t :=
  gated_inv h e fun hs he => completeRun_inv (beginRun_inv h false n hs he)

theorem execLzreg_inv {v : Variant} {ptr : Word} (e : execLzreg v ptr s = .next t) : Inv t := by
  have emptied : Inv (clearOut 0 s) := clearOut_inv h (Nat.two_pow_pos 24)
  unfold execLzreg at e
  split at e
  · cases e; exact refuse_inv h
  · next hk =>
    split at e
    · next k u ea => cases e; exact attach_raise_inv emptied ea
    · next u ea =>
      exact parseAndRun_inv (attach_ok_inv emptied (Bool.eq_false_iff.mpr hk) ea (.header true) u.resp (by simp)) e

/-- Every host command keeps the invariant. A stream element need not: outside a command its operands are not fetched. -/
theorem exec_command_inv {i : Instr} (hi : i.site = .command) (e : exec i s = .next t) : Inv t := by
  cases i with
  | reset => exact execReset_inv h e
  | kinit seed level => exact execKinit_inv h e
  | bdec blk => exact execBdec_inv h e
  | benc blk => exact execBenc_inv h e
  | saddr v ptr => exact execSaddr_inv h e
  | gu8 => exact execGu8_inv h e
  | gu16 => exact execGu16_inv h e
  | gu32 => exact execGu32_inv h e
  | rhdr => exact execRhdr_inv h e
  | lzrun n => exact execLzrun_inv h e
  | lzreg v ptr => exact execLzreg_inv h e
  | hdr typ size => cases hi
  | hdrW32 typ ign size => cases hi
  | flg f => cases hi
  | lit d => cases hi
  | ref len dist => cases hi
  | endRun => cases hi

end

/-! ### Steps -/

/-- One test of the code in a frame: if its own answer is a host command, and so are those of the tests after it, so is the result. -/
theorem site_of_codeTest {c : Prop} [Decidable c] {a i : Instr} {r : Except DecodeError Instr} (ha : a.site = .command)
    (hr : r = .ok i → i.site = .command) (h : (if c then .ok a else r) = .ok i) : i.site = .command := by
  by_cases hc : c
  · rw [if_pos hc] at h; cases h; exact ha
  · rw [if_neg hc] at h; exact hr h

/-- Each of the eleven codes of 30_encoding.md R92 is that of a host command. -/
theorem decodeFrame_site {o : Nat → Byte} {i : Instr} : decodeFrame o = .ok i → i.site = .command := by
  unfold decodeFrame
  iterate 11 refine site_of_codeTest rfl ?_
  exact fun h => by cases h

/-- A frame holds a host command, never a stream element (30_encoding.md R102). -/
theorem decode_command_site {bs : List Byte} {i : Instr} (h : decode .command bs = .ok i) : i.site = .command := by
  rw [decode, if_pos rfl, decodeCommand] at h
  split at h
  · exact decodeFrame_site h
  · cases h

/-- Everything a step between commands can do: idle with no whole command there, refuse a reserved code, or run the command
of the frame taken off the queue. -/
theorem stepCommand_cases (s : State) :
    stepCommand s = .next s
    ∨ ∃ q, stepCommand s = .next (refuse { s with cmdq := q })
      ∨ ∃ i, i.site = .command ∧ stepCommand s = exec i { s with cmdq := q } := by
  unfold stepCommand fetchCommand
  by_cases hlen : frameBytes ≤ s.cmdq.length
  · rw [if_pos hlen]
    refine .inr ⟨s.cmdq.drop frameBytes, ?_⟩
    cases hd : decode .command (s.cmdq.take frameBytes) with
    | error c => exact .inl (by simp only [hd])
    | ok i => exact .inr ⟨i, decode_command_site hd, by simp only [hd]⟩
  · rw [if_neg hlen]
    exact .inl rfl

theorem stepCommand_inv {s t : State} (h : Inv s) (e : stepCommand s = .next t) : Inv t := by
  rcases stepCommand_cases s with e' | ⟨q, e' | ⟨i, hi, e'⟩⟩ <;> rw [e'] at e
  · cases e; exact h
  · cases e; exact refuse_inv (cmdq_inv h q)
  · exact exec_command_inv (cmdq_inv h q) hi e

/-- Settles O59: between commands a step runs a host command, inside one a stream element that was fetched, and both keep the
invariant. -/
theorem stepKeepsInv : Obligations.StepKeepsInv := by
  intro s t h e
  by_cases ha : s.activity = .idle
  · have between : step s = stepCommand s := by rw [step, ha]
    exact stepCommand_inv h (between ▸ e)
  · exact elementStep_inv h ha (step_eq_elementStep ha ▸ e)

end Sys2Proof.Machine
end

section
/-! SUPPORT. Two canonical memories with the same contents are the same data: by the reads, their first cells have the same
address and the same byte, and what follows the first cells has the same contents again (logs 6, 7). -/

namespace Sys2Proof.Machine

/-- A write to an address is read back there. -/
theorem memRead_memWrite_same {d : Option Byte} {m : Memory} (h : Memory.wf d m = true) (a : Nat) (v : Byte) :
    memRead d (memWrite d m a v) a = some v := by
  rw [memRead_memWrite h, if_pos rfl]

/-- A write leaves every other address alone. -/
theorem memRead_memWrite_of_ne {d : Option Byte} {m : Memory} (h : Memory.wf d m = true) {a b : Nat} (v : Byte) (hb : b ≠ a) :
    memRead d (memWrite d m a v) b = memRead d m b := by
  rw [memRead_memWrite h, if_neg hb.symm]

/-- A memory reads at its first address as its first cell says. -/
theorem memRead_head (d : Option Byte) (a : Nat) (v : Byte) (m : Memory) : memRead d ((a, v) :: m) a = some v := by
  rw [memRead_cons, if_pos rfl]

section
variable {d : Option Byte} {lo lo' a a' : Nat} {v v' : Byte} {m m' : Memory}

/-- A canonical memory that lists a cell does not read like an empty one: at that cell it reads as no default. -/
theorem exists_memRead_ne_default (h : memWfFrom d lo ((a, v) :: m) = true) : ∃ b, memRead d ((a, v) :: m) b ≠ d := by
  obtain ⟨_, hv, _⟩ := (memWfFrom_cons ..).mp h
  exact ⟨a, by rwa [memRead_head]⟩

/-- Where one canonical memory lists its first cell, another with the same contents cannot begin above. -/
theorem head_le_of_memRead_eq (h : memWfFrom d lo ((a, v) :: m) = true) (h' : memWfFrom d lo' ((a', v') :: m') = true)
    (heq : ∀ b, memRead d ((a, v) :: m) b = memRead d ((a', v') :: m') b) : a' ≤ a := by
  obtain ⟨_, hv, _⟩ := (memWfFrom_cons ..).mp h
  obtain ⟨_, hrest'⟩ := (memWfFrom_cons ..).mp h'
  by_contra hlt
  have wf_from_head : memWfFrom d a' ((a', v') :: m') = true := (memWfFrom_cons ..).mpr ⟨Nat.le_refl a', hrest'⟩
  have unlisted : memRead d ((a', v') :: m') a = d := memRead_below wf_from_head (Nat.not_le.mp hlt)
  rw [← heq, memRead_head] at unlisted
  exact hv unlisted

/-- After equal first cells the contents are equal again: up to the address of those cells nothing more is listed. -/
theorem tail_memRead_eq (h : memWfFrom d (a + 1) m = true) (h' : memWfFrom d (a + 1) m' = true)
    (heq : ∀ b, memRead d ((a, v) :: m) b = memRead d ((a, v') :: m') b) (b : Nat) : memRead d m b = memRead d m' b := by
  by_cases hb : b < a + 1
  · rw [memRead_below h hb, memRead_below h' hb]
  · have hab : ¬ a = b := by omega
    simpa only [memRead_cons, if_neg hab] using heq b

/-- Equal contents are equal data, whatever the lower bounds of the two memories. -/
theorem eq_of_memRead_eq (h : memWfFrom d lo m = true) (h' : memWfFrom d lo' m' = true)
    (heq : ∀ b, memRead d m b = memRead d m' b) : m = m' := by
  induction m generalizing lo lo' m' with
  | nil =>
    cases m' with
    | nil => rfl
    | cons c' m' =>
      obtain ⟨b, hb⟩ := exists_memRead_ne_default h'
      exact absurd (heq b).symm hb
  | cons c m ih =>
    cases m' with
    | nil =>
      obtain ⟨b, hb⟩ := exists_memRead_ne_default h
      exact absurd (heq b) hb
    | cons c' m' =>
      obtain ⟨a, v⟩ := c
      obtain ⟨a', v'⟩ := c'
      have same_address : a = a' :=
        Nat.le_antisymm (head_le_of_memRead_eq h' h fun b => (heq b).symm) (head_le_of_memRead_eq h h' heq)
      subst same_address
      have same_byte : v = v' := by simpa only [memRead_head, Option.some.injEq] using heq a
      obtain ⟨_, _, hrest⟩ := (memWfFrom_cons ..).mp h
      obtain ⟨_, _, hrest'⟩ := (memWfFrom_cons ..).mp h'
      rw [same_byte, ih hrest hrest' (tail_memRead_eq hrest hrest' heq)]

end

/-- Settles O56: the write laws, and extensionality by the induction over both lists of cells. -/
theorem memoryLaws : Obligations.MemoryLaws := by
  intro d m h
  refine ⟨fun a v => ⟨memory_write_wf h a v, memRead_memWrite_same h a v, fun b hb => memRead_memWrite_of_ne h v hb⟩, ?_⟩
  exact fun m' h' heq => eq_of_memRead_eq h h' heq

end Sys2Proof.Machine
end

section
/-! SUPPORT. What the host's write to SRCMEM changes (20_memory.md R76, log 16), and that the next fill of the window holds the
byte as written, while the window in CACHE is delivered as it stands. -/

namespace Sys2Proof.Machine

/-! ### The write -/

/-- The host writes SRCMEM alone; CACHE is not refreshed. -/
theorem hostWriteSrc_of_lt {a : Nat} {s : State} (v : Byte) (ha : a < extentOf s) :
    hostWriteSrc a v s = { s with srcmem := memWrite srcDefault s.srcmem a v } := if_pos ha

/-- The bytes of SRCMEM after a write. -/
theorem srcByte_write {s : State} (h : Memory.wf srcDefault s.srcmem = true) (a : Nat) (v : Byte) (b : Nat) :
    srcByte { s with srcmem := memWrite srcDefault s.srcmem a v } b = if b = a then v else srcByte s b := by
  by_cases hb : b = a
  · subst hb
    rw [srcByte, memRead_memWrite_same h, if_pos rfl, Option.getD_some]
  · rw [srcByte, memRead_memWrite_of_ne h v hb, if_neg hb, srcByte]

section
variable {s : State} (h : Memory.wf srcDefault s.srcmem = true) {i : Nat} (hi : i < 8) (p : Nat) (v : Byte)
include h

/-- The bytes that an Encrypted fill decrypts, after a write to byte i of the window. -/
theorem blkGet_rawWindow_write {j : Nat} (hj : j < 8) :
    blkGet (rawWindow { s with srcmem := memWrite srcDefault s.srcmem (p + i) v } p) j
      = if j = i then v else srcByte s (p + j) := by
  rw [rawWindow, blkGet_blkOfFn _ hj, srcByte_write h]
  simp only [Nat.add_left_cancel_iff]

include hi

/-- The written byte in the window of a Plain fill. -/
theorem blkGet_plainWindow_write (hx : p + i < extentOf s) :
    blkGet (plainWindow { s with srcmem := memWrite srcDefault s.srcmem (p + i) v } p) i = v := by
  have inside : p + i < extentOf { s with srcmem := memWrite srcDefault s.srcmem (p + i) v } := hx
  rw [plainWindow, blkGet_blkOfFn _ hi, if_pos inside, srcByte_write h, if_pos rfl]

end

/-! ### The fills -/

/-- A Plain fill copies the window. -/
theorem fill_plain {s : State} (hv : s.variant = .plain) (a : Nat) : fill a s = .ok () (setWindow a (plainWindow s a) s) := by
  rcases fill_cases a s with ⟨hv', _⟩ | ⟨hv', _⟩ | ⟨_, e⟩
  · rw [hv] at hv'; cases hv'
  · rw [hv] at hv'; cases hv'
  · exact e

/-- An Encrypted fill inside SRCMEM decrypts the window. -/
theorem fill_encrypted {s : State} (hv : s.variant = .encrypted) {a : Nat} (hx : a + 8 ≤ extentOf s) :
    fill a s = .ok () (setWindow a ((ciphOf s.params).blkDec s.ks s.acc (rawWindow s a)).1
      { s with acc := ((ciphOf s.params).blkDec s.ks s.acc (rawWindow s a)).2 }) := by
  rcases fill_cases a s with ⟨_, hx', _⟩ | ⟨_, _, e⟩ | ⟨hv', _⟩
  · omega
  · exact e
  · rw [hv] at hv'; cases hv'

/-- A Plain SADDR leaves the Plain window at its pointer in CACHE (41_bytesource.md R152). -/
theorem exec_saddr_plain_cache (s : State) (p : Word) :
    ∃ t, exec (.saddr .plain p) s = .next t ∧ t.cache = plainWindow s p.toNat := by
  rcases attach_cases .plain p s with ⟨hv, _⟩ | ⟨hv, _⟩ | ⟨_, e⟩
  · cases hv
  · cases hv
  · have run : exec (.saddr .plain p) s = finish (fun _ => .none) (attach .plain p s) := rfl
    exact ⟨_, by rw [run, e]; rfl, rfl⟩

/-- An Encrypted SADDR with a key and a window inside SRCMEM leaves the decryption of that window in CACHE. -/
theorem exec_saddr_encrypted_cache {s : State} (hk : s.krdy = true) {p : Word} (hx : p.toNat + 8 ≤ extentOf s) :
    ∃ t, exec (.saddr .encrypted p) s = .next t
      ∧ t.cache = ((ciphOf s.params).blkDec s.ks s.acc (rawWindow s p.toNat)).1
      ∧ t.acc = ((ciphOf s.params).blkDec s.ks s.acc (rawWindow s p.toNat)).2 := by
  rcases attach_cases .encrypted p s with ⟨_, hx', _⟩ | ⟨_, _, e⟩ | ⟨hv, _⟩
  · omega
  · have run : exec (.saddr .encrypted p) s = finish (fun _ => .none) (attach .encrypted p s) :=
      if_neg (by simp [needsKey, hk])
    exact ⟨_, by rw [run, e]; rfl, rfl, rfl⟩
  · cases hv

/-! ### GU8 -/

section
variable {s : State} (hr : Ready s)
include hr

/-- In the state of R235 GU8 is one byte read (R154). -/
theorem exec_gu8_of_ready : exec .gu8 s = finish .u8 (nextByte s) := by
  obtain ⟨_, hs, he⟩ := hr
  exact gated_of_ready (body := fun s => finish .u8 (nextByte s)) hs he

/-- GU8 on a window that is not used up does not look at SRCMEM. -/
theorem exec_gu8_cached_srcmem {t : State} (hp : s.pos < 8) (m : Memory) (e : exec .gu8 s = .next t) :
    exec .gu8 { s with srcmem := m } = .next { t with srcmem := m } := by
  have hr' : Ready { s with srcmem := m } := hr
  rw [exec_gu8_of_ready hr, nextByte_of_lt hp] at e
  rw [exec_gu8_of_ready hr', nextByte_of_lt (s := { s with srcmem := m }) hp]
  by_cases hx : s.variant = .plain ∧ extentOf s ≤ spos s
  · have raises : deliver s = .raise .truncatedSource s := if_pos hx
    have raises' : deliver { s with srcmem := m } = .raise .truncatedSource { s with srcmem := m } := if_pos hx
    rw [raises] at e
    rw [raises']
    cases e
    rfl
  · have delivers : deliver s = .ok (blkGet s.cache s.pos) { s with pos := s.pos + 1 } := if_neg hx
    have delivers' : deliver { s with srcmem := m }
        = .ok (blkGet s.cache s.pos) { s with srcmem := m, pos := s.pos + 1 } := if_neg hx
    rw [delivers] at e
    rw [delivers']
    cases e
    rfl

/-- GU8 on a used-up window delivers byte 0 of the next one, where that byte exists (R153). -/
theorem exec_gu8_refilled {u : State} (hp : s.pos = 8) (hf : fill (s.src.toNat + 8) s = .ok () u)
    (hx : u.variant = .plain → spos u < extentOf u) :
    exec .gu8 s = .next (finishOk (.u8 (blkGet u.cache 0)) { u with pos := 1 }) := by
  have pos_zero : u.pos = 0 := (fill_ok hf).2
  rw [exec_gu8_of_ready hr, nextByte_of_le hp.ge, hf, resBind_ok]
  rcases deliver_cases u with ⟨hv, hx', _⟩ | ⟨_, e⟩
  · exact absurd (hx hv) (Nat.not_lt.mpr hx')
  · rw [e, pos_zero]
    rfl

/-- The refill of a Plain source, where the next window begins below EXTENT. -/
theorem exec_gu8_refill_plain (hp : s.pos = 8) (hv : s.variant = .plain) (hx : s.src.toNat + 8 < extentOf s) :
    ∃ t, exec .gu8 s = .next t ∧ t.cache = plainWindow s (s.src.toNat + 8)
      ∧ t.resp = some (.ok (.u8 (blkGet t.cache 0))) := by
  have src32 : s.src.toNat + 8 < 2 ^ 32 := by
    have := extentOf_le s
    omega
  have first_byte : spos (setWindow (s.src.toNat + 8) (plainWindow s (s.src.toNat + 8)) s) < extentOf s := by
    rw [spos, setWindow_src, setWindow_pos, src_toNat src32]
    exact hx
  exact ⟨_, exec_gu8_refilled hr hp (fill_plain hv _) fun _ => first_byte, rfl, rfl⟩

/-- The refill of an Encrypted source, where the next window lies inside SRCMEM. -/
theorem exec_gu8_refill_encrypted (hp : s.pos = 8) (hv : s.variant = .encrypted) (hx : s.src.toNat + 16 ≤ extentOf s) :
    ∃ t, exec .gu8 s = .next t
      ∧ t.cache = ((ciphOf s.params).blkDec s.ks s.acc (rawWindow s (s.src.toNat + 8))).1
      ∧ t.acc = ((ciphOf s.params).blkDec s.ks s.acc (rawWindow s (s.src.toNat + 8))).2
      ∧ t.resp = some (.ok (.u8 (blkGet t.cache 0))) := by
  have hplain : s.variant ≠ .plain := by simp [hv]
  exact ⟨_, exec_gu8_refilled hr hp (fill_encrypted hv hx) fun h => absurd h hplain, rfl, rfl, rfl⟩

end

/-- Settles O37: a read of the window in CACHE does not look at SRCMEM; each of the four fills takes its window from SRCMEM as
written, whose byte i is the one that the host wrote. -/
theorem hostWriteSeenAtNextFill : Obligations.HostWriteSeenAtNextFill := by
  intro s a v ha hwf
  rw [hostWriteSrc_of_lt v ha]
  refine ⟨fun t hr hp e => ⟨_, exec_gu8_cached_srcmem hr hp _ e, rfl⟩, fun i hi => ⟨?saddr, ?refill⟩⟩
  case saddr =>
    rintro p rfl
    constructor
    · obtain ⟨t, e, cache⟩ := exec_saddr_plain_cache { s with srcmem := memWrite srcDefault s.srcmem (p.toNat + i) v } p
      exact ⟨t, e, by rw [cache, blkGet_plainWindow_write hwf hi _ v ha]⟩
    · intro hk hx
      obtain ⟨t, e, cache, acc⟩ :=
        exec_saddr_encrypted_cache (s := { s with srcmem := memWrite srcDefault s.srcmem (p.toNat + i) v }) hk hx
      exact ⟨t, _, e, fun j hj => blkGet_rawWindow_write hwf _ v hj, cache, acc⟩
  case refill =>
    rintro hr hp rfl
    have hr' : Ready { s with srcmem := memWrite srcDefault s.srcmem (s.src.toNat + 8 + i) v } := hr
    constructor
    · intro hv
      obtain ⟨t, e, cache, resp⟩ := exec_gu8_refill_plain hr' hp hv (Nat.lt_of_le_of_lt (Nat.le_add_right _ i) ha)
      exact ⟨t, e, by rw [cache]; exact blkGet_plainWindow_write hwf hi _ v ha, resp⟩
    · intro hv hx
      obtain ⟨t, e, cache, acc, resp⟩ := exec_gu8_refill_encrypted hr' hp hv hx
      exact ⟨t, _, e, fun j hj => blkGet_rawWindow_write hwf _ v hj, cache, acc, resp⟩

end Sys2Proof.Machine
end

section
/-! SUPPORT. The fields of the stream elements and the operands of the commands: the encoder puts them where the decoder takes
them from, and the other way round (30_encoding.md R92 to R100). Facts about fields are facts about numbers, closed by omega. -/

namespace Sys2Proof.Machine

/-! ### Bit fields as numbers -/

theorem extractLsb'_toNat_div {w : Nat} (v : BitVec w) (start len : Nat) :
    (v.extractLsb' start len).toNat = v.toNat / 2 ^ start % 2 ^ len := by
  rw [BitVec.extractLsb'_toNat, Nat.shiftRight_eq_div_pow]

/-- The nibble in front of a header's first byte is its type. -/
@[simp] theorem hdrType_append (t x : BitVec 4) : hdrType (t ++ x) = t := by
  have := x.isLt
  apply BitVec.eq_of_toNat_eq
  rw [hdrType_toNat, toNat_append_add]
  omega

@[simp] theorem hdrLow_append (t x : BitVec 4) : hdrLow (t ++ x) = x := by
  have := x.isLt
  apply BitVec.eq_of_toNat_eq
  rw [hdrLow_toNat, toNat_append_add]
  omega

/-- A header's first byte is its two nibbles. -/
@[simp] theorem hdrType_append_hdrLow (b : Byte) : hdrType b ++ hdrLow b = b := by
  apply BitVec.eq_of_toNat_eq
  rw [toNat_append_add, hdrType_toNat, hdrLow_toNat]
  omega

/-! ### Sizes -/

@[simp] theorem le24_sizeByte (n : BitVec 24) : le24 (sizeByte n 0) (sizeByte n 1) (sizeByte n 2) = n := by
  have := n.isLt
  apply BitVec.eq_of_toNat_eq
  simp only [le24_toNat, sizeByte_toNat]
  omega

/-- Byte i of a composed size is the byte composed at place i. -/
theorem sizeByte_le24 (b0 b1 b2 : Byte) {i : Nat} (h : i < 3) : sizeByte (le24 b0 b1 b2) i = [b0, b1, b2][i] := by
  have := b0.isLt
  have := b1.isLt
  have := b2.isLt
  apply BitVec.eq_of_toNat_eq
  rw [sizeByte_toNat, le24_toNat]
  interval_cases i <;> simp only [List.getElem_cons_zero, List.getElem_cons_succ] <;> omega

/-- A size of 20 bits is composed of its three fields under TABLE6 (R94). -/
theorem hdrSize6_fields (t : BitVec 4) {n : BitVec 24} (h : n.toNat < 0x100000) :
    hdrSize6 (t ++ n.extractLsb' 0 4) (n.extractLsb' 4 8) (n.extractLsb' 12 8) = n := by
  apply BitVec.eq_of_toNat_eq
  simp only [hdrSize6_toNat, toNat_append_add, extractLsb'_toNat_div]
  omega

/-- A TABLE6 size has 20 bits (R94, R100). -/
theorem hdrSize6_lt (b0 b1 b2 : Byte) : (hdrSize6 b0 b1 b2).toNat < 0x100000 := by
  have := b1.isLt
  have := b2.isLt
  rw [hdrSize6_toNat]
  omega

/-- The lowest field of a TABLE6 size is the low nibble of the first byte, and the other two are the other two bytes. -/
theorem hdrSize6_low (b0 b1 b2 : Byte) : (hdrSize6 b0 b1 b2).extractLsb' 0 4 = hdrLow b0 := by
  apply BitVec.eq_of_toNat_eq
  rw [extractLsb'_toNat_div, hdrSize6_toNat, hdrLow_toNat]
  omega

theorem hdrSize6_mid (b0 b1 b2 : Byte) : (hdrSize6 b0 b1 b2).extractLsb' 4 8 = b1 := by
  have := b1.isLt
  apply BitVec.eq_of_toNat_eq
  rw [extractLsb'_toNat_div, hdrSize6_toNat]
  omega

theorem hdrSize6_high (b0 b1 b2 : Byte) : (hdrSize6 b0 b1 b2).extractLsb' 12 8 = b2 := by
  have := b1.isLt
  have := b2.isLt
  apply BitVec.eq_of_toNat_eq
  rw [extractLsb'_toNat_div, hdrSize6_toNat]
  omega

/-! ### Lengths and distances under HI4LEN -/

/-- A length field and a distance field, put into two bytes and taken out again (R98). -/
theorem refFieldsOf_hi4len_append (l : BitVec 4) (d : BitVec 12) :
    refFieldsOf .hi4len (l ++ d.extractLsb' 8 4) (d.extractLsb' 0 8) = (l, d) := by
  have := d.isLt
  refine Prod.ext (BitVec.eq_of_toNat_eq ?_) (BitVec.eq_of_toNat_eq ?_)
  · simp only [refFields_hi4len_len, toNat_append_add, extractLsb'_toNat_div]
    omega
  · simp only [refFields_hi4len_dist, toNat_append_add, extractLsb'_toNat_div]
    omega

theorem refFieldsOf_hi4len_byte0 (r0 r1 : Byte) :
    (refFieldsOf .hi4len r0 r1).1 ++ (refFieldsOf .hi4len r0 r1).2.extractLsb' 8 4 = r0 := by
  have := r1.isLt
  apply BitVec.eq_of_toNat_eq
  simp only [toNat_append_add, extractLsb'_toNat_div, refFields_hi4len_len, refFields_hi4len_dist]
  omega

theorem refFieldsOf_hi4len_byte1 (r0 r1 : Byte) : (refFieldsOf .hi4len r0 r1).2.extractLsb' 0 8 = r1 := by
  have := r1.isLt
  apply BitVec.eq_of_toNat_eq
  simp only [extractLsb'_toNat_div, refFields_hi4len_dist]
  omega

/-- In its range a length is its field with the bias added (R100). -/
theorem lenOf_ofNat {len : Nat} (h : 3 ≤ len) (h' : len ≤ 18) : lenOf (BitVec.ofNat 4 (len - 3)) = len := by
  rw [lenOf, BitVec.toNat_ofNat]
  omega

theorem distOf_ofNat {dist : Nat} (h : 1 ≤ dist) (h' : dist ≤ 4096) : distOf (BitVec.ofNat 12 (dist - 1)) = dist := by
  rw [distOf, BitVec.toNat_ofNat]
  omega

theorem ofNat_lenOf (f : BitVec 4) : BitVec.ofNat 4 (lenOf f - 3) = f := by
  simp [lenOf]

theorem ofNat_distOf (f : BitVec 12) : BitVec.ofNat 12 (distOf f - 1) = f := by
  simp [distOf]

/-! ### Operands of the commands -/

/-- VARIANT is bit 0 of its operand byte (R93). -/
@[simp] theorem variantOfBit_variantByte (v : Variant) : variantOfBit ((variantByte v).getLsbD 0) = v := by
  cases v <;> rfl

end Sys2Proof.Machine
end

section
/-! SUPPORT. Encoding and decoding are inverse to each other at every place where an instruction can stand (30_encoding.md R92
to R100, R102), and what the fields of the elements are as numbers. -/

namespace Sys2Proof.Machine

/-! ### Stream elements -/

/-- At a place of the stream the bytes of the place always decode; only their number can be wrong. -/
theorem decode_stream {site : Site} (hsite : site ≠ .command) {bs : List Byte} (hlen : bs.length = siteBytes site) :
    decode site bs = .ok (decodeElement site fun i => bs.getD i 0).toInstr := by
  rw [decode, if_neg hsite, if_pos hlen]

/-- What decodes at a place of the stream has the number of bytes of that place. -/
theorem decode_stream_eq_ok {site : Site} (hsite : site ≠ .command) {bs : List Byte} {i : Instr} :
    decode site bs = .ok i ↔ bs.length = siteBytes site ∧ i = (decodeElement site fun i => bs.getD i 0).toInstr := by
  rw [decode, if_neg hsite]
  split
  · next hlen => simp [hlen, eq_comm]
  · next hlen => simp [hlen]

/-- HDR under TABLE6, decoded and encoded again (R94). -/
theorem encode_decodeHdr6 (b0 b1 b2 : Byte) : encode (decodeHdr6 b0 b1 b2).toInstr = [b0, b1, b2] := by
  simp only [decodeHdr6, Element.toInstr, encode, hdrSize6_low, hdrSize6_mid, hdrSize6_high, hdrType_append_hdrLow]

/-- HDR under WORD32, decoded and encoded again: the ignored nibble is kept (R95). -/
theorem encode_decodeHdr32 (b0 b1 b2 b3 : Byte) : encode (decodeHdr32 b0 b1 b2 b3).toInstr = [b0, b1, b2, b3] := by
  simp [decodeHdr32, Element.toInstr, encode, sizeByte_le24]

/-- REF under HI4LEN, decoded and encoded again (R98). -/
theorem encode_decodeRef (r0 r1 : Byte) : encode (decodeRef .hi4len r0 r1).toInstr = [r0, r1] := by
  simp only [decodeRef, Element.toInstr, encode, ofNat_lenOf, ofNat_distOf, refFieldsOf_hi4len_byte0,
    refFieldsOf_hi4len_byte1]

theorem decodeHdr6_wellFormed (b0 b1 b2 : Byte) : (decodeHdr6 b0 b1 b2).toInstr.wellFormed = true :=
  decide_eq_true (hdrSize6_lt b0 b1 b2)

/-- Settles O2: at each place of the stream, by the number of bytes that it has. -/
theorem encodeDecodeStream : Obligations.EncodeDecodeStream := by
  intro site bs i hcommand hother h
  obtain ⟨hlen, rfl⟩ := (decode_stream_eq_ok hcommand).mp h
  cases site with
  | command => exact absurd rfl hcommand
  | header l =>
    cases l with
    | table6 =>
      obtain ⟨b0, b1, b2, rfl⟩ := List.length_eq_three.mp hlen
      exact ⟨encode_decodeHdr6 b0 b1 b2, decodeHdr6_wellFormed b0 b1 b2, rfl⟩
    | word32 =>
      match bs, hlen with
      | [b0, b1, b2, b3], _ => exact ⟨encode_decodeHdr32 b0 b1 b2 b3, rfl, rfl⟩
  | flag =>
    obtain ⟨f, rfl⟩ := List.length_eq_one_iff.mp hlen
    exact ⟨rfl, rfl, rfl⟩
  | literal =>
    obtain ⟨d, rfl⟩ := List.length_eq_one_iff.mp hlen
    exact ⟨rfl, rfl, rfl⟩
  | backRef l =>
    cases l with
    | other => exact absurd rfl hother
    | hi4len =>
      obtain ⟨r0, r1, rfl⟩ := List.length_eq_two.mp hlen
      exact ⟨encode_decodeRef r0 r1, decodeRef_wellFormed .hi4len r0 r1, rfl⟩
  | finished =>
    obtain rfl := List.length_eq_zero_iff.mp hlen
    exact ⟨rfl, rfl, rfl⟩

/-- Settles O3: the two fields as the operand laws give them. -/
theorem headerTable6Fields : Obligations.HeaderTable6Fields := fun b0 b1 b2 =>
  ⟨hdrType b0, hdrSize6 b0 b1 b2, rfl, hdrType_toNat b0, hdrSize6_toNat b0 b1 b2, hdrSize6_lt b0 b1 b2⟩

/-- The ignored nibble has no effect (R95). -/
theorem exec_hdrW32_ign (typ ign ign' : BitVec 4) (size : BitVec 24) (s : State) :
    exec (.hdrW32 typ ign' size) s = exec (.hdrW32 typ ign size) s := rfl

/-- Settles O4: the three fields as the operand laws give them. -/
theorem headerWord32Fields : Obligations.HeaderWord32Fields := fun b0 b1 b2 b3 =>
  ⟨hdrType b0, hdrLow b0, le24 b1 b2 b3, rfl, hdrType_toNat b0, hdrLow_toNat b0, le24_toNat b1 b2 b3,
    fun ign' s => exec_hdrW32_ign (hdrType b0) (hdrLow b0) ign' (le24 b1 b2 b3) s⟩

/-- Settles O5: the two fields of HI4LEN with their biases; the ranges are those of the widths of the fields. -/
theorem backReferenceFields : Obligations.BackReferenceFields := by
  intro r0 r1
  obtain ⟨len_ge, len_le⟩ := lenOf_range (refFieldsOf .hi4len r0 r1).1
  obtain ⟨dist_ge, dist_le⟩ := distOf_range (refFieldsOf .hi4len r0 r1).2
  refine ⟨lenOf (refFieldsOf .hi4len r0 r1).1, distOf (refFieldsOf .hi4len r0 r1).2, rfl, ?_, ?_,
    len_ge, len_le, dist_ge, dist_le⟩
  · rw [lenOf, refFields_hi4len_len]
  · rw [distOf, refFields_hi4len_dist]

/-- Settles O6: each word is decoded by evaluation. -/
theorem specWordsDecode : Obligations.SpecWordsDecode := ⟨rfl, rfl, rfl, rfl, rfl, rfl⟩

/-! ### The round trip of every instruction -/

/-- Settles O1: of a command frame the decoder takes the operands that the encoder put there, and of a stream element the
fields, each of which has the width of its operand by well-formedness. -/
theorem decodeEncodeRoundTrip : Obligations.DecodeEncodeRoundTrip := by
  intro i hwf
  cases i with
  | reset => rfl
  | kinit seed level =>
    have operands : decode .command (encode (.kinit seed level))
        = .ok (.kinit (le32 (wordByte seed 0) (wordByte seed 1) (wordByte seed 2) (wordByte seed 3)) level) := rfl
    rw [Instr.site, operands, le32_wordByte]
  | bdec blk => rfl
  | benc blk => rfl
  | saddr v ptr =>
    have operands : decode .command (encode (.saddr v ptr))
        = .ok (.saddr (variantOfBit ((variantByte v).getLsbD 0))
            (le32 (wordByte ptr 0) (wordByte ptr 1) (wordByte ptr 2) (wordByte ptr 3))) := rfl
    rw [Instr.site, operands, variantOfBit_variantByte, le32_wordByte]
  | gu8 => rfl
  | gu16 => rfl
  | gu32 => rfl
  | rhdr => rfl
  | lzrun n =>
    have operands : decode .command (encode (.lzrun n))
        = .ok (.lzrun (le24 (sizeByte n 0) (sizeByte n 1) (sizeByte n 2))) := rfl
    rw [Instr.site, operands, le24_sizeByte]
  | lzreg v ptr =>
    have operands : decode .command (encode (.lzreg v ptr))
        = .ok (.lzreg (variantOfBit ((variantByte v).getLsbD 0))
            (le32 (wordByte ptr 0) (wordByte ptr 1) (wordByte ptr 2) (wordByte ptr 3))) := rfl
    rw [Instr.site, operands, variantOfBit_variantByte, le32_wordByte]
  | hdr typ size =>
    have fields : decode (.header .table6) (encode (.hdr typ size))
        = .ok (decodeHdr6 (typ ++ size.extractLsb' 0 4) (size.extractLsb' 4 8) (size.extractLsb' 12 8)).toInstr := rfl
    rw [Instr.site, fields, decodeHdr6, Element.toInstr, hdrType_append, hdrSize6_fields typ (of_decide_eq_true hwf)]
  | hdrW32 typ ign size =>
    have fields : decode (.header .word32) (encode (.hdrW32 typ ign size))
        = .ok (decodeHdr32 (typ ++ ign) (sizeByte size 0) (sizeByte size 1) (sizeByte size 2)).toInstr := rfl
    rw [Instr.site, fields, decodeHdr32, Element.toInstr, hdrType_append, hdrLow_append, le24_sizeByte]
  | flg f => rfl
  | lit d => rfl
  | ref len dist =>
    simp only [Instr.wellFormed, Bool.and_eq_true, decide_eq_true_eq] at hwf
    obtain ⟨⟨⟨len_ge, len_le⟩, dist_ge⟩, dist_le⟩ := hwf
    have fields : decode (.backRef .hi4len) (encode (.ref len dist))
        = .ok (decodeRef .hi4len (BitVec.ofNat 4 (len - 3) ++ (BitVec.ofNat 12 (dist - 1)).extractLsb' 8 4)
            ((BitVec.ofNat 12 (dist - 1)).extractLsb' 0 8)).toInstr := rfl
    rw [Instr.site, fields, decodeRef, refFieldsOf_hi4len_append, Element.toInstr, lenOf_ofNat len_ge len_le,
      distOf_ofNat dist_ge dist_le]
  | endRun => rfl

end Sys2Proof.Machine
end

section
/-! SUPPORT. What a step runs: between commands the command of the frame at the head of the queue, inside a command the element
whose bytes come next in the stream (30_encoding.md R91, R102; logs 1, 2, 4). -/

namespace Sys2Proof.Machine

open Host (Outcome)

/-! ### Between commands -/

/-- Between commands a step takes the next command. -/
theorem step_eq_stepCommand {s : State} (h : s.activity = .idle) : step s = stepCommand s := by
  rw [step, h]

/-- The encoding of an instruction fills its place (30_encoding.md R102). -/
theorem encode_length (i : Instr) : (encode i).length = siteBytes i.site := by
  cases i <;> rfl

/-- A whole frame in front of the pending commands is the one taken off. -/
theorem fetchCommand_append {s : State} {bs rest : List Byte} (hlen : bs.length = frameBytes) (hq : s.cmdq = bs ++ rest) :
    fetchCommand s = some (bs, { s with cmdq := rest }) := by
  have whole : frameBytes ≤ s.cmdq.length := by
    rw [hq, List.length_append]
    omega
  rw [fetchCommand, if_pos whole, hq, ← hlen, List.take_left, List.drop_left]

/-- A frame taken off is run as what it decodes to. -/
theorem stepCommand_of_decode {s u : State} {bs : List Byte} {i : Instr} (hf : fetchCommand s = some (bs, u))
    (hd : decode .command bs = .ok i) : stepCommand s = exec i u := by
  simp only [stepCommand, hf, hd]

/-- Settles O9: the frame is taken off the queue, and it decodes to the command that was encoded. -/
theorem stepRunsCommand : Obligations.StepRunsCommand := by
  intro s i rest hidle hwf hsite hq
  have frame_length : (encode i).length = frameBytes := by rw [encode_length, hsite]; rfl
  have decoded : decode .command (encode i) = .ok i := hsite ▸ decodeEncodeRoundTrip i hwf
  rw [step_eq_stepCommand hidle, stepCommand_of_decode (fetchCommand_append frame_length hq) decoded]

/-! ### Inside a command -/

/-- Sequences of micro-operations may be grouped in either way. -/
theorem resBind_assoc {α β γ : Type} (r : Res α) (f : α → State → Res β) (g : β → State → Res γ) :
    resBind (resBind r f) g = resBind r fun a s => resBind (f a s) g := by
  cases r <;> rfl

/-- What follows a micro-operation matters only where it ends. -/
theorem resBind_congr {α β : Type} {r : Res α} {f g : α → State → Res β} (h : ∀ a t, r = .ok a t → f a t = g a t) :
    resBind r f = resBind r g := by
  cases r with
  | ok a t => exact h a t rfl
  | raise k t => rfl

/-- Reading bytes one by one and going on with all of them. -/
@[simp] theorem resBind_fetchBytes_succ {α : Type} (k : Nat) (s : State) (f : List Byte → State → Res α) :
    resBind (fetchBytes (k + 1) s) f
      = resBind (nextByte s) fun b s => resBind (fetchBytes k s) fun bs s => f (b :: bs) s := by
  simp only [fetchBytes, resBind_assoc, resBind_ok]

/-- A header is the bytes of its layout, decoded (42_lz77.md R181). -/
theorem fetchHeader_eq (s : State) :
    fetchHeader s = resBind (fetchBytes (siteBytes (.header s.params.hdrLayout)) s) fun bs s' =>
      .ok (decodeElement (.header s.params.hdrLayout) fun i => bs.getD i 0) s' := by
  unfold fetchHeader
  cases s.params.hdrLayout <;> simp [siteBytes, decodeElement]

/-- A back-reference is two bytes, decoded under the layout of the launch, which no read changes. -/
theorem fetchToken_true_eq (s : State) :
    fetchToken true s = resBind (fetchBytes 2 s) fun bs s' =>
      .ok (decodeElement (.backRef s.params.refLayout) fun i => bs.getD i 0) s' := by
  simp only [fetchToken, resBind_fetchBytes_succ, fetchBytes_zero, resBind_ok]
  refine resBind_congr fun r0 u hu => resBind_congr fun r1 t ht => ?_
  have moved : Moved s t := (nextByte_ok hu).trans (nextByte_ok ht)
  have params : t.params = s.params := by rw [moved]
  rw [params]
  rfl

/-- A literal is one byte. -/
theorem fetchToken_false_eq (s : State) :
    fetchToken false s = resBind (fetchBytes 1 s) fun bs s' => .ok (decodeElement .literal fun i => bs.getD i 0) s' := by
  simp [fetchToken, decodeElement]

section
variable {s : State} {region : Bool}

/-- Where the next element stands, by what the running command still has to do (R102, 42_lz77.md R183, R184). -/
theorem nextSite_header (ha : s.activity = .header region) : nextSite s = .header s.params.hdrLayout := by
  rw [nextSite, ha]

variable (ha : s.activity = .run region)
include ha

theorem nextSite_finished (hend : s.outSize ≤ s.opos) : nextSite s = .finished := by
  simp only [nextSite, ha, hend, if_true]

variable (hmore : s.opos < s.outSize)
include hmore

theorem nextSite_flag (hf : s.fcnt = 0) : nextSite s = .flag := by
  simp only [nextSite, ha, Nat.not_le.mpr hmore, hf, if_true, if_false]

theorem nextSite_token (hf : s.fcnt ≠ 0) :
    nextSite s = if nextFlag s then .backRef s.params.refLayout else .literal := by
  simp only [nextSite, ha, Nat.not_le.mpr hmore, hf, if_false]

end

/-- Only between commands does a command stand next. -/
theorem nextSite_ne_command {s : State} (h : s.activity ≠ .idle) : nextSite s ≠ .command := by
  unfold nextSite
  split
  · next ha => exact absurd ha h
  · simp
  · split_ifs <;> simp

/-- Inside a command the next element is the bytes of the place where it stands, decoded (R102, R184). -/
theorem fetchElement_eq {s : State} (h : s.activity ≠ .idle) :
    fetchElement s = resBind (fetchBytes (siteBytes (nextSite s)) (beforeFetch s)) fun bs s' =>
      .ok (decodeElement (nextSite s) fun i => bs.getD i 0) s' := by
  cases ha : s.activity with
  | idle => exact absurd ha h
  | header region =>
    rw [beforeFetch, nextSite_header ha, fetchElement, ha]
    exact fetchHeader_eq s
  | run region =>
    rw [beforeFetch, fetchElement, ha]
    show fetchRun s = _
    unfold fetchRun
    by_cases hend : s.outSize ≤ s.opos
    · rw [if_pos hend, nextSite_finished ha hend]
      rfl
    · rw [if_neg hend]
      have hmore : s.opos < s.outSize := Nat.not_le.mp hend
      by_cases hf : s.fcnt = 0
      · rw [if_pos hf, nextSite_flag ha hmore hf]
        simp [siteBytes, decodeElement]
      · rw [if_neg hf, nextSite_token ha hmore hf]
        cases nextFlag s with
        | false => exact fetchToken_false_eq (useFlag s)
        | true => exact fetchToken_true_eq (useFlag s)

/-- Inside a command a step runs what the bytes that arrive decode to. -/
theorem elementStep_of_fetchBytes {s t : State} {bs : List Byte} (h : s.activity ≠ .idle)
    (hb : fetchBytes (siteBytes (nextSite s)) (beforeFetch s) = .ok bs t) :
    elementStep s = execElement (decodeElement (nextSite s) fun i => bs.getD i 0) t := by
  rw [elementStep, fetchElement_eq h, hb, resBind_ok]

/-- Bytes that do not arrive end the command with the error of the fetch (60_exceptions.md R236). -/
theorem elementStep_of_fetchBytes_raise {s t : State} {k : ErrKind} (h : s.activity ≠ .idle)
    (hb : fetchBytes (siteBytes (nextSite s)) (beforeFetch s) = .raise k t) :
    elementStep s = .next (raiseError k t) := by
  rw [elementStep, fetchElement_eq h, hb, resBind_raise]

/-- Settles O10: a step inside a command is one stream element, and that is the bytes of the place where it stands. -/
theorem stepRunsElement : Obligations.StepRunsElement := by
  intro s h
  rw [step_eq_elementStep h]
  constructor
  · intro bs t hb
    have decoded := decode_stream (nextSite_ne_command h) (fetchBytes_ok hb).1
    exact ⟨_, decoded, by rw [elementStep_of_fetchBytes h hb, exec_element]⟩
  · exact fun k t hb => elementStep_of_fetchBytes_raise h hb

end Sys2Proof.Machine
end

section
/-! SUPPORT. What a run produces, and that it ends (42_lz77.md R183, R187): below OPOS every byte of OUTMEM holds a value, so no
copy step reads a byte without one, and the elements still to come are fewer after each element. -/

namespace Sys2Proof.Machine

open Host (Outcome)

/-! ### The bytes produced -/

/-- Each byte of OUTMEM below OPOS holds a value with a given property. -/
def Produced (P : Byte → Prop) (s : State) : Prop := ∀ i < s.opos, ∃ v, outRead s i = some v ∧ P v

/-- A fresh OUTMEM: nothing has been produced. -/
theorem beginRun_produced (P : Byte → Prop) (region : Bool) (n : BitVec 24) (s : State) : Produced P (beginRun region n s) :=
  fun i hi => absurd hi (Nat.not_lt_zero i)

section
variable {P : Byte → Prop} {s : State} (h : Produced P s)
include h

/-- Writing one more byte with the property. -/
theorem outPush_produced {v : Byte} (hv : P v) : Produced P (outPush v s) := by
  intro i hi
  rw [outRead, outPush_outmem, outRead_write]
  rw [outPush_opos] at hi
  by_cases hlast : s.opos = i
  · exact ⟨v, if_pos hlast, hv⟩
  · rw [if_neg hlast]
    exact h i (by omega)

/-- A copy reads bytes that hold a value, so it completes, up to its length or the declared size; the bytes that it writes have
the property of those that it reads (R187). -/
theorem copyLoop_produced (hd : 1 ≤ s.dist) (hd' : s.dist ≤ s.opos) (hn : s.opos ≤ s.outSize) (k : Nat) :
    ∃ t, copyLoop k s = .next t ∧ Produced P t ∧ t.opos = min (s.opos + k) s.outSize := by
  induction k generalizing s with
  | zero => exact ⟨s, rfl, h, by omega⟩
  | succ k ih =>
    unfold copyLoop
    by_cases hend : s.outSize ≤ s.opos
    · exact ⟨s, if_pos hend, h, by omega⟩
    · obtain ⟨v, read, hv⟩ := h (s.opos - s.dist) (by omega)
      obtain ⟨t, copied, produced, opos⟩ := ih (outPush_produced h hv) hd (Nat.le_succ_of_le hd') (Nat.not_le.mp hend)
      rw [if_neg hend, read]
      refine ⟨t, copied, produced, ?_⟩
      rw [opos, outPush_opos, outPush_outSize]
      omega

end

/-! ### Inside a run -/

/-- A state inside a run, with every byte below OPOS produced. -/
structure InRun (s : State) : Prop where
  running : ∃ region, s.activity = .run region
  opos_le : s.opos ≤ s.outSize
  produced : Produced (fun _ => True) s

theorem beginRun_inRun (region : Bool) (n : BitVec 24) (s : State) : InRun (beginRun region n s) where
  running := ⟨region, rfl⟩
  opos_le := Nat.zero_le _
  produced := beginRun_produced _ region n s

/-- How many elements the run takes at most: a flag byte and a token for each byte still to be produced, and END. One flag byte
is saved where a flag is left, and with no byte to produce END is all. -/
def elementsLeft (s : State) : Nat :=
  if s.outSize ≤ s.opos then 1 else if s.fcnt = 0 then 2 * (s.outSize - s.opos) + 1 else 2 * (s.outSize - s.opos)

theorem elementsLeft_pos (s : State) : 0 < elementsLeft s := by
  unfold elementsLeft
  split_ifs <;> omega

theorem elementsLeft_le (s : State) : elementsLeft s ≤ 2 * s.outSize + 1 := by
  unfold elementsLeft
  split_ifs <;> omega

section
variable {s t : State} (hsize : t.outSize = s.outSize) (hmore : s.opos < s.outSize)
include hsize hmore

/-- Loading flags where there are none and a byte is wanted saves one. -/
theorem elementsLeft_of_flags (hopos : t.opos = s.opos) (hnone : s.fcnt = 0) (hsome : t.fcnt ≠ 0) :
    elementsLeft t < elementsLeft s := by
  unfold elementsLeft
  rw [hsize, hopos, if_neg hsome, if_pos hnone, if_neg (by omega), if_neg (by omega)]
  omega

/-- So does producing a byte. -/
theorem elementsLeft_of_opos (hopos : s.opos < t.opos) : elementsLeft t < elementsLeft s := by
  unfold elementsLeft
  rw [hsize]
  split_ifs <;> omega

end

/-- What a token does: it ends the run, or the run goes on with at least one byte more. -/
def Grows (s t : State) : Prop := t.activity = .idle ∨ InRun t ∧ t.outSize = s.outSize ∧ s.opos < t.opos

/-- What an element of a run does: it ends the run, or the run goes on with fewer elements left. -/
def Advances (s t : State) : Prop := t.activity = .idle ∨ InRun t ∧ elementsLeft t < elementsLeft s

section
variable {s t : State} (h : InRun s)
include h

/-- Fetching leaves a state inside its run. -/
theorem Fetched.inRun (m : Fetched s t) : InRun t := by
  obtain ⟨running, opos_le, produced⟩ := h
  rw [m]
  exact ⟨running, opos_le, produced⟩

/-- END ends a run (R188). -/
theorem execEndRun_inRun : ∃ t, execEndRun s = .next t ∧ t.activity = .idle := by
  obtain ⟨region, ha⟩ := h.running
  cases region with
  | false => exact ⟨finishOk .none s, by rw [execEndRun, ha], rfl⟩
  | true => exact ⟨finishOk (.size s.dsize) s, by rw [execEndRun, ha], rfl⟩

/-- A literal produces one byte (R185). -/
theorem execLit_inRun (hmore : s.opos < s.outSize) (d : Byte) : ∃ t, execLit d s = .next t ∧ Grows s t :=
  have pushed : InRun (outPush d s) := ⟨h.running, hmore, outPush_produced h.produced trivial⟩
  ⟨outPush d s, if_pos hmore, .inr ⟨pushed, rfl, Nat.lt_succ_self _⟩⟩

/-- A back-reference raises, or produces at least one byte (R186, R187). -/
theorem execRef_inRun (hmore : s.opos < s.outSize) {len dist : Nat} (hlen : 0 < len) (hdist : 1 ≤ dist) :
    ∃ t, execRef len dist s = .next t ∧ Grows s t := by
  rcases execRef_cases len dist s with ⟨_, e⟩ | ⟨hle, e⟩
  · exact ⟨_, e, .inl rfl⟩
  · have selected : Produced (fun _ => True) { s with len := len, dist := dist } := h.produced
    obtain ⟨t, copied, produced, opos⟩ := copyLoop_produced selected hdist hle h.opos_le len
    have frame := (copyLoop_next copied).1
    have size : t.outSize = s.outSize := by rw [frame]
    have activity : t.activity = s.activity := by rw [frame]
    dsimp only at opos
    exact ⟨t, e.trans copied, .inr ⟨⟨activity ▸ h.running, by omega, produced⟩, size, by omega⟩⟩

/-- The token that a flag selects, once it has been fetched. -/
theorem execToken_inRun (hmore : s.opos < s.outSize) {e : Element} (l : RefLayout)
    (he : (∃ d, e = .lit d) ∨ ∃ r0 r1, e = decodeRef l r0 r1) : ∃ t, execElement e s = .next t ∧ Grows s t := by
  rcases he with ⟨d, rfl⟩ | ⟨r0, r1, rfl⟩
  · exact execLit_inRun h hmore d
  · exact execRef_inRun h hmore (Nat.succ_pos _) (Nat.succ_pos _)

/-- One element of a run, fetched and executed or failing to arrive. -/
theorem elementStep_inRun : ∃ t, elementStep s = .next t ∧ Advances s t := by
  obtain ⟨region, ha⟩ := h.running
  have fetch : fetchElement s = fetchRun s := by rw [fetchElement, ha]
  unfold elementStep
  cases hf : fetchElement s with
  | raise k u => exact ⟨raiseError k u, rfl, .inl rfl⟩
  | ok e u =>
    have fetched := fetchElement_ok hf
    have inRun := fetched.inRun h
    have opos : u.opos = s.opos := by rw [fetched]
    have size : u.outSize = s.outSize := by rw [fetched]
    rcases fetchRun_ok (fetch ▸ hf) with ⟨_, rfl, rfl⟩ | ⟨hmore, hnone, f, rfl, _⟩ | ⟨hmore, _, _, token⟩
    · obtain ⟨t, ended, idle⟩ := execEndRun_inRun h
      exact ⟨t, ended, .inl idle⟩
    · have loaded : InRun (loadFlags f u) := ⟨inRun.running, inRun.opos_le, inRun.produced⟩
      exact ⟨loadFlags f u, rfl, .inr ⟨loaded, elementsLeft_of_flags size hmore opos hnone (by simp)⟩⟩
    · obtain ⟨t, executed, idle | ⟨inRun', size', grown⟩⟩ :=
        execToken_inRun inRun (by omega) s.params.refLayout (token.imp And.right And.right)
      · exact ⟨t, executed, .inl idle⟩
      · exact ⟨t, executed, .inr ⟨inRun', elementsLeft_of_opos (size'.trans size) hmore (by omega)⟩⟩

/-- The element loop ends the run, given as many elements as are left at most. -/
theorem runElements_inRun {k : Nat} (hk : elementsLeft s ≤ k) : ∃ t, runElements k s = .next t ∧ t.activity = .idle := by
  induction k generalizing s with
  | zero => exact absurd hk (Nat.not_le.mpr (elementsLeft_pos s))
  | succ k ih =>
    obtain ⟨region, ha⟩ := h.running
    have busy : s.activity ≠ .idle := by simp [ha]
    obtain ⟨t, stepped, idle | ⟨inRun, fewer⟩⟩ := elementStep_inRun h
    · exact ⟨t, by rw [runElements_busy busy, stepped]; exact runElements_idle idle k, idle⟩
    · obtain ⟨u, ran, idle⟩ := ih inRun (by omega)
      exact ⟨u, by rw [runElements_busy busy, stepped]; exact ran, idle⟩

/-- A run ends within its bound (R183 Termination). -/
theorem completeRun_inRun : ∃ t, completeRun s = .next t ∧ t.activity = .idle :=
  runElements_inRun h (elementsLeft_le s)

end

/-! ### The element loop is a run of the machine -/

/-- One step and then the steps that follow, of any machine. -/
theorem coreRun_succ {M : Host.Core} {s t : M.State} (h : M.step s = .next t) (k : Nat) : M.run (k + 1) s = M.run k t := by
  rw [Host.Core.run, h]

/-- The element loop is at most as many steps as it has rounds (30_encoding.md R90). -/
theorem runElements_coreRun {k : Nat} {s t : State} (h : runElements k s = .next t) :
    ∃ j ≤ k, (Host.Core.run Sys2Proof.core j s : Outcome State Fault Refusal) = .next t := by
  induction k generalizing s with
  | zero => exact ⟨0, Nat.le_refl 0, h⟩
  | succ k ih =>
    by_cases ha : s.activity = .idle
    · rw [runElements_idle ha] at h
      exact ⟨0, Nat.zero_le _, h⟩
    · rw [runElements_busy ha] at h
      cases he : elementStep s with
      | next u =>
        rw [he] at h
        obtain ⟨j, hj, ran⟩ := ih h
        have stepped : Sys2Proof.core.step s = .next u := (step_eq_elementStep ha).trans he
        exact ⟨j + 1, Nat.succ_le_succ hj, (coreRun_succ stepped j).trans ran⟩
      | fault f => rw [he] at h; cases h
      | refused r => rw [he] at h; cases h

/-- Settles O12: LZRUN is the element loop from the beginning of its run, which ends within the bound. -/
theorem lzrunIsItsElements : Obligations.LzrunIsItsElements := by
  intro s n hs he
  obtain ⟨t, ran, idle⟩ := completeRun_inRun (beginRun_inRun false n s)
  have gate : exec (.lzrun n) s = completeRun (beginRun false n s) :=
    gated_of_ready (body := fun s => completeRun (beginRun false n s)) hs he
  obtain ⟨k, hk, reached⟩ := runElements_coreRun ran
  exact ⟨t, gate.trans ran, idle, k, hk, reached⟩

end Sys2Proof.Machine
end

section
/-! SUPPORT. Every host command leaves the block between commands (30_encoding.md R91): a command that reads no region ends with
its response, a header ends its command or begins a run, and a run ends. -/

namespace Sys2Proof.Machine

open Host (Outcome)

/-- A header of either layout is latched. -/
theorem execElement_header (l : HdrLayout) (o : Nat → Byte) (s : State) :
    ∃ typ size, execElement (decodeElement (.header l) o) s = latchHeader typ size s := by
  cases l with
  | table6 => exact ⟨hdrType (o 0), hdrSize6 (o 0) (o 1) (o 2), rfl⟩
  | word32 => exact ⟨hdrType (o 0), le24 (o 1) (o 2) (o 3), rfl⟩

/-- After its type check a header ends RHDR and begins the run of LZREG. -/
theorem afterHeader_rhdr {s : State} (ha : s.activity = .header false) : afterHeader s = finishOk (.size s.dsize) s := by
  rw [afterHeader, ha]

theorem afterHeader_lzreg {s : State} (ha : s.activity = .header true) : afterHeader s = beginRun true s.dsize s := by
  rw [afterHeader, ha]

theorem afterHeader_idle_or_inRun {s : State} {region : Bool} (ha : s.activity = .header region) :
    (afterHeader s).activity = .idle ∨ region = true ∧ InRun (afterHeader s) := by
  cases region with
  | false =>
    rw [afterHeader_rhdr ha]
    exact .inl rfl
  | true =>
    rw [afterHeader_lzreg ha]
    exact .inr ⟨rfl, beginRun_inRun true _ _⟩

/-- Where a command waits for a header, the element ends the command, or it is LZREG and its run begins. -/
theorem elementStep_header {s t : State} {region : Bool} (ha : s.activity = .header region) (h : elementStep s = .next t) :
    t.activity = .idle ∨ region = true ∧ InRun t := by
  have busy : s.activity ≠ .idle := by simp [ha]
  have site := nextSite_header ha
  cases hb : fetchBytes (siteBytes (nextSite s)) (beforeFetch s) with
  | raise k u =>
    rw [elementStep_of_fetchBytes_raise busy hb] at h
    cases h
    exact .inl rfl
  | ok bs u =>
    have moved : Moved s u := by
      have := (fetchBytes_ok hb).2
      rwa [beforeFetch, site] at this
    have activity : u.activity = .header region := by rw [moved]; exact ha
    obtain ⟨typ, size, latch⟩ := execElement_header s.params.hdrLayout (fun i => bs.getD i 0) u
    rw [elementStep_of_fetchBytes busy hb, site, latch] at h
    rcases latchHeader_cases typ size u with ⟨_, e⟩ | ⟨_, e⟩ <;> rw [e] at h <;> cases h
    · exact .inl rfl
    · exact afterHeader_idle_or_inRun activity

/-- From a state inside a run, or after a command that an error has ended, the element loop ends between commands. -/
theorem completeRun_idle {s t : State} (hs : s.activity = .idle ∨ InRun s) (h : completeRun s = .next t) :
    t.activity = .idle := by
  rcases hs with idle | inRun
  · rw [completeRun, runElements_idle idle] at h
    cases h
    exact idle
  · obtain ⟨u, ran, idle⟩ := completeRun_inRun inRun
    rw [ran] at h
    cases h
    exact idle

section
variable {s t : State}

/-- A command whose micro-operations ended has given its response. -/
theorem finish_idle {α : Type} {val : α → Value} {r : Res α} (h : finish val r = .next t) : t.activity = .idle := by
  rcases finish_next h with ⟨_, _, _, rfl⟩ | ⟨_, _, _, rfl⟩ <;> rfl

theorem parseAndRun_idle (h : parseAndRun s = .next t) : t.activity = .idle := by
  unfold parseAndRun at h
  split at h
  · next u hu => exact completeRun_idle ((elementStep_header rfl hu).imp id And.right) h
  · cases h
  · cases h

variable (ha : s.activity = .idle)
include ha

/-- The gate ends between commands where its body does. -/
theorem gated_idle {body : State → Outcome State Fault Refusal} (h : gated body s = .next t)
    (hbody : body s = .next t → t.activity = .idle) : t.activity = .idle := by
  rcases gated_cases body s with ⟨_, e⟩ | ⟨_, k, _, e⟩ | ⟨_, _, e⟩ <;> rw [e] at h
  · cases h; exact ha
  · cases h; exact ha
  · exact hbody h

theorem execBdec_idle {blk : Blk} (h : execBdec blk s = .next t) : t.activity = .idle := by
  unfold execBdec at h
  split at h <;> cases h
  · rfl
  · exact ha

theorem execBenc_idle {blk : Blk} (h : execBenc blk s = .next t) : t.activity = .idle := by
  unfold execBenc at h
  split at h
  · split at h <;> cases h
    · rfl
    · exact ha
  · cases h; exact ha

theorem execSaddr_idle {v : Variant} {ptr : Word} (h : execSaddr v ptr s = .next t) : t.activity = .idle := by
  unfold execSaddr at h
  split at h
  · cases h; exact ha
  · exact finish_idle h

theorem execRhdr_idle (h : execRhdr s = .next t) : t.activity = .idle :=
  gated_idle ha h fun hb => (elementStep_header rfl hb).resolve_right fun ⟨hr, _⟩ => by cases hr

theorem execLzrun_idle {n : BitVec 24} (h : execLzrun n s = .next t) : t.activity = .idle :=
  gated_idle ha h (completeRun_idle (.inr (beginRun_inRun false n s)))

theorem execLzreg_idle {v : Variant} {ptr : Word} (h : execLzreg v ptr s = .next t) : t.activity = .idle := by
  unfold execLzreg at h
  split at h
  · cases h; exact ha
  · split at h
    · cases h; rfl
    · exact parseAndRun_idle h

/-- Every host command runs to completion. -/
theorem exec_command_idle {i : Instr} (hi : i.site = .command) (h : exec i s = .next t) : t.activity = .idle := by
  cases i with
  | reset => cases h; rfl
  | kinit seed level => cases h; rfl
  | bdec blk => exact execBdec_idle ha h
  | benc blk => exact execBenc_idle ha h
  | saddr v ptr => exact execSaddr_idle ha h
  | gu8 => exact gated_idle (body := fun s => finish .u8 (nextByte s)) ha h finish_idle
  | gu16 => exact gated_idle (body := fun s => finish .u16 (nextU16 s)) ha h finish_idle
  | gu32 => exact gated_idle (body := fun s => finish .u32 (nextU32 s)) ha h finish_idle
  | rhdr => exact execRhdr_idle ha h
  | lzrun n => exact execLzrun_idle ha h
  | lzreg v ptr => exact execLzreg_idle ha h
  | hdr typ size => cases hi
  | hdrW32 typ ign size => cases hi
  | flg f => cases hi
  | lit d => cases hi
  | ref len dist => cases hi
  | endRun => cases hi

end

/-- Settles O13: a step between commands idles, refuses, or runs a host command. -/
theorem commandRunsToCompletion : Obligations.CommandRunsToCompletion := by
  intro s t ha h
  rw [step_eq_stepCommand ha] at h
  rcases stepCommand_cases s with e | ⟨q, e | ⟨i, hi, e⟩⟩ <;> rw [e] at h
  · cases h; exact ha
  · cases h; exact ha
  · exact exec_command_idle (s := { s with cmdq := q }) ha hi h

end Sys2Proof.Machine
end

section
/-! SUPPORT. Runs over a Plain region whose bytes are known: what each element does to the point that the run has reached
(42_lz77.md R181 to R188), and the region of 30_encoding.md R104 from its first byte to its last. -/

namespace Sys2Proof.Machine

open Host (Outcome)

/-! ### The bytes that come next in a Plain stream -/

/-- A Plain source that delivers the given bytes next; they lie below EXTENT and the last of them ends at `stop`. -/
structure StreamHolds (s : State) (bs : List Byte) (stop : Nat) : Prop where
  source : PlainSource s
  ends : spos s + bs.length = stop
  below : stop ≤ extentOf s
  holds : ∀ i, i < bs.length → srcByte s (spos s + i) = bs.getD i 0

section
variable {s t : State} {b : Byte} {bs rest : List Byte} {stop : Nat}

/-- The stream is that of the launch, SRCMEM and the source registers alone. -/
theorem StreamHolds.of_source (h : StreamHolds s bs stop)
    (e : t = { t with
      params := s.params, srcmem := s.srcmem, variant := s.variant, src := s.src, pos := s.pos, cache := s.cache }) :
    StreamHolds t bs stop := by
  obtain ⟨⟨plain, pos_le, image, delivered⟩, ends, below, holds⟩ := h
  rw [e]
  exact ⟨⟨plain, pos_le, image, delivered⟩, ends, below, holds⟩

/-- The first of them is delivered, and the others come next. -/
theorem StreamHolds.nextByte (h : StreamHolds s (b :: bs) stop) :
    ∃ t, nextByte s = .ok b t ∧ StreamHolds t bs stop ∧ Moved s t := by
  have ends := h.ends
  have below := h.below
  rw [List.length_cons] at ends
  obtain ⟨t, delivered, source, spos_succ, frame, _, _⟩ := h.source.next (by omega)
  have extent : extentOf t = extentOf s := by rw [frame]; rfl
  have bytes : ∀ a, srcByte t a = srcByte s a := by rw [frame]; exact fun a => rfl
  have first : srcByte s (spos s) = b := h.holds 0 (Nat.succ_pos _)
  refine ⟨t, first ▸ delivered, ⟨source, by omega, by omega, fun i hi => ?_⟩, by rw [frame]; rfl⟩
  rw [bytes, spos_succ, Nat.add_assoc, Nat.add_comm 1 i]
  exact h.holds (i + 1) (Nat.succ_lt_succ hi)

/-- Any number of the first of them. -/
theorem StreamHolds.fetchBytes (h : StreamHolds s (bs ++ rest) stop) :
    ∃ t, fetchBytes bs.length s = .ok bs t ∧ StreamHolds t rest stop ∧ Moved s t := by
  induction bs generalizing s with
  | nil => exact ⟨s, rfl, h, Moved.refl s⟩
  | cons b bs ih =>
    obtain ⟨u, first, h', moved⟩ := h.nextByte
    obtain ⟨t, others, h'', moved'⟩ := ih h'
    exact ⟨t, fetchBytes_succ_eq_ok.mpr ⟨b, u, bs, first, others, rfl⟩, h'', moved.trans moved'⟩

/-- Using a flag before the fetch leaves the stream. -/
theorem StreamHolds.beforeFetch (h : StreamHolds s bs stop) : StreamHolds (beforeFetch s) bs stop := by
  unfold Machine.beforeFetch
  split
  · exact h.of_source rfl
  · exact h.of_source rfl
  all_goals exact h

/-- Inside a command the element that comes next is executed. -/
theorem StreamHolds.elementStep (h : StreamHolds s (bs ++ rest) stop) (busy : s.activity ≠ .idle)
    (hlen : bs.length = siteBytes (nextSite s)) :
    ∃ t, elementStep s = execElement (decodeElement (nextSite s) fun i => bs.getD i 0) t
      ∧ StreamHolds t rest stop ∧ Moved (Machine.beforeFetch s) t := by
  obtain ⟨t, fetched, h', moved⟩ := h.beforeFetch.fetchBytes
  exact ⟨t, elementStep_of_fetchBytes busy (hlen ▸ fetched), h', moved⟩

end

/-- Attaching a Plain source at the first of them. -/
theorem attach_plain (ptr : Word) (s : State) :
    ∃ t, attach .plain ptr s = .ok () t ∧ PlainSource t ∧ spos t = ptr.toNat ∧ t.params = s.params ∧ t.srcmem = s.srcmem := by
  rcases attach_cases .plain ptr s with ⟨hv, _⟩ | ⟨hv, _⟩ | ⟨_, e⟩
  · cases hv
  · cases hv
  · have src : (BitVec.ofNat 32 ptr.toNat).toNat = ptr.toNat := src_toNat ptr.isLt
    refine ⟨_, e, ⟨rfl, Nat.zero_le 8, ?_, fun hp => absurd hp (Nat.lt_irrefl 0)⟩, src, rfl, rfl⟩
    show plainWindow s ptr.toNat = plainWindow s (BitVec.ofNat 32 ptr.toNat).toNat
    rw [src]

/-! ### The elements of a run -/

/-- How far the run of LZREG has come: the declared size, how many bytes have been produced, the flags that are left and how many
they are, and the bytes of the region still to be read. -/
structure RunPoint where
  size : BitVec 24
  produced : Nat
  flags : Byte
  fcnt : Nat
  rest : List Byte

/-- A state at a point of a run under HI4LEN whose region ends at `stop`; the bytes produced have a given property. -/
structure RunsAt (P : Byte → Prop) (stop : Nat) (p : RunPoint) (s : State) : Prop where
  activity : s.activity = .run true
  layout : s.params.refLayout = .hi4len
  dsize : s.dsize = p.size
  outSize : s.outSize = p.size.toNat
  opos : s.opos = p.produced
  flags : s.flags = p.flags
  fcnt : s.fcnt = p.fcnt
  bytes : Produced P s
  stream : StreamHolds s p.rest stop

section
variable {P : Byte → Prop} {stop : Nat} {p : RunPoint} {s t : State} (h : RunsAt P stop p s)
include h

theorem RunsAt.busy : s.activity ≠ .idle := by simp [h.activity]

/-- Reading bytes of the stream. -/
theorem RunsAt.moved {rest : List Byte} (m : Moved s t) (hs : StreamHolds t rest stop) :
    RunsAt P stop { p with rest := rest } t := by
  obtain ⟨activity, layout, dsize, outSize, opos, flags, fcnt, bytes, _⟩ := h
  rw [m] at hs ⊢
  exact ⟨activity, layout, dsize, outSize, opos, flags, fcnt, bytes, hs⟩

/-- Loading a flag byte. -/
theorem RunsAt.loadFlags (f : Byte) : RunsAt P stop { p with flags := f, fcnt := 8 } (loadFlags f s) :=
  { h with flags := rfl, fcnt := rfl, bytes := h.bytes, stream := h.stream.of_source rfl }

/-- Using a flag. -/
theorem RunsAt.useFlag : RunsAt P stop { p with flags := p.flags <<< 1, fcnt := p.fcnt - 1 } (useFlag s) :=
  { h with
    flags := by rw [useFlag_flags, h.flags]
    fcnt := by rw [useFlag_fcnt, h.fcnt]
    bytes := h.bytes
    stream := h.stream.of_source rfl }

/-- Producing a byte. -/
theorem RunsAt.outPush {d : Byte} (hd : P d) : RunsAt P stop { p with produced := p.produced + 1 } (outPush d s) :=
  { h with
    opos := by rw [outPush_opos, h.opos]
    bytes := outPush_produced h.bytes hd
    stream := h.stream.of_source rfl }

/-- A copy of bytes that have been produced. -/
theorem RunsAt.execRef {len dist : Nat} (hdist : 1 ≤ dist) (hle : dist ≤ p.produced) (hmore : p.produced ≤ p.size.toNat) :
    ∃ t, execRef len dist s = .next t ∧ t.len = len ∧ t.dist = dist
      ∧ RunsAt P stop { p with produced := min (p.produced + len) p.size.toNat } t := by
  obtain ⟨activity, layout, dsize, outSize, opos, flags, fcnt, bytes, stream⟩ := h
  rcases execRef_cases len dist s with ⟨hlt, _⟩ | ⟨_, e⟩
  · omega
  · have selected : Produced P { s with len := len, dist := dist } := bytes
    obtain ⟨t, copied, bytes', opos'⟩ :=
      copyLoop_produced selected hdist (show dist ≤ s.opos by omega) (show s.opos ≤ s.outSize by omega) len
    have frame := (copyLoop_next copied).1
    have stream' := stream.of_source (t := t) (by rw [frame])
    rw [opos, outSize] at opos'
    refine ⟨t, e.trans copied, by rw [frame], by rw [frame], ?_⟩
    exact
      { activity := by rw [frame]; exact activity
        layout := by rw [frame]; exact layout
        dsize := by rw [frame]; exact dsize
        outSize := by rw [frame]; exact outSize
        opos := opos'
        flags := by rw [frame]; exact flags
        fcnt := by rw [frame]; exact fcnt
        bytes := bytes'
        stream := stream' }

/-- END, with all bytes produced (R188). -/
theorem RunsAt.finished (hend : p.size.toNat ≤ p.produced) : elementStep s = .next (finishOk (.size p.size) s) := by
  have site : nextSite s = .finished := nextSite_finished h.activity (by rw [h.outSize, h.opos]; exact hend)
  have nothing : fetchBytes (siteBytes (nextSite s)) (beforeFetch s) = .ok [] s := by rw [beforeFetch, site]; rfl
  rw [elementStep_of_fetchBytes h.busy nothing, site, ← h.dsize]
  show execEndRun s = _
  rw [execEndRun, h.activity]

variable (hmore : p.produced < p.size.toNat)
include hmore

theorem RunsAt.more : s.opos < s.outSize := by
  rw [h.opos, h.outSize]
  exact hmore

/-- A flag byte, with no flag left (R184). -/
theorem RunsAt.flagByte {f : Byte} {rest : List Byte} (hrest : p.rest = f :: rest) (hnone : p.fcnt = 0) :
    ∃ t, elementStep s = .next t ∧ RunsAt P stop { p with flags := f, fcnt := 8, rest := rest } t := by
  have site : nextSite s = .flag := nextSite_flag h.activity (h.more hmore) (h.fcnt.trans hnone)
  have stream : StreamHolds s ([f] ++ rest) stop := by rw [List.singleton_append, ← hrest]; exact h.stream
  obtain ⟨u, executed, stream', moved⟩ := stream.elementStep h.busy (by rw [site]; rfl)
  rw [beforeFetch, site] at moved
  rw [site] at executed
  exact ⟨Machine.loadFlags f u, executed, (h.moved moved stream').loadFlags f⟩

/-- The token that the next flag selects, as it is executed (R184). -/
theorem RunsAt.token {site : Site} {bs rest : List Byte} (hrest : p.rest = bs ++ rest) (hsome : p.fcnt ≠ 0)
    (hsite : (if p.flags.getLsbD 7 then Site.backRef .hi4len else .literal) = site) (hlen : bs.length = siteBytes site) :
    ∃ t, elementStep s = execElement (decodeElement site fun i => bs.getD i 0) t
      ∧ RunsAt P stop { p with flags := p.flags <<< 1, fcnt := p.fcnt - 1, rest := rest } t := by
  have flag : nextFlag s = p.flags.getLsbD 7 := by rw [nextFlag, h.flags]
  have next : nextSite s = site := by
    rw [nextSite_token h.activity (h.more hmore) (h.fcnt ▸ hsome), flag, h.layout, hsite]
  have used : beforeFetch s = Machine.useFlag s := by
    rw [beforeFetch, next, ← hsite]
    cases p.flags.getLsbD 7 <;> rfl
  obtain ⟨t, executed, stream, moved⟩ := (hrest ▸ h.stream).elementStep h.busy (hlen.trans (by rw [next]))
  rw [used] at moved
  exact ⟨t, next ▸ executed, h.useFlag.moved moved stream⟩

/-- A literal, selected by a flag 0 (R184, R185). -/
theorem RunsAt.literal {d : Byte} {rest : List Byte} (hrest : p.rest = d :: rest) (hsome : p.fcnt ≠ 0)
    (hflag : p.flags.getLsbD 7 = false) (hd : P d) :
    ∃ t, elementStep s = .next t
      ∧ RunsAt P stop { p with produced := p.produced + 1, flags := p.flags <<< 1, fcnt := p.fcnt - 1, rest := rest } t := by
  obtain ⟨t, executed, runs⟩ := h.token hmore (site := .literal) (bs := [d]) hrest hsome (by rw [hflag]; rfl) rfl
  exact ⟨Machine.outPush d t, executed.trans (if_pos (runs.more hmore)), runs.outPush hd⟩

/-- A back-reference to bytes that have been produced, selected by a flag 1 (R184, R186, R187). -/
theorem RunsAt.backRef {r0 r1 : Byte} {rest : List Byte} (hrest : p.rest = r0 :: r1 :: rest) (hsome : p.fcnt ≠ 0)
    (hflag : p.flags.getLsbD 7 = true) {len dist : Nat} (href : decodeRef .hi4len r0 r1 = .ref len dist)
    (hdist : 1 ≤ dist) (hle : dist ≤ p.produced) :
    ∃ t, elementStep s = .next t ∧ t.len = len ∧ t.dist = dist
      ∧ RunsAt P stop { p with
          produced := min (p.produced + len) p.size.toNat, flags := p.flags <<< 1, fcnt := p.fcnt - 1, rest := rest } t := by
  obtain ⟨u, executed, runs⟩ :=
    h.token hmore (site := .backRef .hi4len) (bs := [r0, r1]) hrest hsome (by rw [hflag]; rfl) rfl
  have decoded : (decodeElement (.backRef .hi4len) fun i => [r0, r1].getD i 0) = .ref len dist := href
  obtain ⟨t, copied, hlen, hdist, runs'⟩ := runs.execRef (len := len) hdist hle hmore.le
  exact ⟨t, by rw [executed, decoded]; exact copied, hlen, hdist, runs'⟩

end

/-! ### A region -/

/-- The TABLE6 header of a region begins the run, if its type is 1 (R181, R182). -/
theorem StreamHolds.header {s : State} {b0 b1 b2 : Byte} {rest : List Byte} {stop : Nat}
    (h : StreamHolds s (b0 :: b1 :: b2 :: rest) stop) (ha : s.activity = .header true)
    (hl : s.params.hdrLayout = .table6) (hr : s.params.refLayout = .hi4len) (htype : hdrType b0 = 1) (P : Byte → Prop) :
    ∃ t, Machine.elementStep s = .next t
      ∧ RunsAt P stop { size := hdrSize6 b0 b1 b2, produced := 0, flags := 0, fcnt := 0, rest := rest } t := by
  have site : nextSite s = .header .table6 := hl ▸ nextSite_header ha
  obtain ⟨u, executed, stream, moved⟩ := h.elementStep (bs := [b0, b1, b2]) (by simp [ha]) (by rw [site]; rfl)
  rw [Machine.beforeFetch, site] at moved
  have activity : u.activity = .header true := by rw [moved]; exact ha
  have layout : u.params.refLayout = .hi4len := by rw [moved]; exact hr
  have latched : Machine.elementStep s
      = .next (beginRun true (hdrSize6 b0 b1 b2) { u with ctype := hdrType b0, dsize := hdrSize6 b0 b1 b2 }) := by
    rw [executed, site, ← afterHeader_lzreg (s := { u with ctype := hdrType b0, dsize := hdrSize6 b0 b1 b2 }) activity]
    exact if_pos htype
  exact ⟨_, latched, rfl, layout, rfl, rfl, rfl, rfl, rfl, beginRun_produced P _ _ _, stream.of_source rfl⟩

/-- A Plain region from its first byte on: LZREG attaches the source, reads the header and runs (R189). -/
theorem execLzreg_plain {s : State} {ptr : Word} {region rest : List Byte} {b0 b1 b2 : Byte}
    (hregion : region = b0 :: b1 :: b2 :: rest) (hl : s.params.hdrLayout = .table6) (hr : s.params.refLayout = .hi4len)
    (hx : ptr.toNat + region.length ≤ extentOf s)
    (hb : ∀ i, i < region.length → srcByte s (ptr.toNat + i) = region.getD i 0)
    (htype : hdrType b0 = 1) (P : Byte → Prop) :
    ∃ t, exec (.lzreg .plain ptr) s = completeRun t
      ∧ RunsAt P (ptr.toNat + region.length)
        { size := hdrSize6 b0 b1 b2, produced := 0, flags := 0, fcnt := 0, rest := rest } t := by
  obtain ⟨u, attached, source, at_ptr, params, srcmem⟩ := attach_plain ptr (clearOut 0 s)
  have extent : extentOf u = extentOf s := by rw [extentOf, params]; rfl
  have bytes : ∀ a, srcByte u a = srcByte s a := fun a => by rw [srcByte, srcmem]; rfl
  have stream : StreamHolds u region (ptr.toNat + region.length) :=
    ⟨source, by rw [at_ptr], extent ▸ hx, fun i hi => by rw [bytes, at_ptr]; exact hb i hi⟩
  have parsing : StreamHolds { u with activity := .header true } (b0 :: b1 :: b2 :: rest) (ptr.toNat + region.length) :=
    hregion ▸ stream.of_source rfl
  obtain ⟨t, header, runs⟩ := parsing.header rfl (params ▸ hl) (params ▸ hr) htype P
  refine ⟨t, ?_, runs⟩
  show execLzreg .plain ptr s = _
  simp only [execLzreg, needsKey, reduceCtorEq, decide_false, Bool.false_and, Bool.false_eq_true, if_false, attached,
    parseAndRun, header]

/-- One round of the element loop. -/
theorem runElements_of_elementStep {s t : State} (busy : s.activity ≠ .idle) (h : elementStep s = .next t) (k : Nat) :
    runElements (k + 1) s = runElements k t := by
  rw [runElements_busy busy, h]

/-- Settles O53: the run of the region is a flag byte, the literal 'A', a back-reference that copies five more, and END. All the
bytes produced are 0x41, for a copy keeps what is true of each byte produced. -/
theorem runLengthExample : Obligations.RunLengthExample := by
  intro s ptr hl hr hx hb
  obtain ⟨r0, begun, at0⟩ :=
    execLzreg_plain (region := [0x16, 0x00, 0x00, 0x40, 0x41, 0x20, 0x00]) rfl hl hr hx hb (by decide) (· = 0x41)
  change RunsAt _ _ ⟨6, 0, 0, 0, [0x40, 0x41, 0x20, 0x00]⟩ r0 at at0
  obtain ⟨r1, flagged, at1⟩ := at0.flagByte (by decide) rfl rfl
  change RunsAt _ _ ⟨6, 0, 0x40, 8, [0x41, 0x20, 0x00]⟩ r1 at at1
  obtain ⟨r2, literal, at2⟩ := at1.literal (by decide) rfl (by decide) (by decide) rfl
  change RunsAt _ _ ⟨6, 1, 0x80, 7, [0x20, 0x00]⟩ r2 at at2
  obtain ⟨r3, copied, len, dist, at3⟩ :=
    at2.backRef (by decide) rfl (by decide) (by decide) (len := 5) (dist := 1) (by decide) (by decide) (by decide)
  change RunsAt _ _ ⟨6, 6, 0, 6, []⟩ r3 at at3
  have ended := at3.finished (by decide)
  have run : completeRun r0 = .next (finishOk (.size 6) r3) :=
    calc completeRun r0 = runElements 13 r0 := by rw [completeRun, at0.outSize]; rfl
      _ = runElements 12 r1 := runElements_of_elementStep at0.busy flagged 12
      _ = runElements 11 r2 := runElements_of_elementStep at1.busy literal 11
      _ = runElements 10 r3 := runElements_of_elementStep at2.busy copied 10
      _ = runElements 9 (finishOk (.size 6) r3) := runElements_of_elementStep at3.busy ended 9
      _ = .next (finishOk (.size 6) r3) := runElements_idle rfl 9
  have bytes : ∀ i, i < 6 → outRead r3 i = some 0x41 := by
    intro i hi
    obtain ⟨v, read, rfl⟩ := at3.bytes i (by rw [at3.opos]; exact hi)
    exact read
  exact ⟨_, begun.trans run, rfl, at3.outSize, at3.opos, bytes, at3.fcnt, len, dist, at3.stream.ends⟩

end Sys2Proof.Machine
end

section
/-! SUPPORT. Blocks and their halves (40_cipher.md R125), and the laws of CIPH (R122): a block transform of REF-K1 is undone by
the rounds with the round entries in reverse order, and the unspecified CIPH has the laws by its construction. -/

namespace Sys2Proof.Machine

/-! ### Halves of a block -/

@[simp] theorem blkHalf0_blkOfHalves (o0 o1 : Word) : blkHalf0 (blkOfHalves o0 o1) = o0 := le32_wordByte o0

@[simp] theorem blkHalf1_blkOfHalves (o0 o1 : Word) : blkHalf1 (blkOfHalves o0 o1) = o1 := le32_wordByte o1

@[simp] theorem blkOfHalves_halves (b : Blk) : blkOfHalves (blkHalf0 b) (blkHalf1 b) = b := by
  simp [blkOfHalves, blkHalf0, blkHalf1]

/-- Settles O27: each half takes its four bytes in order, and `le32` and `bytes_le32` undo each other. -/
theorem blockByteOrder : Obligations.BlockByteOrder :=
  ⟨fun _ => ⟨rfl, rfl⟩, fun _ _ => rfl, fun o0 o1 => ⟨blkHalf0_blkOfHalves o0 o1, blkHalf1_blkOfHalves o0 o1⟩,
    blkOfHalves_halves⟩

/-! ### The rounds of REF-K1 -/

/-- Rounds with some entries and then some more. -/
theorem refRoundsOver_append (k : Key) (is js : List Nat) (r : Acc) :
    refRoundsOver k (is ++ js) r = refRoundsOver k js (refRoundsOver k is r) := by
  induction is generalizing r with
  | nil => rfl
  | cons i is ih => exact ih (refRound k i r)

/-- Accumulators r' on the way back where r stands on the way forth, before the round with entry e j: X and Y are exchanged,
and each is under the round entry that undoing the round before, or the output, takes off it. -/
def Mirrors (k : Key) (e : Nat → Nat) (j : Nat) (r r' : Acc) : Prop :=
  r'.a0 = r.a1 ^^^ keyWordAt k (e (j + 1)) ∧ r'.a1 = r.a0 ^^^ keyWordAt k (e j)

/-- The round with entry e (j + 2) on the way back undoes the round with entry e j. -/
theorem Mirrors.refRound {k : Key} {e : Nat → Nat} {j : Nat} {r r' : Acc}
    (h : Mirrors k e (j + 1) (refRound k (e j) r) r') : Mirrors k e j r (refRound k (e (j + 2)) r') := by
  obtain ⟨x, y⟩ := h
  have z : keyWordAt k (e (j + 2)) ^^^ r'.a0 = keyWordAt k (e j) ^^^ r.a0 := by
    rw [x, BitVec.xor_comm, BitVec.xor_assoc, BitVec.xor_self, BitVec.xor_zero]
    rfl
  constructor
  · show refF k (keyWordAt k (e (j + 2)) ^^^ r'.a0) ^^^ r'.a1 = _
    rw [z, y]
    show refF k _ ^^^ (refF k _ ^^^ r.a1 ^^^ _) = _
    rw [BitVec.xor_assoc, ← BitVec.xor_assoc, BitVec.xor_self, BitVec.zero_xor]
  · exact z.trans (BitVec.xor_comm _ _)

/-- The rounds with entries e 0, ..., e (n - 1) are undone by those with entries e (n + 1), ..., e 2. -/
theorem Mirrors.refRoundsOver {k : Key} {e : Nat → Nat} {n : Nat} {r r' : Acc}
    (h : Mirrors k e n (refRoundsOver k ((List.range n).map e) r) r') :
    Mirrors k e 0 r (refRoundsOver k ((List.range n).map fun j => e (n + 1 - j)) r') := by
  induction n generalizing r' with
  | zero => exact h
  | succ n ih =>
    have forth : Machine.refRoundsOver k ((List.range (n + 1)).map e) r
        = Machine.refRound k (e n) (Machine.refRoundsOver k ((List.range n).map e) r) := by
      rw [List.range_succ, List.map_append, refRoundsOver_append]
      rfl
    have back : (List.range (n + 1)).map (fun j => e (n + 1 + 1 - j))
        = e (n + 2) :: (List.range n).map fun j => e (n + 1 - j) := by
      rw [List.range_succ_eq_map, List.map_cons, List.map_map]
      congr 2
      funext j
      exact congrArg e (Nat.add_sub_add_right (n + 1) 1 j)
    rw [forth] at h
    rw [back]
    exact ih h.refRound

/-- The two word transforms of REF-K1 are one: rounds with the entries e 0, ..., e 15, and e 16 and e 17 on the results. -/
def refWords (e : Nat → Nat) (k : Key) (w0 w1 : Word) : (Word × Word) × Acc :=
  let r := refRoundsOver k ((List.range refRounds).map e) ⟨w1, w0, 0, 0⟩
  ((r.a0 ^^^ keyWordAt k (e refRounds), r.a1 ^^^ keyWordAt k (e (refRounds + 1))), r)

/-- Encryption takes the round entries in order (R132). -/
theorem enc64_eq : enc64 = refWords id := by
  funext k w0 w1
  rw [refWords, List.map_id]
  rfl

/-- Decryption takes them in reverse order (R133). -/
theorem dec64_eq : dec64 = refWords fun j => refRounds + 1 - j := rfl

/-- The transform with the entries in one order is undone by the transform with the entries in the reverse order. -/
theorem refWords_refWords {e e' : Nat → Nat} (he : ∀ j ≤ refRounds + 1, e' j = e (refRounds + 1 - j)) (k : Key)
    (w0 w1 : Word) : (refWords e' k (refWords e k w0 w1).1.1 (refWords e k w0 w1).1.2).1 = (w0, w1) := by
  have entries : (List.range refRounds).map e' = (List.range refRounds).map fun j => e (refRounds + 1 - j) :=
    List.map_congr_left fun j hj => he j (Nat.le_succ_of_le (List.mem_range.mp hj).le)
  obtain ⟨x, y⟩ : Mirrors k e 0 ⟨w1, w0, 0, 0⟩ (refWords e' k (refWords e k w0 w1).1.1 (refWords e k w0 w1).1.2).2 := by
    rw [refWords, entries]
    exact Mirrors.refRoundsOver ⟨rfl, rfl⟩
  have out0 : e' refRounds = e 1 := he _ (Nat.le_succ _)
  have out1 : e' (refRounds + 1) = e 0 := he _ (Nat.le_refl _)
  have undo : ∀ w m : Word, w ^^^ m ^^^ m = w := fun w m => by rw [BitVec.xor_assoc, BitVec.xor_self, BitVec.xor_zero]
  refine Prod.ext ?_ ?_
  · exact (congrArg₂ (· ^^^ ·) x (congrArg (keyWordAt k) out0)).trans (undo w0 _)
  · exact (congrArg₂ (· ^^^ ·) y (congrArg (keyWordAt k) out1)).trans (undo w1 _)

theorem dec64_enc64 (k : Key) (w0 w1 : Word) : (dec64 k (enc64 k w0 w1).1.1 (enc64 k w0 w1).1.2).1 = (w0, w1) := by
  rw [enc64_eq, dec64_eq]
  exact refWords_refWords (e := id) (e' := fun j => refRounds + 1 - j) (fun _ _ => rfl) k w0 w1

theorem enc64_dec64 (k : Key) (w0 w1 : Word) : (enc64 k (dec64 k w0 w1).1.1 (dec64 k w0 w1).1.2).1 = (w0, w1) := by
  rw [enc64_eq, dec64_eq]
  exact refWords_refWords (fun _ hj => (Nat.sub_sub_self hj).symm) k w0 w1

/-- A word transform that undoes another does so on blocks. -/
theorem refBlk_refBlk {f g : Key → Word → Word → (Word × Word) × Acc} {k : Key}
    (h : ∀ w0 w1, (g k (f k w0 w1).1.1 (f k w0 w1).1.2).1 = (w0, w1)) (b : Blk) :
    (refBlk g k (refBlk f k b).1).1 = b := by
  simp only [refBlk, blkHalf0_blkOfHalves, blkHalf1_blkOfHalves, h, blkOfHalves_halves]

/-! ### The laws of CIPH -/

/-- No transform of REF-K1 reads the incoming accumulators, so no sequence of them tells any two values apart (R134). -/
theorem refK1_sameToLater (m : Nat) (k : Key) (a1 a2 : Acc) : SameToLater (refK1 m) k a1 a2 := by
  intro bs
  cases bs with
  | nil => rfl
  | cons b bs => obtain ⟨_ | _, b⟩ := b <;> rfl

theorem refK1_lawful (m : Nat) : (refK1 m).Lawful :=
  ⟨fun k _ => refBlk_refBlk (dec64_enc64 k), fun k _ => refBlk_refBlk (enc64_dec64 k),
    fun k _ _ => refK1_sameToLater m k _ _⟩

/-- The unspecified CIPH: its block results are inverse bijections, and after the encryption of a plain block as after the
decryption to it the accumulators are in the same class. -/
theorem unspecifiedCiph_lawful : unspecifiedCiph.Lawful := by
  have decEnc : ∀ k a b, (freeBlkDec k a (freeBlkEnc k a b).1).1 = b := fun k a b => by
    rw [freeBlkEnc_block, freeBlkDec_block, Equiv.symm_apply_apply]
  have encDec : ∀ k a b, (freeBlkEnc k a (freeBlkDec k a b).1).1 = b := fun k a b => by
    rw [freeBlkDec_block, freeBlkEnc_block, Equiv.apply_symm_apply]
  refine ⟨decEnc, encDec, fun k a b => sameToLater_of_class ?_⟩
  show Config.accClass k (freeBlkEnc k a b).2 = Config.accClass k (freeBlkDec k a (freeBlkEnc k a b).1).2
  rw [freeBlkEnc_class, freeBlkDec_class, decEnc]

theorem ciphOf_lawful (p : Params) : (ciphOf p).Lawful := by
  unfold ciphOf
  split
  · exact refK1_lawful _
  · exact unspecifiedCiph_lawful

/-- Settles O21: the Feistel rounds of REF-K1 undo each other, and a launch holds REF-K1 or the unspecified CIPH. -/
theorem refCipherLawful : Obligations.RefCipherLawful := ⟨refK1_lawful, ciphOf_lawful⟩

end Sys2Proof.Machine
end

section
/-! SUPPORT. The cipher commands with all that they change (40_cipher.md R123, R124, R128). -/

namespace Sys2Proof.Machine

open Host (Outcome)

/-! ### KINIT -/

/-- The key and the scratch after each iteration of `ks_mix`, the first of them numbered 1. -/
def ksTrace (c : Ciph) (k : Key) (u : List Word) : Nat → Key × List Word
  | 0 => (k, u)
  | j + 1 => c.ksMix (ksTrace c k u j).1 (ksTrace c k u j).2 (j + 1)

/-- Iterations that go on after j of them. -/
theorem ksIterate_ksTrace (c : Ciph) (k : Key) (u : List Word) (n j : Nat) :
    ksIterate c n (j + 1) (ksTrace c k u j).1 (ksTrace c k u j).2 = (ksTrace c k u (j + n)).1 := by
  induction n generalizing j with
  | zero => rfl
  | succ n ih => exact (ih (j + 1)).trans (by rw [Nat.add_right_comm, Nat.add_assoc])

/-- The key schedule is the key after `level` iterations. -/
theorem keySchedule_eq_ksTrace (s : State) (seed : Word) (level : Byte) :
    keySchedule s seed level
      = (ksTrace (ciphOf s.params) (keyTable s) ((ciphOf s.params).auxInit seed) level.toNat).1 := by
  rw [← Nat.zero_add level.toNat, ← ksIterate_ksTrace, Nat.zero_add]
  rfl

/-- The key schedule depends on the launch and KEYROM alone (L1 of R122). -/
theorem keySchedule_congr {s t : State} (hp : t.params = s.params) (hk : t.keyrom = s.keyrom) (seed : Word) (level : Byte) :
    keySchedule t seed level = keySchedule s seed level := by
  rw [keySchedule, keySchedule, keyTable, keyTable, hp, hk]

/-- Completing a command between commands writes the response alone. -/
theorem finishOk_of_idle {s : State} (h : s.activity = .idle) (v : Value) : finishOk v s = { s with resp := some (.ok v) } := by
  rw [finishOk, respond, ← h]

/-- KINIT is never refused (R123). -/
theorem exec_kinit (seed : Word) (level : Byte) (s : State) :
    exec (.kinit seed level) s = .next (finishOk .none { s with
      ks := keySchedule s seed level
      acc := (ciphOf s.params).accInit (keySchedule s seed level) seed level
      krdy := true }) := rfl

/-- Settles O16: the iterations of the key schedule are those of its trace. -/
theorem kinitKeySchedule : Obligations.KinitKeySchedule := by
  intro s seed level ha
  refine ⟨ksTrace (ciphOf s.params) (keyTable s) ((ciphOf s.params).auxInit seed), rfl, fun _ => rfl, ?_⟩
  rw [exec_kinit, finishOk_of_idle (by exact ha), keySchedule_eq_ksTrace]

/-- Settles O17: without an iteration the key is KEYTABLE, whose words are those of KEYROM. -/
theorem kinitLevelZero : Obligations.KinitLevelZero := by
  intro s seed
  refine ⟨_, exec_kinit seed 0 s, keySchedule_length s seed 0, fun i hi => ?_⟩
  show (keyTable s).getD i 0 = keyRom s.keyrom i
  simp [keyTable, List.getD_eq_getElem?_getD, hi]

/-- The key and the accumulators after KINIT are the same from every state of a launch with the same KEYROM (L1 of R122). -/
theorem exec_kinit_of_launch {s t : State} (hp : t.params = s.params) (hk : t.keyrom = s.keyrom) (seed : Word) (level : Byte) :
    ∃ u, exec (.kinit seed level) t = .next u ∧ u.ks = keySchedule s seed level
      ∧ u.acc = (ciphOf s.params).accInit (keySchedule s seed level) seed level ∧ u.krdy = true
      ∧ u.params = s.params ∧ u.keyrom = s.keyrom := by
  refine ⟨_, exec_kinit seed level t, keySchedule_congr hp hk seed level, ?_, rfl, hp, hk⟩
  rw [finishOk_acc, hp, keySchedule_congr hp hk]

/-- Settles O18: either state is one of the launch and the KEYROM of the other. -/
theorem kinitForgetsEarlierState : Obligations.KinitForgetsEarlierState := by
  intro s s' seed level hp hk
  obtain ⟨t, e, ks, acc, krdy, _, _⟩ := exec_kinit_of_launch hp hk seed level
  obtain ⟨t', e', ks', acc', krdy', _, _⟩ := exec_kinit_of_launch (s := s') rfl rfl seed level
  exact ⟨t, t', e, e', ks.trans ks'.symm, acc.trans acc'.symm, krdy, krdy'⟩

/-! ### BDEC and BENC -/

/-- BDEC with a key. -/
theorem exec_bdec {s : State} (hk : s.krdy = true) (b : Blk) :
    exec (.bdec b) s = blockCommand (ciphOf s.params).blkDec b s := if_pos hk

/-- BENC with a key, where the hardware has it. -/
theorem exec_benc {s : State} (hb : s.params.hasBenc = true) (hk : s.krdy = true) (b : Blk) :
    exec (.benc b) s = blockCommand (ciphOf s.params).blkEnc b s := (if_pos hb).trans (if_pos hk)

/-- Between commands a block transform writes ACC and the response alone. -/
theorem blockCommand_of_idle {s : State} (ha : s.activity = .idle) (f : Key → Acc → Blk → Blk × Acc) (b : Blk) :
    blockCommand f b s
      = .next { s with acc := (f s.ks s.acc b).2, resp := some (.ok (.block (f s.ks s.acc b).1)) } :=
  congrArg Outcome.next (finishOk_of_idle (s := { s with acc := (f s.ks s.acc b).2 }) ha _)

/-- Settles O19: with a key BDEC is not refused. -/
theorem bdecResult : Obligations.BdecResult := fun _ b ha hk => (exec_bdec hk b).trans (blockCommand_of_idle ha _ b)

/-- Settles O20: with a key, and with HAS_BENC, BENC is not refused. -/
theorem bencResult : Obligations.BencResult := fun _ b ha hb hk =>
  (exec_benc hb hk b).trans (blockCommand_of_idle ha _ b)

/-- A block transform responds its block, and leaves the launch and KEYROM. -/
theorem blockCommand_resp (f : Key → Acc → Blk → Blk × Acc) (b : Blk) (s : State) :
    ∃ t, blockCommand f b s = .next t ∧ t.resp = some (.ok (.block (f s.ks s.acc b).1)) ∧ t.params = s.params
      ∧ t.keyrom = s.keyrom := ⟨_, rfl, rfl, rfl, rfl⟩

/-- Settles O22: the second KINIT gives the key and the accumulators of the first, so BDEC undoes BENC by the laws of CIPH. -/
theorem encryptThenDecrypt : Obligations.EncryptThenDecrypt := by
  intro s seed level b hb
  obtain ⟨decEnc, _, _⟩ := ciphOf_lawful s.params
  obtain ⟨s1, e1, ks1, acc1, krdy1, params1, keyrom1⟩ := exec_kinit_of_launch (t := s) rfl rfl seed level
  obtain ⟨s2, e2, resp2, params2, keyrom2⟩ := blockCommand_resp (ciphOf s1.params).blkEnc b s1
  obtain ⟨s3, e3, ks3, acc3, krdy3, params3, _⟩ :=
    exec_kinit_of_launch (params2.trans params1) (keyrom2.trans keyrom1) seed level
  obtain ⟨t, e4, resp4, _, _⟩ := blockCommand_resp (ciphOf s3.params).blkDec _ s3
  refine ⟨s1, s2, s3, t, _, e1, (exec_benc (by rwa [params1]) krdy1 b).trans e2, resp2, e3,
    (exec_bdec krdy3 _).trans e4, ?_⟩
  rw [resp4, params3, ks3, acc3, params1, ks1, acc1, decEnc]

end Sys2Proof.Machine
end

section
/-! SUPPORT. What no instruction looks at has no influence but on itself, said once for ACC and SRCMEM: two states that differ
there alone, in a way that neither a window of SRCMEM nor a block transform shows, stay so under every instruction. -/

namespace Sys2Proof.Machine

open Host (Outcome)

/-- States of a launch that differ in ACC and SRCMEM alone, whose values there a relation holds between. -/
def Twin (p : Params) (E : Acc × Memory → Acc × Memory → Prop) (s t : State) : Prop :=
  ∃ a m, t = { s with acc := a, srcmem := m } ∧ s.params = p ∧ E (s.acc, s.srcmem) (a, m)

/-- Neither the windows of SRCMEM nor the block transforms of a launch tell related values apart, and what is written to ACC
keeps them related. -/
structure Unobserved (p : Params) (E : Acc × Memory → Acc × Memory → Prop) : Prop where
  window : ∀ {x y}, E x y → ∀ b < extentBytes p.extent, memRead srcDefault x.2 b = memRead srcDefault y.2 b
  written : ∀ {x y}, E x y → ∀ a, E (a, x.2) (a, y.2)
  dec : ∀ {x y}, E x y → ∀ k b, ((ciphOf p).blkDec k x.1 b).1 = ((ciphOf p).blkDec k y.1 b).1
    ∧ E (((ciphOf p).blkDec k x.1 b).2, x.2) (((ciphOf p).blkDec k y.1 b).2, y.2)
  enc : ∀ {x y}, E x y → ∀ k b, ((ciphOf p).blkEnc k x.1 b).1 = ((ciphOf p).blkEnc k y.1 b).1
    ∧ E (((ciphOf p).blkEnc k x.1 b).2, x.2) (((ciphOf p).blkEnc k y.1 b).2, y.2)

/-- The same value delivered, or the same error raised, in related states. -/
inductive ResRel (R : State → State → Prop) {α : Type} : Res α → Res α → Prop
  | ok {s t : State} (a : α) (h : R s t) : ResRel R (.ok a s) (.ok a t)
  | raise {s t : State} (k : ErrKind) (h : R s t) : ResRel R (.raise k s) (.raise k t)

/-- Related next states, or the same stop. -/
inductive OutRel (R : State → State → Prop) : Outcome State Fault Refusal → Outcome State Fault Refusal → Prop
  | next {s t : State} (h : R s t) : OutRel R (.next s) (.next t)
  | fault (f : Fault) : OutRel R (.fault f) (.fault f)
  | refused (r : Refusal) : OutRel R (.refused r) (.refused r)

/-- One micro-operation after another. -/
theorem resBind_rel {R : State → State → Prop} {α β : Type} {r r' : Res α} {f : α → State → Res β}
    (h : ResRel R r r') (hf : ∀ a s t, R s t → ResRel R (f a s) (f a t)) : ResRel R (resBind r f) (resBind r' f) := by
  cases h with
  | ok a h => exact hf a _ _ h
  | raise k h => exact .raise k h

section
variable {p : Params} {E : Acc × Memory → Acc × Memory → Prop}

variable {s t : State} (h : Twin p E s t)
include h

/-- What does not depend on ACC and SRCMEM is the same in twins. -/
theorem Twin.same {β : Type} (f : State → β) (indep : ∀ a m, f { s with acc := a, srcmem := m } = f s := by intros; rfl) :
    f t = f s := by
  obtain ⟨a, m, rfl, _, _⟩ := h
  exact indep a m

/-- An update that neither reads nor writes the launch, ACC and SRCMEM keeps twins. -/
theorem Twin.map (f : State → State)
    (comm : ∀ a m, f { s with acc := a, srcmem := m } = { f s with acc := a, srcmem := m } := by intros; rfl)
    (params : (f s).params = s.params := by rfl) (acc : (f s).acc = s.acc := by rfl)
    (srcmem : (f s).srcmem = s.srcmem := by rfl) : Twin p E (f s) (f t) := by
  obtain ⟨a, m, rfl, hp, hE⟩ := h
  exact ⟨a, m, comm a m, params.trans hp, by rwa [acc, srcmem]⟩

omit h in
/-- A command's end keeps twins. -/
theorem finish_twin {α : Type} (val : α → Value) {r r' : Res α} (hr : ResRel (Twin p E) r r') :
    OutRel (Twin p E) (finish val r) (finish val r') := by
  cases hr with
  | ok a h => exact .next (h.map (finishOk (val a)))
  | raise k h => exact .next (h.map (raiseError k))

theorem beforeFetch_twin : Twin p E (beforeFetch s) (beforeFetch t) := by
  unfold beforeFetch
  rw [h.same nextSite]
  cases nextSite s with
  | literal => exact h.map useFlag
  | backRef l => exact h.map useFlag
  | command => exact h
  | header l => exact h
  | flag => exact h
  | finished => exact h

/-- The gate answers twins alike, where its body does. -/
theorem gated_twin (body : State → Outcome State Fault Refusal) (hbody : OutRel (Twin p E) (body s) (body t)) :
    OutRel (Twin p E) (gated body s) (gated body t) := by
  unfold gated
  rw [h.same State.srdy, h.same State.err]
  split
  · split
    · exact .next (h.map (respond _))
    · exact hbody
  · exact .next (h.map refuse)

/-! ### Elements once fetched -/

theorem afterHeader_twin : Twin p E (afterHeader s) (afterHeader t) := by
  unfold afterHeader
  rw [h.same State.activity, h.same State.dsize]
  split
  · exact h.map (finishOk (.size s.dsize))
  · exact h.map (beginRun true s.dsize)
  · exact h
  · exact h

theorem latchHeader_twin (typ : BitVec 4) (size : BitVec 24) :
    OutRel (Twin p E) (latchHeader typ size s) (latchHeader typ size t) := by
  have latched := h.map fun s => { s with ctype := typ, dsize := size }
  unfold latchHeader
  dsimp only
  split
  · exact .next (afterHeader_twin latched)
  · exact .next (latched.map (raiseError .unsupportedCompressionType))

theorem execLit_twin (d : Byte) : OutRel (Twin p E) (execLit d s) (execLit d t) := by
  unfold execLit
  rw [h.same State.opos, h.same State.outSize]
  split
  · exact .next (h.map (outPush d))
  · exact .fault _

theorem copyLoop_twin (k : Nat) : OutRel (Twin p E) (copyLoop k s) (copyLoop k t) := by
  induction k generalizing s t with
  | zero => exact .next h
  | succ k ih =>
    unfold copyLoop
    rw [h.same fun s => outRead s (s.opos - s.dist), h.same State.outSize, h.same State.opos]
    split
    · exact .next h
    · split
      · exact ih (h.map (outPush _))
      · exact .fault _

theorem execRef_twin (len dist : Nat) : OutRel (Twin p E) (execRef len dist s) (execRef len dist t) := by
  have latched := h.map fun s => { s with len := len, dist := dist }
  have opos := h.same State.opos
  rcases execRef_cases len dist s with ⟨hd, e⟩ | ⟨hd, e⟩ <;>
    rcases execRef_cases len dist t with ⟨hd', e'⟩ | ⟨hd', e'⟩
  · rw [e, e']
    exact .next (latched.map (raiseError .backReferenceOutOfRange))
  · omega
  · omega
  · rw [e, e']
    exact copyLoop_twin latched len

theorem execEndRun_twin : OutRel (Twin p E) (execEndRun s) (execEndRun t) := by
  unfold execEndRun
  rw [h.same State.activity, h.same State.dsize]
  split
  · exact .next (h.map (finishOk .none))
  · exact .next (h.map (finishOk (.size s.dsize)))
  · exact .next h
  · exact .next h

/-- Every stream element, once fetched, keeps twins. -/
theorem execElement_twin (e : Element) : OutRel (Twin p E) (execElement e s) (execElement e t) := by
  cases e with
  | hdr typ size => exact latchHeader_twin h typ size
  | hdrW32 typ ign size => exact latchHeader_twin h typ size
  | flg f => exact .next (h.map (loadFlags f))
  | lit d => exact execLit_twin h d
  | ref len dist => exact execRef_twin h len dist
  | endRun => exact execEndRun_twin h

/-! ### The byte source -/

/-- Delivering a byte reads neither ACC nor SRCMEM. -/
theorem deliver_twin : ResRel (Twin p E) (deliver s) (deliver t) := by
  have beyond := h.same fun s => s.variant = .plain ∧ extentOf s ≤ spos s
  unfold deliver
  by_cases hx : s.variant = .plain ∧ extentOf s ≤ spos s
  · rw [if_pos hx, if_pos (beyond.mpr hx)]
    exact .raise _ h
  · rw [if_neg hx, if_neg fun hx' => hx (beyond.mp hx'), h.same fun s => blkGet s.cache s.pos]
    exact .ok _ (h.map fun s => { s with pos := s.pos + 1 })

variable (hU : Unobserved p E)
include hU

/-- Below EXTENT twins read the same bytes. -/
theorem Twin.srcByte_eq {b : Nat} (hb : b < extentOf s) : srcByte t b = srcByte s b := by
  obtain ⟨a, m, rfl, rfl, hE⟩ := h
  rw [srcByte, srcByte, ← hU.window hE b hb]

/-- No window of a Plain fill shows what stands at or beyond EXTENT. -/
theorem Twin.plainWindow_eq (a : Nat) : plainWindow t a = plainWindow s a := by
  refine blk_ext fun i hi => ?_
  rw [plainWindow, plainWindow, blkGet_blkOfFn _ hi, blkGet_blkOfFn _ hi, h.same extentOf]
  split
  · next hb => exact h.srcByte_eq hU hb
  · rfl

theorem Twin.rawWindow_eq {a : Nat} (ha : a + 8 ≤ extentOf s) : rawWindow t a = rawWindow s a := by
  refine blk_ext fun i hi => ?_
  rw [rawWindow, rawWindow, blkGet_blkOfFn _ hi, blkGet_blkOfFn _ hi]
  exact h.srcByte_eq hU (by omega)

/-- A fill gives twins the same window: an Encrypted one is inside SRCMEM, and its decryption does not tell them apart. -/
theorem fill_twin (a : Nat) : ResRel (Twin p E) (fill a s) (fill a t) := by
  have variant := h.same State.variant
  have extent := h.same extentOf
  rcases fill_cases a s with ⟨hv, hx, e⟩ | ⟨hv, hx, e⟩ | ⟨hv, e⟩ <;>
    rcases fill_cases a t with ⟨hv', hx', e'⟩ | ⟨hv', hx', e'⟩ | ⟨hv', e'⟩ <;>
    rw [variant, hv] at hv' <;> try cases hv'
  · rw [e, e']
    exact .raise _ h
  · omega
  · omega
  · rw [e, e', h.rawWindow_eq hU hx]
    obtain ⟨c, m, rfl, rfl, hE⟩ := h
    obtain ⟨block, related⟩ := hU.dec hE s.ks (rawWindow s a)
    rw [← block]
    exact .ok () ⟨_, m, rfl, rfl, related⟩
  · rw [e, e', h.plainWindow_eq hU a]
    exact .ok () (h.map (setWindow a (plainWindow s a)))

theorem nextByte_twin : ResRel (Twin p E) (nextByte s) (nextByte t) := by
  refine resBind_rel ?_ fun _ _ _ h => deliver_twin h
  unfold refill
  rw [h.same State.pos, h.same State.src]
  split
  · exact fill_twin h hU _
  · exact .ok () h

theorem nextU16_twin : ResRel (Twin p E) (nextU16 s) (nextU16 t) :=
  resBind_rel (nextByte_twin h hU) fun _ _ _ h1 => resBind_rel (nextByte_twin h1 hU) fun _ _ _ h2 => .ok _ h2

theorem nextU32_twin : ResRel (Twin p E) (nextU32 s) (nextU32 t) :=
  resBind_rel (nextByte_twin h hU) fun _ _ _ h1 => resBind_rel (nextByte_twin h1 hU) fun _ _ _ h2 =>
    resBind_rel (nextByte_twin h2 hU) fun _ _ _ h3 => resBind_rel (nextByte_twin h3 hU) fun _ _ _ h4 => .ok _ h4

theorem fetchBytes_twin (k : Nat) : ResRel (Twin p E) (fetchBytes k s) (fetchBytes k t) := by
  induction k generalizing s t with
  | zero => exact .ok [] h
  | succ k ih => exact resBind_rel (nextByte_twin h hU) fun _ _ _ h1 => resBind_rel (ih h1) fun _ _ _ h2 => .ok _ h2

theorem attach_twin (v : Variant) (ptr : Word) : ResRel (Twin p E) (attach v ptr s) (attach v ptr t) :=
  resBind_rel (fill_twin (h.map fun s => { clearError s with srdy := false, variant := v }) hU ptr.toNat)
    fun _ _ _ h1 => .ok () (h1.map fun s => { s with srdy := true })

/-! ### Runs -/

/-- Inside a command twins fetch and execute the same element. -/
theorem elementStep_twin (busy : s.activity ≠ .idle) : OutRel (Twin p E) (elementStep s) (elementStep t) := by
  have fetched : ResRel (Twin p E) (fetchElement s) (fetchElement t) := by
    rw [fetchElement_eq busy, fetchElement_eq (by rwa [h.same State.activity]), h.same nextSite]
    exact resBind_rel (fetchBytes_twin (beforeFetch_twin h) hU _) fun _ _ _ h1 => .ok _ h1
  unfold elementStep
  generalize fetchElement s = r, fetchElement t = r' at fetched ⊢
  cases fetched with
  | ok e h1 => exact execElement_twin h1 e
  | raise k h1 => exact .next (h1.map (raiseError k))

theorem runElements_twin (k : Nat) : OutRel (Twin p E) (runElements k s) (runElements k t) := by
  induction k generalizing s t with
  | zero => exact .next h
  | succ k ih =>
    have activity := h.same State.activity
    by_cases idle : s.activity = .idle
    · rw [runElements_idle idle, runElements_idle (activity.trans idle)]
      exact .next h
    · rw [runElements_busy idle, runElements_busy (by rwa [activity])]
      have stepped := elementStep_twin h hU idle
      generalize elementStep s = o, elementStep t = o' at stepped ⊢
      cases stepped with
      | next h1 => exact ih h1
      | fault f => exact .fault f
      | refused r => exact .refused r

theorem completeRun_twin : OutRel (Twin p E) (completeRun s) (completeRun t) := by
  unfold completeRun
  rw [h.same State.outSize]
  exact runElements_twin h hU _

theorem parseAndRun_twin : OutRel (Twin p E) (parseAndRun s) (parseAndRun t) := by
  have parsed := elementStep_twin (h.map fun s => { s with activity := .header true }) hU nofun
  unfold parseAndRun
  generalize elementStep { s with activity := .header true } = o, elementStep { t with activity := .header true } = o'
    at parsed ⊢
  cases parsed with
  | next h1 => exact completeRun_twin h1 hU
  | fault f => exact .fault f
  | refused r => exact .refused r

/-! ### Commands -/

theorem execSaddr_twin (v : Variant) (ptr : Word) : OutRel (Twin p E) (execSaddr v ptr s) (execSaddr v ptr t) := by
  unfold execSaddr
  rw [h.same (needsKey v)]
  split
  · exact .next (h.map refuse)
  · exact finish_twin _ (attach_twin h hU v ptr)

theorem execLzreg_twin (v : Variant) (ptr : Word) : OutRel (Twin p E) (execLzreg v ptr s) (execLzreg v ptr t) := by
  unfold execLzreg
  rw [h.same (needsKey v)]
  split
  · exact .next (h.map refuse)
  · have attached := attach_twin (h.map (clearOut 0)) hU v ptr
    generalize attach v ptr (clearOut 0 s) = r, attach v ptr (clearOut 0 t) = r' at attached ⊢
    cases attached with
    | ok _ h1 => exact parseAndRun_twin h1 hU
    | raise k h1 => exact .next (h1.map (raiseError k))

omit hU in
/-- A block transform that does not tell twins apart, as a command. -/
theorem blockCommand_twin {f : Key → Acc → Blk → Blk × Acc} {blk : Blk}
    (hf : ∀ {x y}, E x y → ∀ k b, (f k x.1 b).1 = (f k y.1 b).1 ∧ E ((f k x.1 b).2, x.2) ((f k y.1 b).2, y.2)) :
    OutRel (Twin p E) (blockCommand f blk s) (blockCommand f blk t) := by
  obtain ⟨a, m, rfl, hp, hE⟩ := h
  obtain ⟨block, related⟩ := hf hE s.ks blk
  unfold blockCommand
  dsimp only at block ⊢
  rw [← block]
  exact .next ⟨_, m, rfl, hp, related⟩

theorem execBdec_twin (blk : Blk) : OutRel (Twin p E) (execBdec blk s) (execBdec blk t) := by
  have launch : s.params = p := by obtain ⟨_, _, _, hp, _⟩ := h; exact hp
  unfold execBdec
  rw [h.same State.krdy, h.same State.params, launch]
  split
  · exact blockCommand_twin h hU.dec
  · exact .next (h.map refuse)

theorem execBenc_twin (blk : Blk) : OutRel (Twin p E) (execBenc blk s) (execBenc blk t) := by
  have launch : s.params = p := by obtain ⟨_, _, _, hp, _⟩ := h; exact hp
  unfold execBenc
  rw [h.same State.krdy, h.same State.params, launch]
  split
  · split
    · exact blockCommand_twin h hU.enc
    · exact .next (h.map refuse)
  · exact .next (h.map refuse)

/-- The key that KINIT computes, and the accumulators it begins with, depend on neither ACC nor SRCMEM. -/
theorem execKinit_twin (seed : Word) (level : Byte) : OutRel (Twin p E) (execKinit seed level s) (execKinit seed level t) := by
  obtain ⟨a, m, rfl, hp, hE⟩ := h
  exact .next ⟨_, m, rfl, hp, hU.written hE _⟩

theorem execReset_twin : OutRel (Twin p E) (execReset s) (execReset t) := by
  obtain ⟨a, m, rfl, hp, hE⟩ := h
  exact .next ⟨_, m, rfl, hp, hU.written hE _⟩

/-- No instruction tells twins apart. -/
theorem exec_twin (i : Instr) : OutRel (Twin p E) (exec i s) (exec i t) := by
  cases i with
  | reset => exact execReset_twin h hU
  | kinit seed level => exact execKinit_twin h hU seed level
  | bdec blk => exact execBdec_twin h hU blk
  | benc blk => exact execBenc_twin h hU blk
  | saddr v ptr => exact execSaddr_twin h hU v ptr
  | gu8 => exact gated_twin h (fun s => finish .u8 (nextByte s)) (finish_twin .u8 (nextByte_twin h hU))
  | gu16 => exact gated_twin h (fun s => finish .u16 (nextU16 s)) (finish_twin .u16 (nextU16_twin h hU))
  | gu32 => exact gated_twin h (fun s => finish .u32 (nextU32 s)) (finish_twin .u32 (nextU32_twin h hU))
  | rhdr =>
    have parsed := elementStep_twin (h.map fun s => { s with activity := .header false }) hU nofun
    exact gated_twin h (fun s => elementStep { s with activity := .header false }) parsed
  | lzrun n => exact gated_twin h (fun s => completeRun (beginRun false n s)) (completeRun_twin (h.map (beginRun false n)) hU)
  | lzreg v ptr => exact execLzreg_twin h hU v ptr
  | hdr typ size => exact execElement_twin h (.hdr typ size)
  | hdrW32 typ ign size => exact execElement_twin h (.hdrW32 typ ign size)
  | flg f => exact execElement_twin h (.flg f)
  | lit d => exact execElement_twin h (.lit d)
  | ref len dist => exact execElement_twin h (.ref len dist)
  | endRun => exact execElement_twin h .endRun

end

/-! ### ACC under REF-K1 -/

/-- The transforms of REF-K1 do not read the incoming accumulators (40_cipher.md R134). -/
theorem refK1_acc_unobserved {p : Params} (hp : p.ciph = .refK1) : Unobserved p fun x y => x.2 = y.2 := by
  have cipher : ciphOf p = refK1 (kcWords p.kcMod) := by rw [ciphOf, hp]
  exact {
    window := fun h b _ => by rw [h]
    written := fun h _ => h
    dec := fun h k b => by rw [cipher]; exact ⟨rfl, h⟩
    enc := fun h k b => by rw [cipher]; exact ⟨rfl, h⟩ }

/-- Settles O23: two states that differ in ACC alone are twins, and no instruction tells twins apart. -/
theorem refCipherIgnoresAcc : Obligations.RefCipherIgnoresAcc := by
  intro i s t a hp h
  have twins : Twin s.params (fun x y => x.2 = y.2) s { s with acc := a } := ⟨a, s.srcmem, rfl, rfl, rfl⟩
  have kept := exec_twin twins (refK1_acc_unobserved hp) i
  rw [h] at kept
  generalize exec i { s with acc := a } = o at kept ⊢
  cases kept with
  | next h1 =>
    obtain ⟨a', m, rfl, _, rfl⟩ := h1
    exact ⟨a', rfl⟩

end Sys2Proof.Machine
end

section
/-! SUPPORT. What stands at or beyond EXTENT has no influence (41_bytesource.md R158(c)): over two contents of SRCMEM that agree
below EXTENT two states with the same ACC are twins. -/

namespace Sys2Proof.Machine

/-- The same ACC over two given contents of SRCMEM. -/
def SameAccOver (m m' : Memory) (x y : Acc × Memory) : Prop := x.1 = y.1 ∧ x.2 = m ∧ y.2 = m'

/-- Contents that agree below EXTENT are not told apart: every window of SRCMEM that is shown lies below it. -/
theorem sameAccOver_unobserved {p : Params} {m m' : Memory}
    (agree : ∀ a, a < extentBytes p.extent → memRead srcDefault m' a = memRead srcDefault m a) :
    Unobserved p (SameAccOver m m') where
  window := by
    rintro ⟨_, _⟩ ⟨_, _⟩ ⟨_, rfl, rfl⟩ b hb
    exact (agree b hb).symm
  written := fun ⟨_, hx, hy⟩ _ => ⟨rfl, hx, hy⟩
  dec := fun ⟨acc, hx, hy⟩ k b => by rw [acc]; exact ⟨rfl, rfl, hx, hy⟩
  enc := fun ⟨acc, hx, hy⟩ k b => by rw [acc]; exact ⟨rfl, rfl, hx, hy⟩

/-- Settles O36: the two states are twins, and no instruction tells twins apart. -/
theorem beyondExtentNeverRead : Obligations.BeyondExtentNeverRead := by
  intro i s t m agree h
  have twins : Twin s.params (SameAccOver s.srcmem m) s { s with srcmem := m } := ⟨s.acc, m, rfl, rfl, rfl, rfl, rfl⟩
  have kept := exec_twin twins (sameAccOver_unobserved agree) i
  rw [h] at kept
  generalize exec i { s with srcmem := m } = o at kept ⊢
  cases kept with
  | next h1 =>
    obtain ⟨a, m', rfl, _, acc, _, srcmem⟩ := h1
    dsimp only at acc srcmem
    rw [← acc, srcmem]

end Sys2Proof.Machine
end

section
/-! SUPPORT. A read of the byte source as a command (41_bytesource.md R154 to R156): one form for GU8, GU16 and GU32. -/

namespace Sys2Proof.Machine

open Host (Outcome)

/-- Raising an error between commands writes ERR and the response alone. -/
theorem raiseError_of_idle {s : State} (h : s.activity = .idle) (k : ErrKind) :
    raiseError k s = { s with err := errCode k, resp := some (.err k) } := by
  rw [raiseError, respond, ← h]

/-- A command that answers what a read of the byte source delivers, behind the gate. -/
def readCommand {α : Type} (val : α → Value) (read : State → Res α) : State → Outcome State Fault Refusal :=
  gated fun s => finish val (read s)

theorem exec_gu8 : exec .gu8 = readCommand .u8 nextByte := rfl

theorem exec_gu16 : exec .gu16 = readCommand .u16 nextU16 := rfl

theorem exec_gu32 : exec .gu32 = readCommand .u32 nextU32 := rfl

section
variable {α : Type} {val : α → Value} {read : State → Res α} {s t u : State}

/-- In the state of 60_exceptions.md R235 the command is the read. -/
theorem readCommand_of_ready (hs : s.srdy = true) (he : s.err = 0) : readCommand val read s = finish val (read s) :=
  gated_of_ready (body := fun s => finish val (read s)) hs he

/-- Between commands a read that delivers writes the response beside what it moves. -/
theorem readCommand_ok {a : α} (hr : Ready s) (h : read s = .ok a u) (ha : u.activity = s.activity) :
    readCommand val read s = .next { u with resp := some (.ok (val a)) } := by
  obtain ⟨idle, hs, he⟩ := hr
  rw [readCommand_of_ready hs he, h, ← finishOk_of_idle (ha.trans idle)]
  rfl

/-- A read that raises writes ERR and the response. -/
theorem readCommand_raise {k : ErrKind} (hr : Ready s) (h : read s = .raise k u) (ha : u.activity = s.activity) :
    readCommand val read s = .next { u with err := errCode k, resp := some (.err k) } := by
  obtain ⟨idle, hs, he⟩ := hr
  rw [readCommand_of_ready hs he, h, ← raiseError_of_idle (ha.trans idle)]
  rfl

/-- A read command that responds Ok has read, from the state of R235. -/
theorem readCommand_resp_ok {v : Value} (h : readCommand val read s = .next t) (hv : t.resp = some (.ok v)) :
    s.srdy = true ∧ s.err = 0 ∧ ∃ a u, read s = .ok a u ∧ v = val a ∧ t = finishOk (val a) u := by
  rcases gated_cases (fun s => finish val (read s)) s with ⟨_, e⟩ | ⟨_, k, _, e⟩ | ⟨hs, he, e⟩
  · cases e.symm.trans h
    cases hv
  · cases e.symm.trans h
    cases hv
  · rcases finish_next (e.symm.trans h) with ⟨a, u, read_ok, rfl⟩ | ⟨k, u, _, rfl⟩
    · cases hv
      exact ⟨hs, he, a, u, read_ok, rfl, rfl⟩
    · cases hv

/-- One that responds Err holds that error already, or has read and raised it. -/
theorem readCommand_resp_err {k : ErrKind} (h : readCommand val read s = .next t) (hk : t.resp = some (.err k)) :
    s.srdy = true ∧ (errOf s.err = some k ∧ t = respond (.err k) s
      ∨ s.err = 0 ∧ ∃ u, read s = .raise k u ∧ t = raiseError k u) := by
  rcases gated_cases (fun s => finish val (read s)) s with ⟨_, e⟩ | ⟨hs, k', held, e⟩ | ⟨hs, he, e⟩
  · cases e.symm.trans h
    cases hk
  · cases e.symm.trans h
    cases hk
    exact ⟨hs, .inl ⟨held, rfl⟩⟩
  · rcases finish_next (e.symm.trans h) with ⟨a, u, _, rfl⟩ | ⟨k', u, read_raise, rfl⟩
    · cases hk
    · cases hk
      exact ⟨hs, .inr ⟨he, u, read_raise, rfl⟩⟩

/-- A command that holds an error responds with it, whatever it would read (60_exceptions.md R235). -/
theorem readCommand_held {k : ErrKind} (hs : s.srdy = true) (held : errOf s.err = some k) :
    readCommand val read s = .next (respond (.err k) s) := by
  simp only [readCommand, gated, hs, held, if_true]

end

end Sys2Proof.Machine
end

section
/-! SUPPORT. A Plain source never touches the cipher (41_bytesource.md R151): reading it, and every command that runs on it, leaves
ACC as it is. -/

namespace Sys2Proof.Machine

open Host (Outcome)

/-- A Plain source, and given accumulators. -/
def PlainWithAcc (a : Acc) (s : State) : Prop := s.variant = .plain ∧ s.acc = a

/-- A Plain byte comes from a window that is copied. -/
theorem nextByte_plainWithAcc {a : Acc} (s : State) (h : PlainWithAcc a s) : PlainWithAcc a (nextByte s).state := by
  have delivered : ∀ u, PlainWithAcc a u → PlainWithAcc a (deliver u).state := fun u hu => by
    rcases deliver_cases u with ⟨_, _, e⟩ | ⟨_, e⟩ <;> rw [e] <;> exact hu
  by_cases hp : s.pos < 8
  · rw [nextByte_of_lt hp]
    exact delivered s h
  · rw [nextByte_of_le (Nat.not_lt.mp hp), fill_plain h.1]
    exact delivered _ h

/-- A header latches its fields, and may begin a run. -/
theorem latchHeader_acc {typ : BitVec 4} {size : BitVec 24} {s t : State} (h : latchHeader typ size s = .next t) :
    t.acc = s.acc := by
  rcases latchHeader_cases typ size s with ⟨_, e⟩ | ⟨_, e⟩ <;> rw [e] at h <;> cases h
  · rfl
  · unfold afterHeader
    split <;> rfl

/-- No element writes ACC once it has been fetched. -/
theorem execElement_acc {e : Element} {s t : State} (h : execElement e s = .next t) : t.acc = s.acc := by
  cases e with
  | hdr typ size => exact latchHeader_acc h
  | hdrW32 typ ign size => exact latchHeader_acc h
  | flg f => cases h; rfl
  | lit d =>
    change execLit d s = .next t at h
    unfold execLit at h
    split at h <;> cases h
    rfl
  | ref len dist =>
    change execRef len dist s = .next t at h
    rcases execRef_cases len dist s with ⟨_, e⟩ | ⟨_, e⟩ <;> rw [e] at h
    · cases h; rfl
    · rw [(copyLoop_next h).1]
  | endRun =>
    change execEndRun s = .next t at h
    unfold execEndRun at h
    split at h <;> cases h <;> rfl

section
variable {a : Acc} {s t : State}

/-- A command's end leaves the source and the cipher. -/
theorem finish_plainWithAcc {α : Type} {val : α → Value} {r : Res α} (hr : PlainWithAcc a r.state)
    (he : finish val r = .next t) : PlainWithAcc a t :=
  finish_state hr (fun _ _ hu => hu) (fun _ _ hu => hu) he

section
variable (h : PlainWithAcc a s)
include h

theorem execElement_plainWithAcc {e : Element} (he : execElement e s = .next t) : PlainWithAcc a t := by
  obtain ⟨plain, acc⟩ := h
  have frame := execElement_runMoved he
  exact ⟨by rw [frame]; exact plain, (execElement_acc he).trans acc⟩

theorem elementStep_plainWithAcc (he : elementStep s = .next t) : PlainWithAcc a t := by
  have fetched := fetchElement_state nextByte_plainWithAcc (fun _ hu => hu) h
  unfold elementStep at he
  split at he
  · next e u hf =>
    rw [hf] at fetched
    exact execElement_plainWithAcc fetched he
  · next k u hf =>
    rw [hf] at fetched
    cases he
    exact fetched

theorem completeRun_plainWithAcc (he : completeRun s = .next t) : PlainWithAcc a t :=
  runElements_induction (PlainWithAcc a) (fun _ _ _ hu hs => elementStep_plainWithAcc hu hs) _ s t h he

theorem parseAndRun_plainWithAcc (he : parseAndRun s = .next t) : PlainWithAcc a t := by
  have parsing : PlainWithAcc a { s with activity := .header true } := h
  unfold parseAndRun at he
  split at he
  · next u hu => exact completeRun_plainWithAcc (elementStep_plainWithAcc parsing hu) he
  · cases he
  · cases he

/-- A gated command leaves them where its body does. -/
theorem gated_plainWithAcc {body : State → Outcome State Fault Refusal}
    (hbody : body s = .next t → PlainWithAcc a t) (he : gated body s = .next t) : PlainWithAcc a t := by
  rcases gated_cases body s with ⟨_, e⟩ | ⟨_, k, _, e⟩ | ⟨_, _, e⟩ <;> rw [e] at he
  · cases he; exact h
  · cases he; exact h
  · exact hbody he

theorem readCommand_plainWithAcc {α : Type} {val : α → Value} {read : State → Res α} (hr : PlainWithAcc a (read s).state)
    (he : readCommand val read s = .next t) : PlainWithAcc a t :=
  gated_plainWithAcc h (finish_plainWithAcc hr) he

end

/-- A Plain source needs no key (60_exceptions.md R240). -/
@[simp] theorem needsKey_plain (s : State) : needsKey .plain s = false := rfl

/-- Attaching a Plain source copies its first window. -/
theorem attach_plainWithAcc (ptr : Word) (s : State) : PlainWithAcc s.acc (attach .plain ptr s).state := by
  rcases attach_cases .plain ptr s with ⟨hv, _⟩ | ⟨hv, _⟩ | ⟨_, e⟩
  · cases hv
  · cases hv
  · rw [e]
    exact ⟨rfl, rfl⟩

theorem execSaddr_plain_acc {ptr : Word} (h : execSaddr .plain ptr s = .next t) : t.acc = s.acc := by
  rw [execSaddr, needsKey_plain, if_neg Bool.false_ne_true] at h
  exact (finish_plainWithAcc (attach_plainWithAcc ptr s) h).2

theorem execLzreg_plain_acc {ptr : Word} (h : execLzreg .plain ptr s = .next t) : t.acc = s.acc := by
  have attached : PlainWithAcc s.acc (attach .plain ptr (clearOut 0 s)).state := attach_plainWithAcc ptr (clearOut 0 s)
  simp only [execLzreg, needsKey_plain, Bool.false_eq_true, if_false] at h
  split at h
  · next k u e =>
    rw [e] at attached
    cases h
    exact attached.2
  · next u e =>
    rw [e] at attached
    exact (parseAndRun_plainWithAcc attached h).2

/-- The commands that read a source leave ACC, where it is Plain. -/
theorem exec_read_acc {i : Instr} (hv : s.variant = .plain)
    (hi : i = .gu8 ∨ i = .gu16 ∨ i = .gu32 ∨ i = .rhdr ∨ ∃ n, i = .lzrun n) (h : exec i s = .next t) : t.acc = s.acc := by
  have here : PlainWithAcc s.acc s := ⟨hv, rfl⟩
  have kept : PlainWithAcc s.acc t := by
    rcases hi with rfl | rfl | rfl | rfl | ⟨n, rfl⟩
    · exact readCommand_plainWithAcc (val := .u8) here (nextByte_plainWithAcc s here) h
    · exact readCommand_plainWithAcc (val := .u16) here (nextU16_state nextByte_plainWithAcc here) h
    · exact readCommand_plainWithAcc (val := .u32) here (nextU32_state nextByte_plainWithAcc here) h
    · have parsing : PlainWithAcc s.acc { s with activity := .header false } := here
      exact gated_plainWithAcc (body := fun s => elementStep { s with activity := .header false }) here
        (elementStep_plainWithAcc parsing) h
    · have running : PlainWithAcc s.acc (beginRun false n s) := here
      exact gated_plainWithAcc (body := fun s => completeRun (beginRun false n s)) here (completeRun_plainWithAcc running) h
  exact kept.2

end

/-- Settles O25: none of the commands computes or drops the key, and each keeps ACC with the Plain source that it reads. -/
theorem plainLeavesCipher : Obligations.PlainLeavesCipher := by
  intro i s t h hi
  have acc : t.acc = s.acc := by
    rcases hi with ⟨p, rfl | rfl⟩ | ⟨hv, hi⟩
    · exact execSaddr_plain_acc h
    · exact execLzreg_plain_acc h
    · exact exec_read_acc hv hi h
  obtain ⟨notKinit, notReset⟩ : (∀ seed level, i ≠ .kinit seed level) ∧ i ≠ .reset := by
    rcases hi with ⟨p, rfl | rfl⟩ | ⟨_, rfl | rfl | rfl | rfl | ⟨n, rfl⟩⟩ <;> exact ⟨nofun, nofun⟩
  obtain ⟨ks, krdy⟩ := onlyKinitWritesKey i s t h notKinit notReset
  exact ⟨ks, acc, krdy⟩

end Sys2Proof.Machine
end

section
/-! SUPPORT. SADDR in all its forms (41_bytesource.md R152), with all that each changes. -/

namespace Sys2Proof.Machine

open Host (Outcome)

/-- What SADDR attaches: the variant, a window and its address, of which nothing has been delivered, and no error. -/
def attachedTo (v : Variant) (ptr : Word) (window : Blk) (s : State) : State :=
  { s with err := 0, srdy := true, variant := v, cache := window, src := ptr, pos := 0 }

/-- SRC holds an address that SADDR is given. -/
theorem setWindow_word (ptr : Word) (window : Blk) (s : State) :
    setWindow ptr.toNat window s = { s with cache := window, src := ptr, pos := 0 } := by
  rw [setWindow, BitVec.ofNat_toNat, BitVec.setWidth_eq]

/-- SADDR that is not refused is the attachment. -/
theorem exec_saddr {v : Variant} {s : State} (hk : needsKey v s = false) (ptr : Word) :
    exec (.saddr v ptr) s = finish (fun _ => .none) (attach v ptr s) := by
  show execSaddr v ptr s = _
  rw [execSaddr, hk, if_neg Bool.false_ne_true]

/-- A Plain SADDR completes from every state and to every address. -/
theorem exec_saddr_plain (s : State) (ptr : Word) :
    exec (.saddr .plain ptr) s = .next (finishOk .none (attachedTo .plain ptr (plainWindow s ptr.toNat) s)) := by
  rcases attach_cases .plain ptr s with ⟨hv, _⟩ | ⟨hv, _⟩ | ⟨_, e⟩
  · cases hv
  · cases hv
  · rw [exec_saddr (needsKey_plain s), e, setWindow_word]
    rfl

section
variable {s : State} {ptr : Word}

/-- An Encrypted SADDR needs the key. -/
theorem exec_saddr_encrypted_refused (hk : s.krdy = false) : exec (.saddr .encrypted ptr) s = .next (refuse s) :=
  if_pos (by simp [needsKey, hk])

variable (hk : s.krdy = true)
include hk

theorem needsKey_of_krdy (v : Variant) : needsKey v s = false := by simp [needsKey, hk]

/-- An Encrypted SADDR inside EXTENT decrypts its window. -/
theorem exec_saddr_encrypted (hx : ptr.toNat + 8 ≤ extentOf s) :
    exec (.saddr .encrypted ptr) s = .next (finishOk .none
      (attachedTo .encrypted ptr ((ciphOf s.params).blkDec s.ks s.acc (rawWindow s ptr.toNat)).1
        { s with acc := ((ciphOf s.params).blkDec s.ks s.acc (rawWindow s ptr.toNat)).2 })) := by
  rcases attach_cases .encrypted ptr s with ⟨_, hx', _⟩ | ⟨_, _, e⟩ | ⟨hv, _⟩
  · omega
  · rw [exec_saddr (needsKey_of_krdy hk _), e, setWindow_word]
    rfl
  · cases hv

/-- An Encrypted SADDR to a window that overhangs EXTENT raises, and leaves the source detached. -/
theorem exec_saddr_encrypted_truncated (hx : extentOf s < ptr.toNat + 8) :
    exec (.saddr .encrypted ptr) s
      = .next (raiseError .truncatedSource { s with err := 0, srdy := false, variant := .encrypted }) := by
  rcases attach_cases .encrypted ptr s with ⟨_, _, e⟩ | ⟨_, hx', _⟩ | ⟨hv, _⟩
  · rw [exec_saddr (needsKey_of_krdy hk _), e]
    rfl
  · omega
  · cases hv

end

/-- Settles O28: between commands the end of a command writes no more than the response and, where it raises, ERR. -/
theorem saddrForms : Obligations.SaddrForms := by
  intro s ptr ha
  refine ⟨⟨plainWindow s ptr.toNat, fun i hi => blkGet_blkOfFn _ hi, ?plain⟩,
    fun hk hx => ⟨rawWindow s ptr.toNat, fun i hi => blkGet_blkOfFn _ hi, ?inside⟩,
    fun hk hx => ?beyond, exec_saddr_encrypted_refused⟩
  case plain => rw [exec_saddr_plain, finishOk_of_idle (by exact ha)]; rfl
  case inside => rw [exec_saddr_encrypted hk hx, finishOk_of_idle (by exact ha)]; rfl
  case beyond => rw [exec_saddr_encrypted_truncated hk hx, raiseError_of_idle (by exact ha)]

/-- Settles O29: the window is the encryption of the block, which the CIPH of every launch decrypts. -/
theorem encryptedWindowDecrypts : Obligations.EncryptedWindowDecrypts := by
  intro s ptr b hk hx hb
  obtain ⟨decEnc, _, _⟩ := ciphOf_lawful s.params
  have window : rawWindow s ptr.toNat = ((ciphOf s.params).blkEnc s.ks s.acc b).1 :=
    blk_ext fun i hi => (blkGet_blkOfFn _ hi).trans (hb i hi)
  refine ⟨_, exec_saddr_encrypted hk hx, ?_, rfl⟩
  show ((ciphOf s.params).blkDec s.ks s.acc (rawWindow s ptr.toNat)).1 = b
  rw [window, decEnc]

end Sys2Proof.Machine
end

section
/-! SUPPORT. GU8, GU16 and GU32 on a Plain source (41_bytesource.md R153 to R157): the bytes at SPOS, or TruncatedSource. -/

namespace Sys2Proof.Machine

/-- After k bytes of an attached Plain source: SPOS has advanced by k, and beside the position only the window has changed. -/
structure PlainAfter (s : State) (k : Nat) (t : State) : Prop where
  source : PlainSource t
  spos_eq : spos t = spos s + k
  frame : t = { s with src := t.src, pos := t.pos, cache := t.cache }

section
variable {s t : State} {k : Nat}

theorem PlainAfter.zero (h : PlainSource s) : PlainAfter s 0 s := ⟨h, rfl, rfl⟩

theorem PlainAfter.activity (h : PlainAfter s k t) : t.activity = s.activity := by rw [h.frame]

/-- The byte after them is at the next address. -/
theorem PlainAfter.next (h : PlainAfter s k t) (hx : spos s + k < extentOf s) :
    ∃ u, nextByte t = .ok (srcByte s (spos s + k)) u ∧ PlainAfter s (k + 1) u := by
  obtain ⟨source, at_k, frame⟩ := h
  have extent : extentOf t = extentOf s := by rw [frame]; rfl
  have byte : srcByte t (spos t) = srcByte s (spos s + k) := by rw [at_k, frame]; rfl
  obtain ⟨u, read, source', at_next, frame', _, _⟩ := source.next (by omega)
  exact ⟨u, byte ▸ read, source', by rw [at_next, at_k, Nat.add_assoc], by rw [frame', frame]⟩

/-- A read of k bytes as a command: the response comes with what the read has moved. -/
theorem PlainAfter.readCommand_ok {α : Type} {val : α → Value} {read : State → Res α} {a : α} (h : PlainAfter s k t)
    (hr : Ready s) (hread : read s = .ok a t) :
    ∃ u, readCommand val read s = .next u ∧ u.resp = some (.ok (val a)) ∧ spos u = spos s + k
      ∧ u = { s with src := u.src, pos := u.pos, cache := u.cache, resp := u.resp } :=
  ⟨_, Machine.readCommand_ok hr hread h.activity, rfl, h.spos_eq, by rw [h.frame]⟩

end

/-- Settles O30: below EXTENT the read of an attached Plain source delivers. -/
theorem plainByteDelivered : Obligations.PlainByteDelivered := by
  intro s hinv hr hv hx
  have ⟨_, attached, _⟩ := hr
  obtain ⟨t, read, _, at_next, frame, cached, refilled⟩ := (hinv.plainSource attached hv).next hx
  exact ⟨_, readCommand_ok hr read (by rw [frame]), rfl, at_next, by rw [frame], cached, refilled⟩

/-- Settles O31: at or beyond EXTENT the read of an attached Plain source raises, after a refill where the window is used up. -/
theorem plainByteTruncated : Obligations.PlainByteTruncated := by
  intro s hinv hr hv hx
  have ⟨_, attached, _⟩ := hr
  obtain ⟨t, read, _, at_same, frame, cached, refilled⟩ := (hinv.plainSource attached hv).truncated hx
  refine ⟨_, readCommand_raise hr read (by rw [frame]), rfl, rfl, at_same, by rw [frame], fun hp => ?_, refilled⟩
  cases cached hp
  exact ⟨rfl, rfl, rfl⟩

/-- Settles O33: the bytes of a wide read are at consecutive addresses, and `le16` and `le32` give their number. -/
theorem plainWideReadsDelivered : Obligations.PlainWideReadsDelivered := by
  intro s hinv hr hv
  have ⟨_, attached, _⟩ := hr
  have after0 := PlainAfter.zero (hinv.plainSource attached hv)
  constructor
  · intro hx
    obtain ⟨t1, read0, after1⟩ := after0.next (by omega)
    obtain ⟨t2, read1, after2⟩ := after1.next (by omega)
    obtain ⟨u, run, resp, at_end, frame⟩ :=
      after2.readCommand_ok (val := .u16) hr (nextU16_eq_ok.mpr ⟨_, _, _, read0, read1, rfl⟩)
    exact ⟨u, _, run, resp, le16_toNat _ _, at_end, frame⟩
  · intro hx
    obtain ⟨t1, read0, after1⟩ := after0.next (by omega)
    obtain ⟨t2, read1, after2⟩ := after1.next (by omega)
    obtain ⟨t3, read2, after3⟩ := after2.next (by omega)
    obtain ⟨t4, read3, after4⟩ := after3.next (by omega)
    obtain ⟨u, run, resp, at_end, frame⟩ :=
      after4.readCommand_ok (val := .u32) hr
        (nextU32_eq_ok.mpr ⟨_, _, _, _, _, _, _, read0, read1, read2, read3, rfl⟩)
    exact ⟨u, _, run, resp, le32_toNat _ _ _ _, at_end, frame⟩

end Sys2Proof.Machine
end

section
/-! SUPPORT. GU8 on an Encrypted source (41_bytesource.md R151, R153, R158(b)): from the window, or from the next one decrypted. -/

namespace Sys2Proof.Machine

/-- SRC after a refill is the address of the next window. -/
theorem setWindow_next (src : Word) (window : Blk) (s : State) :
    setWindow (src.toNat + 8) window s = { s with cache := window, src := src + 8, pos := 0 } := by
  have next : BitVec.ofNat 32 (src.toNat + 8) = src + 8 := by simp [BitVec.ofNat_add]
  rw [setWindow, next]

/-- An Encrypted fill that overhangs EXTENT raises and changes nothing. -/
theorem fill_truncated {s : State} (hv : s.variant = .encrypted) {a : Nat} (hx : extentOf s < a + 8) :
    fill a s = .raise .truncatedSource s := by
  rcases fill_cases a s with ⟨_, _, e⟩ | ⟨_, hx', _⟩ | ⟨hv', _⟩
  · exact e
  · omega
  · rw [hv] at hv'
    cases hv'

/-- Every byte in the window of an Encrypted source is delivered: a window that overhangs EXTENT is not filled. -/
theorem deliver_encrypted {s : State} (hv : s.variant = .encrypted) :
    deliver s = .ok (blkGet s.cache s.pos) { s with pos := s.pos + 1 } :=
  if_neg (by simp [hv])

section
variable {s : State} (hv : s.variant = .encrypted) (hp : s.pos = 8)
include hv hp

/-- A used-up window is followed by the next one, decrypted, where that is inside EXTENT. -/
theorem nextByte_encrypted_refill (hx : s.src.toNat + 16 ≤ extentOf s) :
    nextByte s = .ok ((ciphOf s.params).blkDec s.ks s.acc (rawWindow s (s.src.toNat + 8))).1.b0 { s with
      acc := ((ciphOf s.params).blkDec s.ks s.acc (rawWindow s (s.src.toNat + 8))).2
      cache := ((ciphOf s.params).blkDec s.ks s.acc (rawWindow s (s.src.toNat + 8))).1
      src := s.src + 8, pos := 1 } := by
  rw [nextByte_of_le hp.ge, fill_encrypted hv hx, resBind_ok, setWindow_next, deliver_encrypted (by exact hv)]
  rfl

/-- Where it overhangs EXTENT nothing changes. -/
theorem nextByte_encrypted_truncated (hx : extentOf s < s.src.toNat + 16) :
    nextByte s = .raise .truncatedSource s := by
  rw [nextByte_of_le hp.ge, fill_truncated hv hx, resBind_raise]

end

/-- Settles O32: the command is one read, which the window, the refill and EXTENT split into its three cases. -/
theorem encryptedByteForms : Obligations.EncryptedByteForms := by
  intro s hr hv
  refine ⟨fun hp => ?_, fun hp hx => ⟨rawWindow s (s.src.toNat + 8), fun i hi => blkGet_blkOfFn _ hi, ?_⟩, fun hp hx => ?_⟩
  · exact readCommand_ok hr ((nextByte_of_lt hp).trans (deliver_encrypted hv)) rfl
  · exact readCommand_ok hr (nextByte_encrypted_refill hv hp hx) rfl
  · exact readCommand_raise hr (nextByte_encrypted_truncated hv hp hx) rfl

end Sys2Proof.Machine
end

section
/-! SUPPORT. Wider reads are byte reads (20_memory.md R64(f), 41_bytesource.md R155, R156): GU16 is two GU8 and GU32 two GU16,
for a read does not look at what the end of the first command writes. Each read ends where SRC and POS of its begin say, for
both variants (R157). -/

namespace Sys2Proof.Machine

open Host (Outcome)

/-! ### A read after the end of a command -/

/-- The same result in another state. -/
def Res.mapState {α : Type} (g : State → State) : Res α → Res α
  | .ok a s => .ok a (g s)
  | .raise k s => .raise k (g s)

@[simp] theorem Res.mapState_ok {α : Type} (g : State → State) (a : α) (s : State) :
    (Res.ok a s).mapState g = .ok a (g s) := rfl

@[simp] theorem Res.mapState_raise {α : Type} (g : State → State) (k : ErrKind) (s : State) :
    (Res.raise k s : Res α).mapState g = .raise k (g s) := rfl

section
variable {α : Type} {g : State → State} {r : Res α} {t : State}

theorem Res.mapState_eq_ok {a : α} : r.mapState g = .ok a t ↔ ∃ u, r = .ok a u ∧ t = g u := by
  cases r <;> simp [eq_comm]

theorem Res.mapState_eq_raise {k : ErrKind} : r.mapState g = .raise k t ↔ ∃ u, r = .raise k u ∧ t = g u := by
  cases r <;> simp [eq_comm]

end

/-- An update that no part of a sequence sees passes through the sequence. -/
theorem resBind_mapState {α β : Type} {g : State → State} {f : α → State → Res β}
    (hf : ∀ a s, f a (g s) = (f a s).mapState g) (r : Res α) : resBind (r.mapState g) f = (resBind r f).mapState g := by
  cases r with
  | ok a s => exact hf a s
  | raise k s => rfl

theorem fill_finishOk (v : Value) (a : Nat) (s : State) : fill a (finishOk v s) = (fill a s).mapState (finishOk v) := by
  cases hv : s.variant with
  | plain =>
    rw [fill_plain hv, fill_plain (s := finishOk v s) hv]
    rfl
  | encrypted =>
    by_cases hx : a + 8 ≤ extentOf s
    · rw [fill_encrypted hv hx, fill_encrypted (s := finishOk v s) hv hx]
      rfl
    · rw [fill_truncated hv (Nat.not_le.mp hx), fill_truncated (s := finishOk v s) hv (Nat.not_le.mp hx)]
      rfl

theorem deliver_finishOk (v : Value) (s : State) : deliver (finishOk v s) = (deliver s).mapState (finishOk v) := by
  by_cases hx : s.variant = .plain ∧ extentOf s ≤ spos s
  · have raises : deliver s = .raise .truncatedSource s := if_pos hx
    have raises' : deliver (finishOk v s) = .raise .truncatedSource (finishOk v s) := if_pos hx
    rw [raises, raises']
    rfl
  · have delivers : deliver s = .ok (blkGet s.cache s.pos) { s with pos := s.pos + 1 } := if_neg hx
    have delivers' : deliver (finishOk v s) = .ok (blkGet s.cache s.pos) (finishOk v { s with pos := s.pos + 1 }) :=
      if_neg hx
    rw [delivers, delivers']
    rfl

/-- NextByte does not look at the response, nor at what the running command still has to do. -/
theorem nextByte_finishOk (v : Value) (s : State) : nextByte (finishOk v s) = (nextByte s).mapState (finishOk v) := by
  by_cases hp : s.pos < 8
  · rw [nextByte_of_lt hp, nextByte_of_lt (s := finishOk v s) hp, deliver_finishOk]
  · have hp8 : 8 ≤ s.pos := Nat.not_lt.mp hp
    rw [nextByte_of_le hp8, nextByte_of_le (s := finishOk v s) hp8, finishOk_src, fill_finishOk]
    exact resBind_mapState (fun _ u => deliver_finishOk v u) _

/-! ### Two reads in one -/

/-- A read of the byte source: it moves the stream alone, and does not see the end of the command before it. -/
structure StreamRead {α : Type} (read : State → Res α) : Prop where
  moved : ∀ {s a t}, read s = .ok a t → Moved s t
  finishOk : ∀ v s, read (finishOk v s) = (read s).mapState (finishOk v)

theorem nextByte_streamRead : StreamRead nextByte := ⟨nextByte_ok, nextByte_finishOk⟩

/-- Two reads, one after the other, whose values are composed. -/
def twice {α β : Type} (compose : α → α → β) (read : State → Res α) (s : State) : Res β :=
  resBind (read s) fun a s => resBind (read s) fun b s => .ok (compose a b) s

/-- Two bytes are a byte, twice. -/
theorem nextU16_eq_twice : nextU16 = twice le16 nextByte := rfl

/-- Four bytes are the little-endian composition of two halves. -/
theorem le32_eq_append (b0 b1 b2 b3 : Byte) : le32 b0 b1 b2 b3 = le16 b2 b3 ++ le16 b0 b1 := by
  apply BitVec.eq_of_toNat_eq
  rw [le32_toNat, toNat_append_add, le16_toNat, le16_toNat]
  omega

/-- Four bytes are two bytes, twice. -/
theorem nextU32_eq_twice : nextU32 = twice (fun h0 h1 => h1 ++ h0) nextU16 := by
  funext s
  simp only [nextU32, twice, nextU16, resBind_assoc, resBind_ok, le32_eq_append]

section
variable {α β : Type} {compose : α → α → β} {read : State → Res α}

/-- Two reads deliver where both do. -/
theorem twice_eq_ok {s t : State} {v : β} :
    twice compose read s = .ok v t ↔ ∃ a u b, read s = .ok a u ∧ read u = .ok b t ∧ v = compose a b := by
  simp only [twice, resBind_eq_ok]
  constructor
  · rintro ⟨a, u, first, b, w, second, e⟩
    cases e
    exact ⟨a, u, b, first, second, rfl⟩
  · rintro ⟨a, u, b, first, second, rfl⟩
    exact ⟨a, u, first, b, t, second, rfl⟩

/-- Two reads raise where the first does, or where the second does. -/
theorem twice_eq_raise {s t : State} {k : ErrKind} :
    twice compose read s = .raise k t ↔ read s = .raise k t ∨ ∃ a u, read s = .ok a u ∧ read u = .raise k t := by
  simp [twice, resBind_eq_raise]

/-- Two reads are a read. -/
theorem StreamRead.twice (h : StreamRead read) : StreamRead (twice compose read) where
  moved := fun e => by
    obtain ⟨_, _, _, first, second, _⟩ := twice_eq_ok.mp e
    exact (h.moved first).trans (h.moved second)
  finishOk := fun v s => by
    unfold Machine.twice
    rw [h.finishOk]
    refine resBind_mapState (fun a u => ?_) _
    rw [h.finishOk]
    exact resBind_mapState (fun b w => rfl) _

/-! ### Two commands in one -/

variable {val : α → Value} {wide : β → Value} (hread : StreamRead read) {s s1 s2 : State}

/-- Where the first of two read commands responds Err, the wider one does. -/
theorem readCommand_twice_err_first {k : ErrKind} (h1 : readCommand val read s = .next s1) (r1 : s1.resp = some (.err k)) :
    readCommand wide (twice compose read) s = .next s1 := by
  obtain ⟨hs, ⟨held, rfl⟩ | ⟨he, u, raised, rfl⟩⟩ := readCommand_resp_err h1 r1
  · exact readCommand_held hs held
  · rw [readCommand_of_ready hs he, twice_eq_raise.mpr (.inl raised)]
    rfl

include hread

/-- After a read command that responded Ok with a value, the next one reads on from where the first read ended. -/
theorem readCommand_resp_ok_then (hval : Function.Injective val) {a : α} (h1 : readCommand val read s = .next s1)
    (r1 : s1.resp = some (.ok (val a))) :
    ∃ u, s.srdy = true ∧ s.err = 0 ∧ s1.err = 0 ∧ read s = .ok a u
      ∧ read s1 = (read u).mapState (finishOk (val a)) := by
  obtain ⟨hs, he, a', u, first, same, rfl⟩ := readCommand_resp_ok h1 r1
  cases hval same
  have moved := hread.moved first
  exact ⟨u, hs, he, by rw [finishOk_err, moved]; exact he, first, hread.finishOk _ u⟩

/-- Where both of two read commands respond Ok, the wider one responds with the values composed. -/
theorem readCommand_twice_ok (hval : Function.Injective val) {a b : α} (h1 : readCommand val read s = .next s1)
    (r1 : s1.resp = some (.ok (val a))) (h2 : readCommand val read s1 = .next s2) (r2 : s2.resp = some (.ok (val b))) :
    readCommand wide (twice compose read) s = .next { s2 with resp := some (.ok (wide (compose a b))) } := by
  obtain ⟨u, hs, he, _, first, second⟩ := readCommand_resp_ok_then hread hval h1 r1
  obtain ⟨_, _, b', t, read_ok, same, rfl⟩ := readCommand_resp_ok h2 r2
  cases hval same
  obtain ⟨w, e, rfl⟩ := Res.mapState_eq_ok.mp (second.symm.trans read_ok)
  rw [readCommand_of_ready hs he, twice_eq_ok.mpr ⟨a, u, b, first, e, rfl⟩]
  rfl

/-- Where the second of two read commands responds Err, the wider one does. -/
theorem readCommand_twice_err_second (hval : Function.Injective val) {a : α} {k : ErrKind}
    (h1 : readCommand val read s = .next s1) (r1 : s1.resp = some (.ok (val a))) (h2 : readCommand val read s1 = .next s2)
    (r2 : s2.resp = some (.err k)) : readCommand wide (twice compose read) s = .next s2 := by
  obtain ⟨u, hs, he, he1, first, second⟩ := readCommand_resp_ok_then hread hval h1 r1
  obtain ⟨_, ⟨held, _⟩ | ⟨_, t, raised, rfl⟩⟩ := readCommand_resp_err h2 r2
  · rw [he1, errOf_zero] at held
    cases held
  · obtain ⟨w, e, rfl⟩ := Res.mapState_eq_raise.mp (second.symm.trans raised)
    rw [readCommand_of_ready hs he, twice_eq_raise.mpr (.inr ⟨a, u, first, e⟩)]
    rfl

end

theorem nextU16_streamRead : StreamRead nextU16 := nextU16_eq_twice ▸ nextByte_streamRead.twice

/-- Settles O34: both wider reads are a shorter read, twice, and two commands read what one reads. -/
theorem widerReadsAreByteReads : Obligations.WiderReadsAreByteReads := by
  have u8 : Function.Injective Value.u8 := fun _ _ e => by injection e
  have u16 : Function.Injective Value.u16 := fun _ _ e => by injection e
  unfold Obligations.WiderReadsAreByteReads
  rw [exec_gu8, exec_gu16, exec_gu32, nextU32_eq_twice]
  refine ⟨fun s s1 s2 b0 b1 h1 r1 h2 r2 => ?_, fun s s1 k h1 r1 => ?_, fun s s1 s2 b0 k h1 r1 h2 r2 => ?_,
    fun s s1 s2 b0 b1 h1 r1 h2 r2 => ?_, fun s s1 k h1 r1 => ?_, fun s s1 s2 b0 k h1 r1 h2 r2 => ?_⟩
  · exact nextU16_eq_twice ▸ readCommand_twice_ok nextByte_streamRead u8 h1 r1 h2 r2
  · exact nextU16_eq_twice ▸ readCommand_twice_err_first h1 r1
  · exact nextU16_eq_twice ▸ readCommand_twice_err_second nextByte_streamRead u8 h1 r1 h2 r2
  · exact readCommand_twice_ok nextU16_streamRead u16 h1 r1 h2 r2
  · exact readCommand_twice_err_first h1 r1
  · exact readCommand_twice_err_second nextU16_streamRead u16 h1 r1 h2 r2

/-! ### Where a read ends -/

/-- The address of the window in CACHE, and how much of it has been delivered. -/
def place (s : State) : Word × Nat := (s.src, s.pos)

/-- The place after one more byte: a window that is used up is followed by the next. -/
def nextPlace (p : Word × Nat) : Word × Nat := if p.2 < 8 then (p.1, p.2 + 1) else (BitVec.ofNat 32 (p.1.toNat + 8), 1)

/-- A fill that completes takes the window at its address, of which nothing has been delivered. -/
theorem fill_place {a : Nat} {s t : State} (h : fill a s = .ok () t) : place t = (BitVec.ofNat 32 a, 0) := by
  rcases fill_cases a s with ⟨_, _, e⟩ | ⟨_, _, e⟩ | ⟨_, e⟩ <;> rw [e] at h <;> cases h <;> rfl

theorem deliver_place {b : Byte} {s t : State} (h : deliver s = .ok b t) : place t = (s.src, s.pos + 1) := by
  rcases deliver_cases s with ⟨_, _, e⟩ | ⟨_, e⟩ <;> rw [e] at h <;> cases h
  rfl

/-- A read that delivers moves the place as a function says, whatever the variant. -/
def EndsAt {α : Type} (f : Word × Nat → Word × Nat) (read : State → Res α) : Prop :=
  ∀ ⦃s a t⦄, read s = .ok a t → place t = f (place s)

theorem nextByte_endsAt : EndsAt nextPlace nextByte := by
  intro s b t h
  by_cases hp : s.pos < 8
  · rw [nextByte_of_lt hp] at h
    rw [deliver_place h]
    exact (if_pos hp).symm
  · rw [nextByte_of_le (Nat.not_lt.mp hp)] at h
    obtain ⟨_, u, filled, delivered⟩ := resBind_eq_ok.mp h
    obtain ⟨src, pos⟩ := Prod.mk.inj (fill_place filled)
    rw [deliver_place delivered, src, pos]
    exact (if_neg hp).symm

section
variable {α β : Type} {f : Word × Nat → Word × Nat} {read : State → Res α} (h : EndsAt f read)
include h

/-- Two reads move it twice. -/
theorem EndsAt.twice {compose : α → α → β} : EndsAt (f ∘ f) (twice compose read) := by
  intro s v t e
  obtain ⟨_, _, _, first, second, _⟩ := twice_eq_ok.mp e
  rw [h second, h first]
  rfl

/-- A read command that responds Ok moves the place as its read does. -/
theorem EndsAt.readCommand {val : α → Value} {s t : State} {v : Value} (e : readCommand val read s = .next t)
    (hv : t.resp = some (.ok v)) : place t = f (place s) := by
  obtain ⟨_, _, a, u, read_ok, _, rfl⟩ := readCommand_resp_ok e hv
  have ended : place u = f (place s) := h read_ok
  exact ended

end

theorem nextU16_endsAt : EndsAt (nextPlace ∘ nextPlace) nextU16 := nextU16_eq_twice ▸ nextByte_endsAt.twice

theorem nextU32_endsAt : EndsAt ((nextPlace ∘ nextPlace) ∘ nextPlace ∘ nextPlace) nextU32 :=
  nextU32_eq_twice ▸ nextU16_endsAt.twice

/-- Each of the three commands, where it responds Ok, moves the place by a fixed number of bytes. -/
theorem exec_read_place {i : Instr} (hi : i = .gu8 ∨ i = .gu16 ∨ i = .gu32) :
    ∃ f : Word × Nat → Word × Nat, ∀ (s t : State) (v : Value), exec i s = .next t → t.resp = some (.ok v) →
      place t = f (place s) := by
  rcases hi with rfl | rfl | rfl
  · exact ⟨_, fun s t v => nextByte_endsAt.readCommand (val := .u8)⟩
  · exact ⟨_, fun s t v => nextU16_endsAt.readCommand (val := .u16)⟩
  · exact ⟨_, fun s t v => nextU32_endsAt.readCommand (val := .u32)⟩

/-- Settles O35: where a read ends depends on the place where it begins alone. -/
theorem sameBoundariesBothVariants : Obligations.SameBoundariesBothVariants := by
  intro i s t s' t' v v' hi src pos h hv h' hv'
  obtain ⟨f, ends⟩ := exec_read_place hi
  have same : place s = place s' := Prod.ext src pos
  exact Prod.mk.inj ((ends s t v h hv).trans (same ▸ (ends s' t' v' h' hv').symm))

end Sys2Proof.Machine
end

section
/-! SUPPORT. What each stream element does once its bytes have been fetched (42_lz77.md R181 to R188), with all that it changes:
the header, the flag byte and the flag that selects a token, the literal, the back-reference and END. -/

namespace Sys2Proof.Machine

/-! ### Headers, flags and literals -/

/-- The end of a header parse, by the type that was latched (R182). -/
theorem latchHeader_unsupported {typ : BitVec 4} (h : typ ≠ 1) (size : BitVec 24) (s : State) :
    latchHeader typ size s = .next (raiseError .unsupportedCompressionType { s with ctype := typ, dsize := size }) :=
  if_neg h

theorem latchHeader_lz77 {typ : BitVec 4} (h : typ = 1) (size : BitVec 24) (s : State) :
    latchHeader typ size s = .next (afterHeader { s with ctype := typ, dsize := size }) :=
  if_pos h

/-- Settles O40: both layouts latch and test the type; what type 1 begins is told by the command that waits for the header. -/
theorem headerMeaning : Obligations.HeaderMeaning := by
  intro s typ ign size i hi
  have latch : exec i s = latchHeader typ size s := by rcases hi with rfl | rfl <;> rfl
  rw [latch]
  refine ⟨fun h => latchHeader_unsupported h size s, fun h ha => ?rhdr, fun h ha => ?lzreg⟩
  case rhdr => rw [latchHeader_lz77 h, afterHeader_rhdr (by exact ha)]; rfl
  case lzreg => rw [latchHeader_lz77 h, afterHeader_lzreg (by exact ha)]; rfl

/-- Settles O41. -/
theorem flagByteMeaning : Obligations.FlagByteMeaning := fun _ _ => rfl

/-- FLAGS[7] is set exactly in the upper half of the flag bytes. -/
theorem nextFlag_eq (s : State) : nextFlag s = decide (128 ≤ s.flags.toNat) :=
  (BitVec.msb_eq_getLsbD_last s.flags).symm.trans (BitVec.msb_eq_decide s.flags)

/-- Where a token comes next, a flag is used before its bytes are fetched (R184). -/
theorem beforeFetch_token {s : State} {region : Bool} (ha : s.activity = .run region) (hmore : s.opos < s.outSize)
    (hf : s.fcnt ≠ 0) : beforeFetch s = useFlag s := by
  rw [beforeFetch, nextSite_token ha hmore hf]
  cases nextFlag s <;> rfl

/-- Settles O42: the place of the token is read from FLAGS[7], and the shift and the count are those of `useFlag`. -/
theorem tokenSelection : Obligations.TokenSelection := by
  intro s region ha hmore hf
  rw [nextSite_token ha hmore hf, beforeFetch_token ha hmore hf, nextFlag_eq]
  refine ⟨by simp only [decide_eq_true_eq], ?shift, rfl⟩
  case shift => rw [useFlag_flags, BitVec.toNat_shiftLeft, Nat.shiftLeft_eq, pow_one, Nat.mul_comm]

/-- One output byte is written at OPOS, and every other byte of OUTMEM reads as before. -/
theorem outRead_outPush (v : Byte) (s : State) (i : Nat) :
    outRead (outPush v s) i = if s.opos = i then some v else outRead s i :=
  outRead_write s.outmem s.opos v i

/-- Settles O43. -/
theorem literalMeaning : Obligations.LiteralMeaning := by
  intro s d hmore
  refine ⟨outPush d s, if_pos hmore, rfl, ?_, fun i hi => ?_, rfl⟩
  · rw [outRead_outPush, if_pos rfl]
  · rw [outRead_outPush, if_neg hi.symm]

/-! ### Back-references -/

/-- Settles O44: the distance is tested after LEN and DIST have been written. -/
theorem backReferenceOutOfRange : Obligations.BackReferenceOutOfRange := fun _ _ _ hlt => if_pos hlt

/-- The bytes that hold a value are those that a canonical OUTMEM lists. -/
theorem outRead_isSome (s : State) (i : Nat) : (outRead s i).isSome = true ↔ i ∈ s.outmem.map Prod.fst := by
  unfold outRead
  induction s.outmem with
  | nil => simp [outDefault]
  | cons c m ih =>
    obtain ⟨a, v⟩ := c
    by_cases h : a = i
    · simp [memRead_cons, h]
    · simp [memRead_cons, h, ih, Ne.symm h]

/-- By the invariant they are the bytes below OPOS (10_state.md R41(c)). -/
theorem Inv.outRead_isSome {s : State} (h : Inv s) (i : Nat) : (outRead s i).isSome = true ↔ i < s.opos := by
  rw [Machine.outRead_isSome, h.written, List.mem_range]

theorem Inv.produced {s : State} (h : Inv s) : Produced (fun _ => True) s := by
  intro i hi
  obtain ⟨v, hv⟩ := Option.isSome_iff_exists.mp ((h.outRead_isSome i).mpr hi)
  exact ⟨v, hv, trivial⟩

/-- A copy reads each byte that it writes DIST bytes before it, and leaves every other byte (R187). -/
theorem copyLoop_outRead {k : Nat} {s t : State} (hd : 1 ≤ s.dist) (hle : s.dist ≤ s.opos) (h : copyLoop k s = .next t) :
    (∀ i, i < s.opos ∨ t.opos ≤ i → outRead t i = outRead s i)
    ∧ ∀ i, s.opos ≤ i → i < t.opos → outRead t i = outRead t (i - s.dist) := by
  induction k generalizing s with
  | zero =>
    cases h
    exact ⟨fun _ _ => rfl, fun i hi hi' => absurd hi' (Nat.not_lt.mpr hi)⟩
  | succ k ih =>
    unfold copyLoop at h
    split at h
    · cases h
      exact ⟨fun _ _ => rfl, fun i hi hi' => absurd hi' (Nat.not_lt.mpr hi)⟩
    · split at h
      · next v read =>
        obtain ⟨_, grown, _⟩ := copyLoop_next h
        obtain ⟨frame, copied⟩ := ih (s := outPush v s) hd (Nat.le_succ_of_le hle) h
        rw [outPush_opos] at grown frame copied
        rw [outPush_dist] at copied
        refine ⟨fun i hi => ?others, fun i hi hi' => ?written⟩
        case others => rw [frame i (by omega), outRead_outPush, if_neg (by omega)]
        case written =>
          by_cases hfirst : i = s.opos
          · subst hfirst
            have here : outRead t s.opos = some v := by rw [frame _ (by omega), outRead_outPush, if_pos rfl]
            rw [here, frame _ (by omega), outRead_outPush, if_neg (by omega), read]
          · exact copied i (by omega) hi'
      · cases h

/-- Bytes that repeat those `dist` before them, from `start` to `stop`, repeat the `dist` bytes before `start` cyclically. -/
theorem cyclic_of_repeats {α : Type} {f : Nat → α} {start stop dist : Nat} (hd : 1 ≤ dist) (hle : dist ≤ start)
    (h : ∀ i, start ≤ i → i < stop → f i = f (i - dist)) (k : Nat) (hk : start + k < stop) :
    f (start + k) = f (start - dist + k % dist) := by
  induction k using Nat.strong_induction_on with
  | _ k ih =>
    rw [h (start + k) (by omega) hk]
    by_cases hlt : k < dist
    · rw [Nat.mod_eq_of_lt hlt]
      congr 1
      omega
    · rw [Nat.mod_eq_sub_mod (Nat.not_lt.mp hlt), ← ih (k - dist) (by omega) (by omega)]
      congr 1
      omega

/-- Settles O45: the bytes before OPOS hold a value by the invariant, so the copy completes; what it writes repeats what stands DIST
bytes before. -/
theorem backReferenceCopies : Obligations.BackReferenceCopies := by
  intro s len dist h hd hle
  obtain ⟨t, copied, _, opos⟩ :=
    copyLoop_produced (s := { s with len := len, dist := dist }) h.produced hd hle h.opos_le len
  obtain ⟨others, repeats⟩ := copyLoop_outRead hd hle copied
  obtain ⟨frame, _, _⟩ := copyLoop_next copied
  refine ⟨t, (if_neg (Nat.not_lt.mpr hle)).trans copied, opos, fun k hk => ?_, others, frame⟩
  have source : outRead t (s.opos - dist + k % dist) = outRead s (s.opos - dist + k % dist) :=
    others _ (.inl (by have := Nat.mod_lt k hd; dsimp only; omega))
  rw [← source]
  exact cyclic_of_repeats hd hle repeats k hk

/-! ### END -/

/-- The value with which the command of a run responds: none for LZRUN, the declared size for LZREG (R183, R189). -/
def runValue (region : Bool) (s : State) : Value := if region then .size s.dsize else .none

/-- END completes the command of the run (R188). -/
theorem execEndRun_run {s : State} {region : Bool} (ha : s.activity = .run region) :
    execEndRun s = .next (finishOk (runValue region s) s) := by
  rw [execEndRun, ha]
  cases region <;> rfl

/-- Settles O46. -/
theorem endMeaning : Obligations.EndMeaning := fun _ => ⟨execEndRun_run, execEndRun_run⟩

end Sys2Proof.Machine
end

section
/-! SUPPORT. What the byte source does not see. A read looks at the launch, the key and the stream registers and writes the stream
registers alone; an update of anything else may as well come after the read. So what is read inside a command, and after the
end of another, is what would be read without either (41_bytesource.md R153, 42_lz77.md R189). -/

namespace Sys2Proof.Machine

/-- The registers of the stream, written: where it stands, the window, and the ACC that decrypted it. -/
def reposition (src : Word) (pos : Nat) (cache : Blk) (acc : Acc) (s : State) : State :=
  { s with src := src, pos := pos, cache := cache, acc := acc }

theorem setWindow_eq (a : Nat) (window : Blk) (s : State) :
    setWindow a window s = reposition (BitVec.ofNat 32 a) 0 window s.acc s := rfl

theorem setWindow_acc_eq (a : Nat) (window : Blk) (acc : Acc) (s : State) :
    setWindow a window { s with acc := acc } = reposition (BitVec.ofNat 32 a) 0 window acc s := rfl

theorem deliver_eq (s : State) :
    deliver s = if s.variant = .plain ∧ extentOf s ≤ spos s then .raise .truncatedSource s
      else .ok (blkGet s.cache s.pos) (reposition s.src (s.pos + 1) s.cache s.acc s) := rfl

/-- An update that a read of the byte source does not see: it leaves all that a read looks at, and may come before or after what
a read writes. -/
structure Unseen (g : State → State) : Prop where
  params : ∀ s, (g s).params = s.params
  srcmem : ∀ s, (g s).srcmem = s.srcmem
  ks : ∀ s, (g s).ks = s.ks
  variant : ∀ s, (g s).variant = s.variant
  src : ∀ s, (g s).src = s.src
  pos : ∀ s, (g s).pos = s.pos
  cache : ∀ s, (g s).cache = s.cache
  acc : ∀ s, (g s).acc = s.acc
  commutes : ∀ s src pos cache acc, g (reposition src pos cache acc s) = reposition src pos cache acc (g s)

section
variable {g : State → State} (hg : Unseen g)
include hg

theorem Unseen.extentOf (s : State) : extentOf (g s) = extentOf s := by rw [Machine.extentOf, hg.params, Machine.extentOf]

theorem Unseen.spos (s : State) : spos (g s) = spos s := by rw [Machine.spos, hg.src, hg.pos, Machine.spos]

theorem Unseen.rawWindow (s : State) (a : Nat) : rawWindow (g s) a = rawWindow s a := by
  unfold Machine.rawWindow srcByte
  rw [hg.srcmem]

/-- Two updates, one after the other. -/
theorem Unseen.comp {f : State → State} (hf : Unseen f) : Unseen fun s => f (g s) where
  params s := (hf.params _).trans (hg.params s)
  srcmem s := (hf.srcmem _).trans (hg.srcmem s)
  ks s := (hf.ks _).trans (hg.ks s)
  variant s := (hf.variant _).trans (hg.variant s)
  src s := (hf.src _).trans (hg.src s)
  pos s := (hf.pos _).trans (hg.pos s)
  cache s := (hf.cache _).trans (hg.cache s)
  acc s := (hf.acc _).trans (hg.acc s)
  commutes s src pos cache acc := by rw [hg.commutes, hf.commutes]

theorem fill_unseen (a : Nat) (s : State) : fill a (g s) = (fill a s).mapState g := by
  cases hv : s.variant with
  | plain =>
    have window : plainWindow (g s) a = plainWindow s a := plainWindow_congr (hg.params s) (hg.srcmem s) a
    rw [fill_plain hv, fill_plain ((hg.variant s).trans hv), Res.mapState_ok, window, setWindow_eq, setWindow_eq,
      hg.commutes, hg.acc]
  | encrypted =>
    by_cases hx : a + 8 ≤ extentOf s
    · rw [fill_encrypted hv hx, fill_encrypted ((hg.variant s).trans hv) (by rwa [hg.extentOf]), Res.mapState_ok,
        setWindow_acc_eq, setWindow_acc_eq, hg.commutes, hg.params, hg.ks, hg.acc, hg.rawWindow]
    · have overhangs := Nat.not_le.mp hx
      rw [fill_truncated hv overhangs, fill_truncated ((hg.variant s).trans hv) (by rwa [hg.extentOf]), Res.mapState_raise]

theorem deliver_unseen (s : State) : deliver (g s) = (deliver s).mapState g := by
  rw [deliver_eq, deliver_eq, hg.variant, hg.extentOf, hg.spos]
  split
  · rw [Res.mapState_raise]
  · rw [Res.mapState_ok, hg.commutes, hg.src, hg.pos, hg.cache, hg.acc]

theorem nextByte_unseen (s : State) : nextByte (g s) = (nextByte s).mapState g := by
  by_cases hp : s.pos < 8
  · rw [nextByte_of_lt hp, nextByte_of_lt (by rwa [hg.pos]), deliver_unseen hg]
  · have hp8 : 8 ≤ s.pos := Nat.not_lt.mp hp
    rw [nextByte_of_le hp8, nextByte_of_le (by rwa [hg.pos]), hg.src, fill_unseen hg]
    exact resBind_mapState (fun _ u => deliver_unseen hg u) _

theorem fetchBytes_unseen (k : Nat) (s : State) : fetchBytes k (g s) = (fetchBytes k s).mapState g := by
  induction k generalizing s with
  | zero => rfl
  | succ k ih =>
    have others : ∀ b u, resBind (fetchBytes k (g u)) (fun bs v => Res.ok (b :: bs) v)
        = (resBind (fetchBytes k u) fun bs v => Res.ok (b :: bs) v).mapState g := fun b u => by
      rw [ih]
      exact resBind_mapState (fun _ _ => rfl) _
    rw [fetchBytes, nextByte_unseen hg]
    exact resBind_mapState others _

end

/-- No update at all. -/
theorem unseen_id : Unseen fun s => s :=
  ⟨fun _ => rfl, fun _ => rfl, fun _ => rfl, fun _ => rfl, fun _ => rfl, fun _ => rfl, fun _ => rfl, fun _ => rfl,
    fun _ _ _ _ _ => rfl⟩

/-! ### What the running command has to do, the response, and OUTMEM -/

/-- The state as it stands inside a command, or after one: what is still to be done, and the last response. -/
def asCommand (a : Activity) (r : Option Response) (s : State) : State := { s with activity := a, resp := r }

theorem asCommand_unseen (a : Activity) (r : Option Response) : Unseen (asCommand a r) :=
  ⟨fun _ => rfl, fun _ => rfl, fun _ => rfl, fun _ => rfl, fun _ => rfl, fun _ => rfl, fun _ => rfl, fun _ => rfl,
    fun _ _ _ _ _ => rfl⟩

theorem clearOut_unseen (n : Nat) : Unseen (clearOut n) :=
  ⟨fun _ => rfl, fun _ => rfl, fun _ => rfl, fun _ => rfl, fun _ => rfl, fun _ => rfl, fun _ => rfl, fun _ => rfl,
    fun _ _ _ _ _ => rfl⟩

/-- A raise overwrites both. -/
theorem raiseError_asCommand (a : Activity) (r : Option Response) (k : ErrKind) (s : State) :
    raiseError k (asCommand a r s) = raiseError k s := rfl

end Sys2Proof.Machine
end

section
/-! SUPPORT. The header of a region, read as a command (42_lz77.md R181, R182): RHDR under both layouts, from a source of either
variant, and from a Plain source whose bytes are those of SRCMEM. -/

namespace Sys2Proof.Machine

open Host (Outcome)

/-! ### Reading a header -/

/-- The type and the size in the bytes of a header (30_encoding.md R94, R95). -/
def headerFields (l : HdrLayout) (bs : List Byte) : BitVec 4 × BitVec 24 :=
  match l with
  | .table6 => (hdrType (bs.getD 0 0), hdrSize6 (bs.getD 0 0) (bs.getD 1 0) (bs.getD 2 0))
  | .word32 => (hdrType (bs.getD 0 0), le24 (bs.getD 1 0) (bs.getD 2 0) (bs.getD 3 0))

/-- A header of either layout latches the fields of its bytes. -/
theorem execElement_headerFields (l : HdrLayout) (bs : List Byte) (s : State) :
    execElement (decodeElement (.header l) fun i => bs.getD i 0) s
      = latchHeader (headerFields l bs).1 (headerFields l bs).2 s := by
  cases l <;> rfl

/-- Both fields of a header latched. -/
def latched (fields : BitVec 4 × BitVec 24) (s : State) : State := { s with ctype := fields.1, dsize := fields.2 }

/-- A header of type 1 completes RHDR with Ok(DSIZE). -/
theorem latchHeader_rhdr {fields : BitVec 4 × BitVec 24} (h : fields.1 = 1) (r : Option Response) (s : State) :
    latchHeader fields.1 fields.2 (asCommand (.header false) r s) = .next (finishOk (.size fields.2) (latched fields s)) := by
  rw [latchHeader_lz77 h, afterHeader_rhdr (by rfl)]
  rfl

/-- In LZREG it begins Run(DSIZE). -/
theorem latchHeader_lzreg {fields : BitVec 4 × BitVec 24} (h : fields.1 = 1) (r : Option Response) (s : State) :
    latchHeader fields.1 fields.2 (asCommand (.header true) r s)
      = .next (asCommand (.run true) r (beginRun true fields.2 (latched fields s))) := by
  rw [latchHeader_lz77 h, afterHeader_lzreg (by rfl)]
  rfl

/-- A header of another type raises in both. -/
theorem latchHeader_raise {fields : BitVec 4 × BitVec 24} (h : fields.1 ≠ 1) (a : Activity) (r : Option Response) (s : State) :
    latchHeader fields.1 fields.2 (asCommand a r s) = .next (raiseError .unsupportedCompressionType (latched fields s)) := by
  rw [latchHeader_unsupported h]
  rfl

section
variable {l : HdrLayout} {bs : List Byte} {k : ErrKind} {s t : State}

section
variable {g : State → State} (hg : Unseen g) {region : Bool} (ha : (g s).activity = .header region)
  (hl : s.params.hdrLayout = l)
include hg ha hl

theorem fetchBytes_header :
    fetchBytes (siteBytes (nextSite (g s))) (beforeFetch (g s)) = (fetchBytes (siteBytes (.header l)) s).mapState g := by
  have site : nextSite (g s) = .header l := by rw [nextSite_header ha, hg.params, hl]
  rw [beforeFetch, site, fetchBytes_unseen hg]

/-- Where a command waits for a header, its bytes are read as between commands, and latched. -/
theorem elementStep_header_ok (hb : fetchBytes (siteBytes (.header l)) s = .ok bs t) :
    elementStep (g s) = latchHeader (headerFields l bs).1 (headerFields l bs).2 (g t) := by
  have fetched := fetchBytes_header hg ha hl
  rw [hb] at fetched
  rw [elementStep_of_fetchBytes (by simp [ha]) fetched, nextSite_header ha, hg.params, hl, execElement_headerFields]

/-- A header that does not arrive ends the command. -/
theorem elementStep_header_raise (hb : fetchBytes (siteBytes (.header l)) s = .raise k t) :
    elementStep (g s) = .next (raiseError k (g t)) := by
  have fetched := fetchBytes_header hg ha hl
  rw [hb] at fetched
  exact elementStep_of_fetchBytes_raise (by simp [ha]) fetched

end

/-! ### RHDR -/

section
variable (hr : Ready s)
include hr

/-- In the state of 60_exceptions.md R235 RHDR is the element that a command waiting for a header executes. -/
theorem exec_rhdr_of_ready : exec .rhdr s = elementStep (asCommand (.header false) s.resp s) := by
  obtain ⟨_, hs, he⟩ := hr
  exact gated_of_ready (body := fun s => elementStep { s with activity := .header false }) hs he

theorem exec_rhdr_eq_step : exec .rhdr s = step { s with activity := .header false } := by
  rw [exec_rhdr_of_ready hr, asCommand, step_eq_elementStep (by simp)]

variable (hl : s.params.hdrLayout = l)
include hl

/-- A header that arrives: both fields are latched, and the type decides the response (R182). -/
theorem exec_rhdr_ok (hb : fetchBytes (siteBytes (.header l)) s = .ok bs t) :
    ((headerFields l bs).1 = 1 → exec .rhdr s = .next { t with
        ctype := (headerFields l bs).1, dsize := (headerFields l bs).2
        resp := some (.ok (.size (headerFields l bs).2)) })
    ∧ ((headerFields l bs).1 ≠ 1 → exec .rhdr s = .next { t with
        ctype := (headerFields l bs).1, dsize := (headerFields l bs).2, err := errCode .unsupportedCompressionType
        resp := some (.err .unsupportedCompressionType) }) := by
  have idle : t.activity = .idle := by rw [(fetchBytes_ok hb).2]; exact hr.1
  rw [exec_rhdr_of_ready hr, elementStep_header_ok (asCommand_unseen _ _) rfl hl hb]
  constructor
  · intro htype
    rw [latchHeader_rhdr htype, finishOk_of_idle (by exact idle)]
    rfl
  · intro htype
    rw [latchHeader_raise htype, raiseError_of_idle (by exact idle)]
    rfl

/-- A header that does not arrive: neither field is latched (60_exceptions.md R236, R238(b)). -/
theorem exec_rhdr_raise (hb : fetchBytes (siteBytes (.header l)) s = .raise k t) :
    k = .truncatedSource ∧ t.ctype = s.ctype ∧ t.dsize = s.dsize
      ∧ exec .rhdr s = .next { t with err := errCode .truncatedSource, resp := some (.err .truncatedSource) } := by
  obtain ⟨rfl, moved⟩ := fetchBytes_raise hb
  have idle : t.activity = .idle := by rw [moved]; exact hr.1
  refine ⟨rfl, by rw [moved], by rw [moved], ?_⟩
  rw [exec_rhdr_of_ready hr, elementStep_header_raise (asCommand_unseen _ _) rfl hl hb, raiseError_asCommand,
    raiseError_of_idle idle]

end

end

/-! ### Bytes of a Plain source -/

/-- The n bytes of SRCMEM from SPOS + k on. -/
def bytesFrom (s : State) (k n : Nat) : List Byte := (List.range' k n).map fun i => srcByte s (spos s + i)

theorem bytesFrom_succ (s : State) (k n : Nat) :
    bytesFrom s k (n + 1) = srcByte s (spos s + k) :: bytesFrom s (k + 1) n := by
  rw [bytesFrom, List.range'_succ, List.map_cons, bytesFrom]

section
variable {s t : State} {k : Nat} (h : PlainAfter s k t)
include h

/-- Below EXTENT the bytes of SRCMEM are delivered in order (41_bytesource.md R157). -/
theorem PlainAfter.fetchBytes {n : Nat} (hx : spos s + (k + n) ≤ extentOf s) :
    ∃ u, fetchBytes n t = .ok (bytesFrom s k n) u ∧ PlainAfter s (k + n) u := by
  induction n generalizing k t with
  | zero => exact ⟨t, rfl, h⟩
  | succ n ih =>
    obtain ⟨u, first, after⟩ := h.next (by omega)
    obtain ⟨v, others, after'⟩ := ih after (by omega)
    refine ⟨v, fetchBytes_succ_eq_ok.mpr ⟨_, u, _, first, others, bytesFrom_succ s k n⟩, ?_⟩
    rwa [Nat.add_right_comm, Nat.add_assoc] at after'

/-- Bytes that reach EXTENT raise where they do, and SPOS is left there (R158(a)). -/
theorem PlainAfter.fetchBytes_truncated {n : Nat} (hx : extentOf s < spos s + (k + (n + 1))) :
    ∃ u, Machine.fetchBytes (n + 1) t = .raise .truncatedSource u ∧ spos u = max (spos s + k) (extentOf s)
      ∧ u = { s with src := u.src, pos := u.pos, cache := u.cache } := by
  induction n generalizing k t with
  | zero =>
    obtain ⟨source, at_k, frame⟩ := h
    have extent : extentOf t = extentOf s := by rw [frame]; rfl
    obtain ⟨u, raised, _, at_same, frame', _, _⟩ := source.truncated (by omega)
    exact ⟨u, fetchBytes_succ_eq_raise.mpr (.inl raised), by omega, by rw [frame', frame]⟩
  | succ n ih =>
    by_cases here : extentOf s ≤ spos s + k
    · obtain ⟨source, at_k, frame⟩ := h
      have extent : extentOf t = extentOf s := by rw [frame]; rfl
      obtain ⟨u, raised, _, at_same, frame', _, _⟩ := source.truncated (by omega)
      exact ⟨u, fetchBytes_succ_eq_raise.mpr (.inl raised), by omega, by rw [frame', frame]⟩
    · obtain ⟨u, first, after⟩ := h.next (by omega)
      obtain ⟨v, raised, at_end, frame⟩ := ih after (by omega)
      exact ⟨v, fetchBytes_succ_eq_raise.mpr (.inr ⟨_, u, first, raised⟩), by omega, frame⟩

end

section
variable {l : HdrLayout} {s : State} (hinv : Inv s) (hr : Ready s) (hv : s.variant = .plain) (hl : s.params.hdrLayout = l)
include hinv hr hv hl

/-- RHDR on a Plain source with the whole header below EXTENT. -/
theorem exec_rhdr_plain {n : Nat} (hn : siteBytes (.header l) = n) (hx : spos s + n ≤ extentOf s) :
    ∃ t, exec .rhdr s = .next t ∧ spos t = spos s + n
      ∧ t.ctype = (headerFields l (bytesFrom s 0 n)).1 ∧ t.dsize = (headerFields l (bytesFrom s 0 n)).2
      ∧ (t.ctype = 1 → t.err = 0 ∧ t.resp = some (.ok (.size t.dsize)))
      ∧ (t.ctype ≠ 1 → t.err = errCode .unsupportedCompressionType ∧ t.resp = some (.err .unsupportedCompressionType))
      ∧ t = { s with
          src := t.src, pos := t.pos, cache := t.cache, ctype := t.ctype, dsize := t.dsize, err := t.err
          resp := t.resp } := by
  subst hn
  have ⟨_, attached, noError⟩ := hr
  obtain ⟨u, fetched, _, at_end, frame⟩ :=
    (PlainAfter.zero (hinv.plainSource attached hv)).fetchBytes (n := siteBytes (.header l)) (by omega)
  rw [Nat.zero_add] at at_end
  have err : u.err = 0 := by rw [frame]; exact noError
  obtain ⟨lz77, unsupported⟩ := exec_rhdr_ok hr hl fetched
  by_cases htype : (headerFields l (bytesFrom s 0 (siteBytes (.header l)))).1 = 1
  · exact ⟨_, lz77 htype, at_end, rfl, rfl, fun _ => ⟨err, rfl⟩, fun h => absurd htype h, by rw [frame]⟩
  · exact ⟨_, unsupported htype, at_end, rfl, rfl, fun h => absurd h htype, fun _ => ⟨rfl, rfl⟩, by rw [frame]⟩

/-- RHDR on a Plain source with a header that reaches EXTENT. -/
theorem exec_rhdr_plain_truncated {n : Nat} (hn : siteBytes (.header l) = n + 1) (hx : extentOf s < spos s + (n + 1)) :
    ∃ t, exec .rhdr s = .next t ∧ spos t = max (spos s) (extentOf s)
      ∧ t.err = errCode .truncatedSource ∧ t.resp = some (.err .truncatedSource)
      ∧ t = { s with src := t.src, pos := t.pos, cache := t.cache, err := t.err, resp := t.resp } := by
  have ⟨_, attached, _⟩ := hr
  obtain ⟨u, raised, at_end, frame⟩ :=
    (PlainAfter.zero (hinv.plainSource attached hv)).fetchBytes_truncated (n := n) (by omega)
  obtain ⟨_, _, _, run⟩ := exec_rhdr_raise hr hl (hn ▸ raised)
  exact ⟨_, run, at_end, rfl, rfl, by rw [frame]⟩

end

/-- Settles O47: RHDR is one header element; its three bytes are the fields of TABLE6. -/
theorem headerReadTable6 : Obligations.HeaderReadTable6 := by
  intro s hr hl
  refine ⟨exec_rhdr_eq_step hr, fun b0 b1 b2 t hb => ?_, fun k t hb => exec_rhdr_raise hr hl hb, fun hinv hv hx => ?_,
    fun hinv hv hx => exec_rhdr_plain_truncated hinv hr hv hl rfl hx⟩
  · exact ⟨hdrType b0, hdrSize6 b0 b1 b2, hdrType_toNat b0, hdrSize6_toNat b0 b1 b2, exec_rhdr_ok hr hl hb⟩
  · obtain ⟨t, run, at_end, ctype, dsize, responds⟩ := exec_rhdr_plain hinv hr hv hl (n := 3) rfl hx
    exact ⟨t, run, at_end, ctype ▸ hdrType_toNat _, dsize ▸ hdrSize6_toNat _ _ _, responds⟩

/-- Settles O48: RHDR is one header element; its four bytes are the fields of WORD32. -/
theorem headerReadWord32 : Obligations.HeaderReadWord32 := by
  intro s hr hl
  refine ⟨exec_rhdr_eq_step hr, fun b0 b1 b2 b3 t hb => ?_, fun k t hb => exec_rhdr_raise hr hl hb, fun hinv hv hx => ?_,
    fun hinv hv hx => exec_rhdr_plain_truncated hinv hr hv hl rfl hx⟩
  · exact ⟨hdrType b0, le24 b1 b2 b3, hdrType_toNat b0, le24_toNat b1 b2 b3, exec_rhdr_ok hr hl hb⟩
  · obtain ⟨t, run, at_end, ctype, dsize, responds⟩ := exec_rhdr_plain hinv hr hv hl (n := 4) rfl hx
    exact ⟨t, run, at_end, ctype ▸ hdrType_toNat _, dsize ▸ le24_toNat _ _ _, responds⟩

end Sys2Proof.Machine
end

section
/-! SUPPORT. How a run ends (42_lz77.md R183, R187, R188, R190): each element of a run ends it or goes on with it, and which of the two
commands the run belongs to decides nothing but the response at its end. -/

namespace Sys2Proof.Machine

open Host (Outcome)

/-! ### Fetching and copying do not look at the command -/

theorem fetchToken_asCommand (isRef : Bool) (a : Activity) (r : Option Response) (s : State) :
    fetchToken isRef (asCommand a r s) = (fetchToken isRef s).mapState (asCommand a r) := by
  cases isRef with
  | false =>
    rw [fetchToken_false_eq, fetchToken_false_eq, fetchBytes_unseen (asCommand_unseen a r)]
    exact resBind_mapState (fun _ _ => rfl) _
  | true =>
    rw [fetchToken_true_eq, fetchToken_true_eq, fetchBytes_unseen (asCommand_unseen a r)]
    exact resBind_mapState (fun _ _ => rfl) _

theorem fetchRun_asCommand (a : Activity) (r : Option Response) (s : State) :
    fetchRun (asCommand a r s) = (fetchRun s).mapState (asCommand a r) := by
  show (if s.outSize ≤ s.opos then Res.ok Element.endRun (asCommand a r s) else _) = _
  unfold fetchRun
  split
  · rfl
  · show (if s.fcnt = 0 then _ else fetchToken (nextFlag s) (asCommand a r (useFlag s))) = _
    split
    · rw [nextByte_unseen (asCommand_unseen a r)]
      exact resBind_mapState (fun _ _ => rfl) _
    · exact fetchToken_asCommand _ a r _

theorem copyLoop_asCommand {k : Nat} {s t : State} (h : copyLoop k s = .next t) (a : Activity) (r : Option Response) :
    copyLoop k (asCommand a r s) = .next (asCommand a r t) := by
  induction k generalizing s with
  | zero => cases h; rfl
  | succ k ih =>
    unfold copyLoop at h ⊢
    split at h
    · next hend => cases h; exact if_pos hend
    · next hmore =>
      split at h
      · next v read =>
        have read' : outRead (asCommand a r s) ((asCommand a r s).opos - (asCommand a r s).dist) = some v := read
        rw [if_neg (by exact hmore), read']
        exact ih h
      · cases h

/-! ### One element -/

/-- Inside a run of either command an element is fetched alike, and then executed. -/
theorem elementStep_of_fetchRun {s u : State} {e : Element} (h : fetchRun s = .ok e u) (region : Bool) (r : Option Response) :
    elementStep (asCommand (.run region) r s) = execElement e (asCommand (.run region) r u) := by
  have fetched : fetchElement (asCommand (.run region) r s) = .ok e (asCommand (.run region) r u) := by
    show fetchRun _ = _
    rw [fetchRun_asCommand, h, Res.mapState_ok]
  rw [elementStep, fetched]

/-- An element that does not arrive ends either command with the same error. -/
theorem elementStep_of_fetchRun_raise {s u : State} {k : ErrKind} (h : fetchRun s = .raise k u) (region : Bool)
    (r : Option Response) : elementStep (asCommand (.run region) r s) = .next (raiseError k u) := by
  have fetched : fetchElement (asCommand (.run region) r s) = .raise k (asCommand (.run region) r u) := by
    show fetchRun _ = _
    rw [fetchRun_asCommand, h, Res.mapState_raise]
  rw [elementStep, fetched]
  exact congrArg Outcome.next (raiseError_asCommand _ _ k u)

/-- All that the elements of a run change while it goes on. -/
def TokenMoved (s t : State) : Prop :=
  t = { s with
    src := t.src, pos := t.pos, cache := t.cache, acc := t.acc, opos := t.opos, flags := t.flags, fcnt := t.fcnt
    len := t.len, dist := t.dist, outmem := t.outmem }

theorem TokenMoved.refl (s : State) : TokenMoved s s := rfl

theorem TokenMoved.trans {s t u : State} (h1 : TokenMoved s t) (h2 : TokenMoved t u) : TokenMoved s u := by
  unfold TokenMoved at *
  rw [h2, h1]

theorem Fetched.tokenMoved {s t : State} (h : Fetched s t) : TokenMoved s t := by
  unfold Fetched at h
  unfold TokenMoved
  rw [h]

/-- The end of a run that has come to `u`, by the command it belongs to: the declared size has been produced, or an element has
raised and bytes are wanting. A run does not test the type (R182). -/
inductive RunEnd (u : State) : (Bool → State) → Prop
  | complete (h : u.opos = u.outSize) : RunEnd u fun region => finishOk (runValue region u) u
  | error {k : ErrKind} (hk : k ≠ .unsupportedCompressionType) (h : u.opos < u.outSize) : RunEnd u fun _ => raiseError k u

theorem RunEnd.idle {u : State} {ends : Bool → State} (h : RunEnd u ends) (region : Bool) : (ends region).activity = .idle := by
  cases h <;> rfl

/-- What runs inside `s`, a state of a run of either command, ends that run: how depends on the command alone. -/
def EndsRun (run : State → Outcome State Fault Refusal) (s : State) : Prop :=
  ∃ u ends, TokenMoved s u ∧ RunEnd u ends ∧ ∀ region r, run (asCommand (.run region) r s) = .next (ends region)

/-- It goes on with the run, and with one byte more. -/
def Produces (run : State → Outcome State Fault Refusal) (s : State) : Prop :=
  ∃ u, TokenMoved s u ∧ InRun u ∧ s.opos < u.opos
    ∧ ∀ region r, run (asCommand (.run region) r s) = .next (asCommand (.run region) r u)

/-- It goes on with the run, and with fewer elements left. -/
def Continues (run : State → Outcome State Fault Refusal) (s : State) : Prop :=
  ∃ u, TokenMoved s u ∧ InRun u ∧ elementsLeft u < elementsLeft s
    ∧ ∀ region r, run (asCommand (.run region) r s) = .next (asCommand (.run region) r u)

section
variable {s : State} (h : InRun s)
include h

theorem execLit_run (hmore : s.opos < s.outSize) (d : Byte) : Produces (execLit d) s :=
  have pushed : InRun (outPush d s) := ⟨h.running, hmore, outPush_produced h.produced trivial⟩
  ⟨outPush d s, rfl, pushed, Nat.lt_succ_self _, fun _ _ => if_pos hmore⟩

/-- A back-reference ends the run where it reaches before the first byte (R186); else it copies at least one (R187). -/
theorem execRef_run (hmore : s.opos < s.outSize) {len dist : Nat} (hlen : 0 < len) (hdist : 1 ≤ dist) :
    EndsRun (execRef len dist) s ∨ Produces (execRef len dist) s := by
  by_cases hle : dist ≤ s.opos
  · have selected : Produced (fun _ => True) { s with len := len, dist := dist } := h.produced
    obtain ⟨t, copied, produced, opos⟩ := copyLoop_produced selected hdist hle h.opos_le len
    have frame := (copyLoop_next copied).1
    have moved : TokenMoved s t := by rw [frame]; rfl
    have activity : t.activity = s.activity := by rw [frame]
    have size : t.outSize = s.outSize := by rw [frame]
    dsimp only at opos
    refine .inr ⟨t, moved, ⟨activity ▸ h.running, by omega, produced⟩, by omega, fun region r => ?_⟩
    exact (if_neg (Nat.not_lt.mpr hle)).trans (copyLoop_asCommand copied _ _)
  · exact .inl ⟨{ s with len := len, dist := dist }, _, rfl, .error (k := .backReferenceOutOfRange) (by decide) hmore,
      fun _ _ => if_pos (Nat.not_le.mp hle)⟩

/-- The token that a flag selects, once it has been fetched. -/
theorem execToken_run (hmore : s.opos < s.outSize) {e : Element} (l : RefLayout)
    (he : (∃ d, e = .lit d) ∨ ∃ r0 r1, e = decodeRef l r0 r1) : EndsRun (execElement e) s ∨ Produces (execElement e) s := by
  rcases he with ⟨d, rfl⟩ | ⟨r0, r1, rfl⟩
  · exact .inr (execLit_run h hmore d)
  · exact execRef_run h hmore (Nat.succ_pos _) (Nat.succ_pos _)

/-- One element of a run, fetched and executed or failing to arrive. -/
theorem elementStep_run : EndsRun elementStep s ∨ Continues elementStep s := by
  obtain ⟨region, ha⟩ := h.running
  have fetch : fetchElement s = fetchRun s := by rw [fetchElement, ha]
  cases hf : fetchRun s with
  | raise k u =>
    obtain ⟨rfl, fetched⟩ := fetchElement_raise (fetch.trans hf)
    have hmore : s.opos < s.outSize := by
      by_contra hend
      rw [fetchRun, if_pos (Nat.not_lt.mp hend)] at hf
      cases hf
    have bytes_wanting : u.opos < u.outSize := by rw [fetched]; exact hmore
    exact .inl ⟨u, _, fetched.tokenMoved, .error (k := .truncatedSource) (by decide) bytes_wanting,
      elementStep_of_fetchRun_raise hf⟩
  | ok e u =>
    have executed := elementStep_of_fetchRun hf
    have fetched := fetchElement_ok (fetch.trans hf)
    have inRun := fetched.inRun h
    have opos : u.opos = s.opos := by rw [fetched]
    have size : u.outSize = s.outSize := by rw [fetched]
    rcases fetchRun_ok hf with ⟨hend, rfl, rfl⟩ | ⟨hmore, hnone, f, rfl, _⟩ | ⟨hmore, _, _, token⟩
    · exact .inl ⟨u, _, TokenMoved.refl u, .complete (Nat.le_antisymm h.opos_le hend),
        fun region r => (executed region r).trans (execEndRun_run rfl)⟩
    · have loaded : InRun (loadFlags f u) := ⟨inRun.running, inRun.opos_le, inRun.produced⟩
      exact .inr ⟨loadFlags f u, fetched.tokenMoved.trans rfl, loaded,
        elementsLeft_of_flags size hmore opos hnone (by simp), executed⟩
    · rcases execToken_run inRun (by omega) s.params.refLayout (token.imp And.right And.right) with
        ⟨v, ends, moved, hends, run⟩ | ⟨v, moved, inRun', grown, run⟩
      · exact .inl ⟨v, ends, fetched.tokenMoved.trans moved, hends, fun region r => (executed region r).trans (run region r)⟩
      · have size' : v.outSize = u.outSize := by rw [moved]
        exact .inr ⟨v, fetched.tokenMoved.trans moved, inRun', elementsLeft_of_opos (size'.trans size) hmore (by omega),
          fun region r => (executed region r).trans (run region r)⟩

/-! ### The whole run -/

/-- The element loop ends the run, given as many elements as are left at most. -/
theorem runElements_run {k : Nat} (hk : elementsLeft s ≤ k) : EndsRun (runElements k) s := by
  induction k generalizing s with
  | zero => exact absurd hk (Nat.not_le.mpr (elementsLeft_pos s))
  | succ k ih =>
    rcases elementStep_run h with ⟨u, ends, moved, hends, step⟩ | ⟨u, moved, inRun, fewer, step⟩
    · refine ⟨u, ends, moved, hends, fun region r => ?_⟩
      rw [runElements_of_elementStep (by simp [asCommand]) (step region r)]
      exact runElements_idle (hends.idle region) k
    · obtain ⟨v, ends, moved', hends, run⟩ := ih inRun (by omega)
      refine ⟨v, ends, moved.trans moved', hends, fun region r => ?_⟩
      rw [runElements_of_elementStep (by simp [asCommand]) (step region r)]
      exact run region r

end

/-- Run(n), from its beginning, for either command (R183). -/
theorem completeRun_beginRun (n : BitVec 24) (s : State) : EndsRun completeRun (beginRun false n s) :=
  runElements_run (beginRun_inRun false n s) (elementsLeft_le _)

/-- LZRUN in the state of 60_exceptions.md R235. -/
theorem exec_lzrun_of_ready {s : State} (hr : Ready s) (n : BitVec 24) :
    exec (.lzrun n) s = completeRun (beginRun false n s) := by
  obtain ⟨_, hs, he⟩ := hr
  exact gated_of_ready (body := fun s => completeRun (beginRun false n s)) hs he

end Sys2Proof.Machine
end

section
/-! SUPPORT. LZRUN (42_lz77.md R183, R190): it produces exactly its size, or fewer bytes and an error; with nothing to produce it
fetches nothing. -/

namespace Sys2Proof.Machine

/-- With the declared size produced the next element is END, for which nothing is fetched (R188). -/
theorem elementStep_finished {s : State} {region : Bool} (ha : s.activity = .run region) (hend : s.outSize ≤ s.opos) :
    elementStep s = .next (finishOk (runValue region s) s) := by
  have nothing : fetchElement s = .ok .endRun s := by
    rw [fetchElement, ha]
    exact if_pos hend
  rw [elementStep, nothing]
  exact execEndRun_run ha

/-- Settles O49: the run begins where it ends. -/
theorem emptyRun : Obligations.EmptyRun := by
  intro s hr
  have finished : elementStep (beginRun false 0 s) = .next (finishOk .none (beginRun false 0 s)) :=
    elementStep_finished (s := beginRun false 0 s) rfl (Nat.le_refl 0)
  have run : completeRun (beginRun false 0 s) = .next (finishOk .none (beginRun false 0 s)) :=
    (runElements_of_elementStep (by simp) finished 0).trans (runElements_idle rfl 0)
  rw [exec_lzrun_of_ready hr, run, finishOk, ← hr.1]
  rfl

/-- A command that begins a run between commands leaves all but what the run moves, ERR and the response. -/
theorem TokenMoved.lzrun_frame {s u t : State} {n : BitVec 24} (ha : s.activity = .idle)
    (moved : TokenMoved (beginRun false n s) u) (ht : t = { u with err := t.err, resp := t.resp, activity := .idle }) :
    t = { s with
      src := t.src, pos := t.pos, cache := t.cache, acc := t.acc, opos := t.opos, flags := t.flags
      fcnt := t.fcnt, len := t.len, dist := t.dist, err := t.err, outmem := t.outmem, outSize := t.outSize
      resp := t.resp } := by
  rw [ht, moved, ← ha]
  rfl

/-- Settles O50: the run ends with the declared size produced, or with an error before it; the bytes written are those below OPOS by
the invariant. -/
theorem exactSize : Obligations.ExactSize := by
  intro s n hinv hr
  have ⟨idle, _, noError⟩ := hr
  obtain ⟨u, ends, moved, hends, run⟩ := completeRun_beginRun n s
  have answer : exec (.lzrun n) s = .next (ends false) := (exec_lzrun_of_ready hr n).trans (run false s.resp)
  have inv : Inv (ends false) := execLzrun_inv hinv answer
  have size : u.outSize = n.toNat := by rw [moved]; rfl
  have err : u.err = 0 := by rw [moved]; exact noError
  cases hends with
  | complete h =>
    exact ⟨_, answer, size, inv.outRead_isSome, .inl ⟨rfl, err, h.trans size⟩, moved.lzrun_frame idle rfl⟩
  | @error k _ h =>
    exact ⟨_, answer, size, inv.outRead_isSome, .inr ⟨k, rfl, rfl, size ▸ h⟩, moved.lzrun_frame idle rfl⟩

end Sys2Proof.Machine
end

section
/-! SUPPORT. LZREG (42_lz77.md R189): it is SADDR, RHDR and LZRUN, for what each of them reads does not see that the command goes on,
nor that OUTMEM has been emptied; where it stops tells the size of OUTMEM (R190). -/

namespace Sys2Proof.Machine

open Host (Outcome)

/-- After a raise ERR holds an error. -/
theorem raiseError_err_ne_zero (k : ErrKind) (s : State) : (raiseError k s).err ≠ 0 := by
  rw [raiseError_err]
  cases k <;> decide

/-! ### Attaching -/

/-- A source is attached from what was last written to OUTMEM or from an emptied OUTMEM alike. -/
theorem attach_clearOut (v : Variant) (ptr : Word) (n : Nat) (s : State) :
    attach v ptr (clearOut n s) = (attach v ptr s).mapState (clearOut n) := by
  unfold attach
  rw [← resBind_mapState (fun _ _ => rfl), ← fill_unseen (clearOut_unseen n)]
  rfl

/-- Attaching fails where an Encrypted window overhangs EXTENT, and nowhere else (41_bytesource.md R152). -/
theorem attach_forms (v : Variant) (ptr : Word) (s : State) :
    (v = .encrypted ∧ extentOf s < ptr.toNat + 8
      ∧ attach v ptr s = .raise .truncatedSource { s with err := 0, srdy := false, variant := .encrypted })
    ∨ ((v = .plain ∨ ptr.toNat + 8 ≤ extentOf s)
      ∧ ∃ w, attach v ptr s = .ok () w ∧ w.err = 0 ∧ w.srdy = true ∧ w.variant = v) := by
  rcases attach_cases v ptr s with ⟨rfl, hx, e⟩ | ⟨rfl, hx, e⟩ | ⟨rfl, e⟩
  · exact .inl ⟨rfl, hx, e⟩
  · exact .inr ⟨.inr hx, _, e, rfl, rfl, rfl⟩
  · exact .inr ⟨.inl rfl, _, e, rfl, rfl, rfl⟩

section
variable {s u : State} {v : Variant} {ptr : Word} (hk : needsKey v s = false)
include hk

/-- LZREG from a source that it could attach. -/
theorem exec_lzreg_ok (e : attach v ptr (clearOut 0 s) = .ok () u) : exec (.lzreg v ptr) s = parseAndRun u := by
  show execLzreg v ptr s = _
  rw [execLzreg, hk, if_neg Bool.false_ne_true, e]

/-- LZREG from a source that it could not. -/
theorem exec_lzreg_raise {k : ErrKind} (e : attach v ptr (clearOut 0 s) = .raise k u) :
    exec (.lzreg v ptr) s = .next (raiseError k u) := by
  show execLzreg v ptr s = _
  rw [execLzreg, hk, if_neg Bool.false_ne_true, e]

end

theorem needsKey_of_keyed {s : State} {v : Variant} (h : v = .encrypted → s.krdy = true) : needsKey v s = false := by
  cases v with
  | plain => rfl
  | encrypted => exact needsKey_of_krdy (h rfl) _

/-! ### The header and the run -/

/-- All that a header parse changes. -/
def HeaderMoved (s t : State) : Prop :=
  t = { s with src := t.src, pos := t.pos, cache := t.cache, acc := t.acc, ctype := t.ctype, dsize := t.dsize }

theorem Moved.latched {s t : State} (h : Moved s t) (fields : BitVec 4 × BitVec 24) : HeaderMoved s (latched fields t) := by
  unfold Moved at h
  unfold HeaderMoved
  rw [h]
  rfl

theorem Moved.headerMoved {s t : State} (h : Moved s t) : HeaderMoved s t := by
  unfold Moved at h
  unfold HeaderMoved
  rw [h]

/-- The run of LZREG begins where its header leaves off; after an error there is none. -/
theorem parseAndRun_of_header {s t : State} (h : elementStep (asCommand (.header true) s.resp s) = .next t) :
    parseAndRun s = completeRun t := by
  rw [asCommand] at h
  rw [parseAndRun, h]

theorem completeRun_raiseError (k : ErrKind) (s : State) : completeRun (raiseError k s) = .next (raiseError k s) :=
  runElements_idle rfl _

/-- ParseHeader and Run, from a source just attached, against RHDR after SADDR: both raise the same error; or RHDR completes, and
Run(DSIZE) begins. An update `g` that neither sees may have come first. -/
theorem parseAndRun_cases {g : State → State} (hg : Unseen g) (hlatch : ∀ fields s, g (latched fields s) = latched fields (g s))
    {w : State} (hs : w.srdy = true) (he : w.err = 0) :
    ∃ x, HeaderMoved w x
      ∧ ((∃ k, exec .rhdr (finishOk .none w) = .next (raiseError k x) ∧ parseAndRun (g w) = .next (raiseError k (g x)))
        ∨ (x.ctype = 1 ∧ exec .rhdr (finishOk .none w) = .next (finishOk (.size x.dsize) x)
          ∧ ∃ r, parseAndRun (g w) = completeRun (asCommand (.run true) r (beginRun false x.dsize (g x))))) := by
  have rhdr : exec .rhdr (finishOk .none w) = elementStep (asCommand (.header false) (some (.ok .none)) w) :=
    exec_rhdr_of_ready (s := finishOk .none w) ⟨rfl, hs, he⟩
  have hgh := hg.comp (asCommand_unseen (.header true) (g w).resp)
  cases hb : fetchBytes (siteBytes (.header w.params.hdrLayout)) w with
  | raise k x =>
    obtain ⟨_, moved⟩ := fetchBytes_raise hb
    refine ⟨x, moved.headerMoved, .inl ⟨k, ?_, ?_⟩⟩
    · rw [rhdr, elementStep_header_raise (asCommand_unseen _ _) rfl rfl hb, raiseError_asCommand]
    · have parsed := elementStep_header_raise hgh rfl rfl hb
      exact (parseAndRun_of_header parsed).trans (completeRun_raiseError k _)
  | ok bs x =>
    obtain ⟨_, moved⟩ := fetchBytes_ok hb
    have parsed := elementStep_header_ok hgh rfl rfl hb
    refine ⟨latched (headerFields w.params.hdrLayout bs) x, moved.latched _, ?_⟩
    rw [rhdr, elementStep_header_ok (asCommand_unseen _ _) rfl rfl hb]
    by_cases htype : (headerFields w.params.hdrLayout bs).1 = 1
    · rw [latchHeader_lzreg htype] at parsed
      rw [latchHeader_rhdr htype, hlatch]
      exact .inr ⟨htype, rfl, _, parseAndRun_of_header parsed⟩
    · rw [latchHeader_raise htype] at parsed
      rw [latchHeader_raise htype, hlatch]
      exact .inl ⟨_, rfl, (parseAndRun_of_header parsed).trans (completeRun_raiseError _ _)⟩

/-! ### LZREG -/

/-- The end of a run in LZREG, by its end in LZRUN: with the size for a response, unless it raised. -/
theorem RunEnd.lzreg_eq {u : State} {ends : Bool → State} (h : RunEnd u ends) (he : u.err = 0) :
    ends true = { ends false with
      resp := if (ends false).err = 0 then some (.ok (.size u.dsize)) else (ends false).resp } := by
  cases h with
  | complete _ =>
    rw [if_pos (show (finishOk (runValue false u) u).err = 0 from he)]
    rfl
  | error _ _ => rw [if_neg (raiseError_err_ne_zero _ _)]

/-- Settles O55: at each of the three stages LZREG raises what the command raises, or goes on from the state in which the command
completes. -/
theorem regionIsThreeCommands : Obligations.RegionIsThreeCommands := by
  intro s v ptr hkey
  have hk : needsKey v s = false := needsKey_of_keyed hkey
  rw [exec_saddr (s := clearOut 0 s) hk]
  rcases attach_forms v ptr (clearOut 0 s) with ⟨_, _, e⟩ | ⟨_, w, e, noError, attached, _⟩
  · rw [e, exec_lzreg_raise hk e]
    refine ⟨fun s1 h1 _ => h1, fun s1 s2 h1 he => ?_, fun s1 s2 s3 h1 he => ?_⟩ <;> cases h1
    · exact absurd he (raiseError_err_ne_zero _ _)
    · exact absurd he (raiseError_err_ne_zero _ _)
  · rw [e, exec_lzreg_ok hk e]
    refine ⟨fun s1 h1 he => by cases h1; exact absurd noError he, ?_⟩
    obtain ⟨x, moved, ⟨k, rhdr, lzreg⟩ | ⟨_, rhdr, r, lzreg⟩⟩ :=
      parseAndRun_cases unseen_id (fun _ _ => rfl) attached noError
    · refine ⟨fun s1 s2 h1 _ h2 _ => ?_, fun s1 s2 s3 h1 _ h2 he => ?_⟩ <;> cases h1 <;> cases rhdr.symm.trans h2
      · exact lzreg
      · exact absurd he (raiseError_err_ne_zero _ _)
    · have err : x.err = 0 := by rw [moved]; exact noError
      have ready : Ready (finishOk (.size x.dsize) x) := ⟨rfl, by rw [finishOk_srdy, moved]; exact attached, err⟩
      refine ⟨fun s1 s2 h1 _ h2 he => ?_, fun s1 s2 s3 h1 _ h2 _ h3 => ?_⟩ <;> cases h1 <;> cases rhdr.symm.trans h2
      · exact absurd err he
      · obtain ⟨u, ends, moved', hends, run⟩ := completeRun_beginRun x.dsize x
        have lzrun : exec (.lzrun x.dsize) (finishOk (.size x.dsize) x) = .next (ends false) :=
          (exec_lzrun_of_ready ready _).trans (run false (some (.ok (.size x.dsize))))
        have err' : u.err = 0 := by rw [moved']; exact err
        have size : u.dsize = x.dsize := by rw [moved']; rfl
        cases lzrun.symm.trans h3
        rw [lzreg, run, hends.lzreg_eq err', size]
        rfl

/-- What LZREG leaves of the key and writes of OUTMEM, however it ends. -/
theorem exec_lzreg_keeps {s t : State} {v : Variant} {ptr : Word} (hinv : Inv s) (h : exec (.lzreg v ptr) s = .next t) :
    (∀ i, (outRead t i).isSome = true ↔ i < t.opos) ∧ t.ks = s.ks ∧ t.krdy = s.krdy := by
  obtain ⟨_, _, _, _, ks, krdy⟩ := (execLzreg_sameKey h).fields
  exact ⟨(execLzreg_inv hinv h).outRead_isSome, ks, krdy⟩

/-- Settles O54: where the source is attached, LZREG goes on as RHDR does, with OUTMEM still empty where that raises; then its run
ends with the declared size produced, or with an error before it. -/
theorem regionExactSize : Obligations.RegionExactSize := by
  intro s v ptr hinv _ hkey
  have hk : needsKey v s = false := needsKey_of_keyed hkey
  rcases attach_forms v ptr s with ⟨hv, hx, e⟩ | ⟨hform, w, e, noError, attached, variant⟩
  · have answer := exec_lzreg_raise hk (by rw [attach_clearOut, e]; rfl)
    obtain ⟨written, ks, krdy⟩ := exec_lzreg_keeps hinv answer
    have overhangs : ¬ (v = .plain ∨ ptr.toNat + 8 ≤ extentOf s) := by
      rw [hv]
      exact not_or.mpr ⟨nofun, Nat.not_le.mpr hx⟩
    exact ⟨_, answer, written, ks, krdy, hv.symm, fun _ => ⟨rfl, rfl, rfl, rfl, rfl⟩, fun h => absurd h overhangs⟩
  · have inside : ¬ (v = .encrypted ∧ extentOf s < ptr.toNat + 8) := by
      rintro ⟨rfl, hx⟩
      exact Nat.not_le.mpr hx (hform.resolve_left nofun)
    have saddr : exec (.saddr v ptr) s = .next (finishOk .none w) := by rw [exec_saddr hk, e]; rfl
    have lzreg := exec_lzreg_ok hk (by rw [attach_clearOut, e]; rfl)
    obtain ⟨x, moved, ⟨k, rhdr, parse⟩ | ⟨ctype, rhdr, r, parse⟩⟩ :=
      parseAndRun_cases (clearOut_unseen 0) (fun _ _ => rfl) attached noError
    all_goals
      have variant' : x.variant = v := by rw [moved]; exact variant
      have attached' : x.srdy = true := by rw [moved]; exact attached
      have noError' : x.err = 0 := by rw [moved]; exact noError
    · have answer := lzreg.trans parse
      obtain ⟨written, ks, krdy⟩ := exec_lzreg_keeps hinv answer
      exact ⟨_, answer, written, ks, krdy, variant', fun h => absurd h inside, fun _ => ⟨_, _, saddr, noError, rhdr, attached',
        fun _ => ⟨rfl, rfl, rfl, rfl⟩, fun h => absurd h (raiseError_err_ne_zero _ _)⟩⟩
    · obtain ⟨u, ends, moved', hends, run⟩ := completeRun_beginRun x.dsize (clearOut 0 x)
      have answer := lzreg.trans (parse.trans (run true r))
      obtain ⟨written, ks, krdy⟩ := exec_lzreg_keeps hinv answer
      obtain ⟨variant'', attached'', ctype', dsize, outSize, err⟩ :
          u.variant = v ∧ u.srdy = true ∧ u.ctype = 1 ∧ u.dsize = x.dsize ∧ u.outSize = x.dsize.toNat ∧ u.err = 0 := by
        rw [moved']
        exact ⟨variant', attached', ctype, rfl, rfl, noError'⟩
      cases hends with
      | complete h =>
        exact ⟨_, answer, written, ks, krdy, variant'', fun h => absurd h inside, fun _ => ⟨_, _, saddr, noError, rhdr,
          attached'', fun h => absurd noError' h, fun _ => ⟨ctype', dsize, outSize, .inl ⟨rfl, err, h⟩⟩⟩⟩
      | @error k hk h =>
        exact ⟨_, answer, written, ks, krdy, variant'', fun h => absurd h inside, fun _ => ⟨_, _, saddr, noError, rhdr,
          attached'', fun h => absurd noError' h, fun _ => ⟨ctype', dsize, outSize, .inr ⟨k, hk, rfl, rfl, h⟩⟩⟩⟩

end Sys2Proof.Machine
end

section
/-! SUPPORT. Literal-only streams (42_lz77.md R185, R188, 95_test_vectors.md S3): of every nine bytes the first is a flag byte 0 and the
other eight are output, to the declared size; as a run, and as a Plain region from its header on. -/

namespace Sys2Proof.Machine

open Host (Outcome)

/-! ### What the run reads and where it stands -/

/-- A Plain source at which a literal-only stream of `n` literals begins, all of it below EXTENT. -/
structure LiteralSource (s : State) (n : Nat) : Prop where
  source : PlainSource s
  below : spos s + n + (n + 7) / 8 ≤ extentOf s
  flags : ∀ g, 8 * g < n → srcByte s (spos s + 9 * g) = 0

/-- A run over such a stream, from its beginning `b`: a multiple of eight flags has been read, those left are 0, and so many
literals as bytes have been produced. A flag byte is read for a literal that is wanted, never ahead of need. -/
structure LiteralsAt (b u : State) : Prop where
  moved : TokenMoved b u
  source : PlainSource u
  flags : u.flags = 0
  fcnt_le : u.fcnt ≤ 8
  wanted : u.fcnt = 8 → u.opos < b.outSize
  opos_le : u.opos ≤ b.outSize
  groups : ∃ g, u.opos + u.fcnt = 8 * g ∧ spos u = spos b + u.opos + g
  literals : ∀ k, k < u.opos → outRead u k = some (srcByte b (spos b + k + k / 8 + 1))

/-- A Plain source in the run reads the SRCMEM with which the run began. -/
theorem PlainSource.read_of_moved {b x : State} {a : Nat} (hx : PlainSource x) (m : TokenMoved b x) (ha : spos x = a)
    (hlt : a < extentOf b) :
    ∃ v, nextByte x = .ok (srcByte b a) v ∧ PlainSource v ∧ spos v = a + 1
      ∧ v = { x with src := v.src, pos := v.pos, cache := v.cache } := by
  have extent : extentOf x = extentOf b := by rw [m]; rfl
  have byte : srcByte x (spos x) = srcByte b a := by rw [ha, m]; rfl
  obtain ⟨v, read, source, at_next, frame, _, _⟩ := hx.next (by omega)
  exact ⟨v, byte ▸ read, source, by omega, frame⟩

section
variable {b u : State} {region : Bool} (h : LiteralsAt b u) (ha : b.activity = .run region)
  (hb : LiteralSource b b.outSize)
include h

theorem LiteralsAt.outSize : u.outSize = b.outSize := by rw [h.moved]

include ha

theorem LiteralsAt.activity : u.activity = .run region := by rw [h.moved]; exact ha

include hb

/-- A flag byte, where a literal is wanted and no flag is left (R184). -/
theorem LiteralsAt.flagByte (hmore : u.opos < b.outSize) (hnone : u.fcnt = 0) :
    ∃ t, elementStep u = .next t ∧ LiteralsAt b t := by
  obtain ⟨g, count, at_g⟩ := h.groups
  have below := hb.below
  obtain ⟨v, read, source, at_next, frame⟩ :=
    h.source.read_of_moved h.moved (show spos u = spos b + 9 * g by omega) (by omega)
  rw [hb.flags g (by omega)] at read
  have fetch : fetchElement u = .ok (.flg 0) v := by
    rw [fetchElement, h.activity ha]
    show fetchRun u = _
    rw [fetchRun, if_neg (by rw [h.outSize]; omega), if_pos hnone, read, resBind_ok]
  have opos : v.opos = u.opos := by rw [frame]
  have outmem : v.outmem = u.outmem := by rw [frame]
  refine ⟨loadFlags 0 v, by rw [elementStep, fetch]; rfl, ?_⟩
  exact {
    moved := h.moved.trans (by rw [frame]; rfl)
    source := ⟨source.plain, source.pos_le, source.image, source.delivered⟩
    flags := rfl
    fcnt_le := Nat.le_refl 8
    wanted := fun _ => opos ▸ hmore
    opos_le := opos ▸ h.opos_le
    groups := ⟨g + 1, by show v.opos + 8 = _; omega, by show spos v = spos b + v.opos + (g + 1); omega⟩
    literals := fun k hk => (congrArg (memRead outDefault · k) outmem).trans (h.literals k (opos ▸ hk)) }

/-- A literal, where a flag is left: it is 0 (R184, R185). -/
theorem LiteralsAt.literal (hmore : u.opos < b.outSize) (hsome : u.fcnt ≠ 0) :
    ∃ t, elementStep u = .next t ∧ LiteralsAt b t := by
  obtain ⟨g, count, at_g⟩ := h.groups
  have below := hb.below
  have fcnt_le := h.fcnt_le
  have used : PlainSource (useFlag u) := ⟨h.source.plain, h.source.pos_le, h.source.image, h.source.delivered⟩
  have usedMoved : TokenMoved b (useFlag u) := h.moved.trans rfl
  obtain ⟨v, read, source, at_next, frame⟩ :=
    used.read_of_moved usedMoved (show spos (useFlag u) = spos b + u.opos + u.opos / 8 + 1 by
      show spos u = _
      omega) (by omega)
  have fetch : fetchElement u = .ok (.lit (srcByte b (spos b + u.opos + u.opos / 8 + 1))) v := by
    rw [fetchElement, h.activity ha]
    show fetchRun u = _
    rw [fetchRun, if_neg (by rw [h.outSize]; omega), if_neg hsome, nextFlag, h.flags]
    show fetchToken false (useFlag u) = _
    rw [fetchToken, read, resBind_ok]
  obtain ⟨opos, outSize, outmem, fcnt, flags⟩ :
      v.opos = u.opos ∧ v.outSize = u.outSize ∧ v.outmem = u.outmem ∧ v.fcnt = u.fcnt - 1 ∧ v.flags = u.flags <<< 1 := by
    rw [frame]
    exact ⟨rfl, rfl, rfl, rfl, rfl⟩
  refine ⟨outPush (srcByte b (spos b + u.opos + u.opos / 8 + 1)) v, ?_, ?_⟩
  · rw [elementStep, fetch]
    exact if_pos (by rw [opos, outSize, h.outSize]; exact hmore)
  · exact {
      moved := usedMoved.trans (by rw [frame]; rfl)
      source := ⟨source.plain, source.pos_le, source.image, source.delivered⟩
      flags := by rw [outPush_flags, flags, h.flags]; rfl
      fcnt_le := by rw [outPush_fcnt]; omega
      wanted := fun hf => by rw [outPush_fcnt] at hf; omega
      opos_le := by rw [outPush_opos]; omega
      groups := ⟨g, by rw [outPush_opos, outPush_fcnt]; omega, by show spos v = spos b + (v.opos + 1) + g; omega⟩
      literals := fun k hk => by
        rw [outPush_opos] at hk
        rw [outRead_outPush]
        by_cases hlast : v.opos = k
        · rw [if_pos hlast, ← hlast, opos]
        · rw [if_neg hlast, outRead, outmem]
          exact h.literals k (by omega) }

end

/-- Where the elements of the run lead: to another point of it, or to its end with all literals produced. -/
def LiteralsRun (b : State) (region : Bool) (u : State) : Prop :=
  LiteralsAt b u ∨ ∃ v, LiteralsAt b v ∧ v.opos = b.outSize ∧ u = finishOk (runValue region b) v

theorem elementStep_literalsRun {b u t : State} {region : Bool} (ha : b.activity = .run region)
    (hb : LiteralSource b b.outSize) (busy : u.activity ≠ .idle) (h : LiteralsRun b region u) (step : elementStep u = .next t) :
    LiteralsRun b region t := by
  rcases h with h | ⟨v, _, _, rfl⟩
  · by_cases hmore : u.opos < b.outSize
    · obtain ⟨t', step', h'⟩ : ∃ t, elementStep u = .next t ∧ LiteralsAt b t := by
        by_cases hnone : u.fcnt = 0
        · exact h.flagByte ha hb hmore hnone
        · exact h.literal ha hb hmore hnone
      cases step'.symm.trans step
      exact .inl h'
    · have opos_le := h.opos_le
      have value : runValue region u = runValue region b := by rw [h.moved]; rfl
      cases (elementStep_finished (h.activity ha) (by rw [h.outSize]; omega)).symm.trans step
      exact .inr ⟨u, h, by omega, by rw [value]⟩
  · exact absurd rfl busy

/-- The run of a literal-only stream, to its end (R188). -/
theorem completeRun_literals {b : State} {region : Bool} {n : BitVec 24} (s : State) (hb : b = beginRun region n s)
    (source : LiteralSource b n.toNat) :
    ∃ t, completeRun b = .next t ∧ t.resp = some (.ok (runValue region b)) ∧ t.err = b.err ∧ t.outSize = n.toNat
      ∧ t.opos = n.toNat ∧ (∀ k, k < n.toNat → outRead t k = some (srcByte b (spos b + k + k / 8 + 1)))
      ∧ spos t = spos b + n.toNat + (n.toNat + 7) / 8 := by
  have activity : b.activity = .run region := by rw [hb]; rfl
  have size : b.outSize = n.toNat := by rw [hb]; rfl
  rw [← size] at source ⊢
  have begun : LiteralsAt b b := by
    obtain ⟨flags, fcnt, opos⟩ : b.flags = 0 ∧ b.fcnt = 0 ∧ b.opos = 0 := by rw [hb]; exact ⟨rfl, rfl, rfl⟩
    exact {
      moved := TokenMoved.refl b
      source := source.source
      flags := flags
      fcnt_le := by omega
      wanted := fun h => by omega
      opos_le := by omega
      groups := ⟨0, by omega, by omega⟩
      literals := fun k hk => by omega }
  obtain ⟨t, ran, idle⟩ := completeRun_inRun (hb ▸ beginRun_inRun region n s)
  rcases runElements_induction _ (fun _ _ => elementStep_literalsRun activity source) _ b t (.inl begun) ran with h | ⟨v, h, opos, rfl⟩
  · rw [h.activity activity] at idle
    cases idle
  · obtain ⟨g, count, at_g⟩ := h.groups
    have fcnt_le := h.fcnt_le
    have few : v.fcnt ≠ 8 := fun hf => by have := h.wanted hf; omega
    refine ⟨_, ran, rfl, by rw [finishOk_err, h.moved], h.outSize, opos, fun k hk => h.literals k (by omega), ?_⟩
    show spos v = _
    omega

/-- Settles O51: the run begins where the source stands. -/
theorem literalStream : Obligations.LiteralStream := by
  intro s n hinv hr hv hx hflags
  have ⟨_, attached, _⟩ := hr
  have source := hinv.plainSource attached hv
  obtain ⟨t, ran, resp, _, _, opos, literals, at_end⟩ :=
    completeRun_literals (b := beginRun false n s) s rfl
      ⟨⟨source.plain, source.pos_le, source.image, source.delivered⟩, hx, hflags⟩
  exact ⟨t, (exec_lzrun_of_ready hr n).trans ran, resp, opos, literals, at_end⟩

/-- LZREG on a Plain region under TABLE6 of type 1: after the three bytes of the header the run begins, with the size that they
declare (R181, R189). -/
theorem exec_lzreg_plain_table6 {s : State} {ptr : Word} {n : BitVec 24} (hl : s.params.hdrLayout = .table6)
    (htype : hdrType (srcByte s ptr.toNat) = 1)
    (hsize : hdrSize6 (srcByte s ptr.toNat) (srcByte s (ptr.toNat + 1)) (srcByte s (ptr.toNat + 2)) = n)
    (hx : ptr.toNat + 3 ≤ extentOf s) :
    ∃ y, exec (.lzreg .plain ptr) s = completeRun (beginRun true n y) ∧ PlainSource y ∧ spos y = ptr.toNat + 3
      ∧ y.params = s.params ∧ y.srcmem = s.srcmem ∧ y.err = 0 ∧ y.dsize = n := by
  obtain ⟨w, e, source, at_ptr, params, srcmem⟩ := attach_plain ptr (clearOut 0 s)
  have noError : w.err = 0 := by
    rcases attach_forms .plain ptr (clearOut 0 s) with ⟨hv, _⟩ | ⟨_, w', e', noError, _⟩
    · cases hv
    · cases e.symm.trans e'
      exact noError
  have extent : extentOf w = extentOf s := by rw [extentOf, params]; rfl
  have bytes : ∀ a, srcByte w a = srcByte s a := fun a => by rw [srcByte, srcmem]; rfl
  obtain ⟨x, fetched, source', at_tokens, frame⟩ := (PlainAfter.zero source).fetchBytes (n := 3) (by omega)
  have fields : headerFields .table6 (bytesFrom w 0 3) = (1, n) := by
    show (hdrType (srcByte w (spos w)), hdrSize6 (srcByte w (spos w)) (srcByte w (spos w + 1)) (srcByte w (spos w + 2))) = _
    rw [bytes, bytes, bytes, at_ptr, htype, hsize]
  have parsed := elementStep_header_ok (l := .table6) (asCommand_unseen (.header true) w.resp) rfl (params ▸ hl) fetched
  rw [fields, latchHeader_lzreg (fields := (1, n)) rfl] at parsed
  refine ⟨asCommand .idle w.resp (latched (1, n) x), (exec_lzreg_ok (needsKey_plain s) e).trans (parseAndRun_of_header parsed),
    ⟨source'.plain, source'.pos_le, source'.image, source'.delivered⟩, by rw [← at_ptr]; exact at_tokens, ?_, ?_, ?_, rfl⟩
  · show x.params = _
    rw [frame]
    exact params
  · show x.srcmem = _
    rw [frame]
    exact srcmem
  · show x.err = _
    rw [frame]
    exact noError

/-- Settles O52: the literals are those of the stream after the header. -/
theorem literalRegion : Obligations.LiteralRegion := by
  intro s ptr n hl htype hsize hx hflags
  have typ : hdrType (srcByte s ptr.toNat) = 1 := BitVec.eq_of_toNat_eq ((hdrType_toNat _).trans htype)
  have size : hdrSize6 (srcByte s ptr.toNat) (srcByte s (ptr.toNat + 1)) (srcByte s (ptr.toNat + 2)) = n :=
    BitVec.eq_of_toNat_eq ((hdrSize6_toNat _ _ _).trans hsize.symm)
  obtain ⟨y, lzreg, source, at_tokens, params, srcmem, noError, dsize⟩ := exec_lzreg_plain_table6 hl typ size (by omega)
  have begins : spos (beginRun true n y) = ptr.toNat + 3 := at_tokens
  have extent : extentOf (beginRun true n y) = extentOf s := by rw [extentOf, beginRun_params, params, extentOf]
  have bytes : ∀ a, srcByte (beginRun true n y) a = srcByte s a := fun a => by
    rw [srcByte, beginRun_srcmem, srcmem, srcByte]
  obtain ⟨t, ran, resp, err, outSize, opos, literals, at_end⟩ := completeRun_literals y (b := beginRun true n y) rfl
    { source := ⟨source.plain, source.pos_le, source.image, source.delivered⟩
      below := by rw [begins, extent]; exact hx
      flags := by rw [begins]; exact fun g hg => (bytes _).trans (hflags g hg) }
  rw [begins] at literals at_end
  have value : runValue true (beginRun true n y) = .size n := congrArg Value.size dsize
  exact ⟨t, lzreg.trans ran, value ▸ resp, err.trans noError, opos, outSize,
    fun k hk => (literals k hk).trans (congrArg some (bytes _)), at_end⟩

end Sys2Proof.Machine
end

section
/-! SUPPORT. Reserved codes, RESET and what clears ERR (43_control.md R220 to R222): the refusals of a command that the hardware
does not have, the state after RESET, and the commands that go on from an error. -/

namespace Sys2Proof.Machine

open Host (Outcome)

/-! ### Reserved codes -/

/-- A whole frame is decoded by its bytes (log 1). -/
theorem decode_frame {bs : List Byte} (hlen : bs.length = frameBytes) :
    decode .command bs = decodeFrame fun i => bs.getD i 0 := by
  rw [decode, if_pos rfl, decodeCommand, if_pos hlen]

/-- A code that 30_encoding.md R92 does not list is reserved. -/
theorem decodeFrame_reserved {o : Nat → Byte} (h : (o 0).toNat ∉ commandCodes) :
    decodeFrame o = .error (.reservedCode (o 0)) := by
  have unlisted : ∀ code : Byte, code.toNat ∈ commandCodes → o 0 ≠ code := fun code listed e => h (e ▸ listed)
  simp (disch := decide) only [decodeFrame, unlisted, if_false]

theorem decodeFrame_benc {o : Nat → Byte} (h : o 0 = 0x03) : decodeFrame o = .ok (.benc (blkOfFn fun i => o (i + 1))) := by
  rw [decodeFrame, h]
  rfl

/-- A frame taken off that holds no command is refused (R221). -/
theorem stepCommand_of_decode_error {s u : State} {bs : List Byte} {e : DecodeError} (hf : fetchCommand s = some (bs, u))
    (hd : decode .command bs = .error e) : stepCommand s = .next (refuse u) := by
  simp only [stepCommand, hf, hd]

/-- Hardware without BENC refuses it, with a key or without (40_cipher.md R128). -/
theorem exec_benc_of_not_hasBenc {s : State} (hb : s.params.hasBenc = false) (b : Blk) :
    exec (.benc b) s = .next (refuse s) := if_neg (by rw [hb]; exact Bool.false_ne_true)

/-- Settles O7: a reserved code does not decode; 0x03 decodes to BENC, which hardware without it refuses. -/
theorem reservedCodesRefused : Obligations.ReservedCodesRefused := by
  intro s c ops rest hidle hops hq reserved
  have frame_length : (c :: ops).length = frameBytes := congrArg Nat.succ hops
  have fetched := fetchCommand_append frame_length hq
  rw [step_eq_stepCommand hidle]
  rcases reserved with unlisted | ⟨rfl, noBenc⟩
  · exact stepCommand_of_decode_error fetched ((decode_frame frame_length).trans (decodeFrame_reserved unlisted))
  · rw [stepCommand_of_decode fetched ((decode_frame frame_length).trans (decodeFrame_benc rfl))]
    exact exec_benc_of_not_hasBenc (s := { s with cmdq := rest }) noBenc _

/-! ### The gate -/

/-- The commands of 60_exceptions.md R235: they need an attached source, and no error held. -/
def BehindGate (i : Instr) : Prop := i = .gu8 ∨ i = .gu16 ∨ i = .gu32 ∨ i = .rhdr ∨ ∃ n, i = .lzrun n

theorem exec_eq_gated {i : Instr} (hi : BehindGate i) : ∃ body, exec i = gated body := by
  rcases hi with rfl | rfl | rfl | rfl | ⟨n, rfl⟩
  · exact ⟨_, exec_gu8⟩
  · exact ⟨_, exec_gu16⟩
  · exact ⟨_, exec_gu32⟩
  · exact ⟨fun s => elementStep { s with activity := .header false }, rfl⟩
  · exact ⟨fun s => completeRun (beginRun false n s), rfl⟩

/-- With no source attached they are refused, whatever ERR holds (R240). -/
theorem exec_of_detached {i : Instr} (hi : BehindGate i) {s : State} (hs : s.srdy = false) :
    exec i s = .next (refuse s) := by
  obtain ⟨body, gate⟩ := exec_eq_gated hi
  rw [gate]
  rcases gated_cases body s with ⟨_, e⟩ | ⟨attached, _⟩ | ⟨attached, _⟩
  · exact e
  · cases hs.symm.trans attached
  · cases hs.symm.trans attached

/-- An error held stays held: they respond with it, or are refused, and their bodies do not run (R235, R240). -/
theorem exec_err_of_held {i : Instr} (hi : BehindGate i) {s t : State} (held : s.err ≠ 0) (h : exec i s = .next t) :
    t.err = s.err := by
  obtain ⟨body, gate⟩ := exec_eq_gated hi
  rw [gate] at h
  rcases gated_cases body s with ⟨_, e⟩ | ⟨_, k, _, e⟩ | ⟨_, none_held, _⟩
  · cases e.symm.trans h; rfl
  · cases e.symm.trans h; rfl
  · exact absurd none_held held

/-! ### RESET -/

/-- RESET is never refused, and takes the launch, SRCMEM, KEYROM and the pending commands over (R220; log 2). -/
theorem exec_reset (s : State) :
    exec .reset s = .next (finishOk .none (resetWith s.params s.srcmem s.keyrom s.cmdq)) := rfl

/-- Settles O15: each value is that of `resetWith`; it detaches the source, so GU8 is refused. -/
theorem resetCommand : Obligations.ResetCommand := fun s =>
  ⟨_, exec_reset s, rfl, rfl, rfl, rfl, rfl, rfl, rfl, rfl, rfl, rfl, rfl, rfl, rfl, rfl, rfl, rfl, rfl, rfl,
    exec_of_detached (.inl rfl) rfl⟩

/-! ### What clears ERR -/

section
variable {s t : State}

/-- The block transforms do not write ERR (40_cipher.md R127). -/
theorem execBdec_err {b : Blk} (h : execBdec b s = .next t) : t.err = s.err := by
  unfold execBdec at h
  split at h <;> cases h <;> rfl

theorem execBenc_err {b : Blk} (h : execBenc b s = .next t) : t.err = s.err := by
  unfold execBenc at h
  split at h
  · split at h <;> cases h <;> rfl
  · cases h; rfl

end

/-- Settles O39: the cipher commands do not write ERR, and of the others all but RESET, SADDR and LZREG stand behind the gate. -/
theorem onlyRestartClearsErr : Obligations.OnlyRestartClearsErr := by
  intro i s t hi h held changed
  have not_gated : ¬ BehindGate i := fun behind => changed (exec_err_of_held behind held h)
  cases i with
  | reset => exact .inl rfl
  | saddr v ptr => exact .inr (.inl ⟨v, ptr, rfl⟩)
  | lzreg v ptr => exact .inr (.inr ⟨v, ptr, rfl⟩)
  | kinit seed level => cases h; exact absurd rfl changed
  | bdec b => exact absurd (execBdec_err h) changed
  | benc b => exact absurd (execBenc_err h) changed
  | gu8 => exact absurd (.inl rfl) not_gated
  | gu16 => exact absurd (.inr (.inl rfl)) not_gated
  | gu32 => exact absurd (.inr (.inr (.inl rfl))) not_gated
  | rhdr => exact absurd (.inr (.inr (.inr (.inl rfl)))) not_gated
  | lzrun n => exact absurd (.inr (.inr (.inr (.inr ⟨n, rfl⟩)))) not_gated
  | hdr typ size => cases hi
  | hdrW32 typ ign size => cases hi
  | flg f => cases hi
  | lit d => cases hi
  | ref len dist => cases hi
  | endRun => cases hi

end Sys2Proof.Machine
end

section
/-! SUPPORT. The refusal table (60_exceptions.md R240), row by row: each refusal stands before any look at ERR (R238(a)). -/

namespace Sys2Proof.Machine

open Host (Outcome)

section
variable {s : State} (hk : s.krdy = false)
include hk

/-- BDEC needs the key (40_cipher.md R124). -/
theorem exec_bdec_of_keyless (b : Blk) : exec (.bdec b) s = .next (refuse s) :=
  if_neg (by rw [hk]; exact Bool.false_ne_true)

/-- So does LZREG from an Encrypted source, and OUTMEM is not emptied then (42_lz77.md R189). -/
theorem exec_lzreg_encrypted_refused (ptr : Word) : exec (.lzreg .encrypted ptr) s = .next (refuse s) :=
  if_pos (by simp [needsKey, hk])

end

/-- BENC needs the key, and hardware that has it (R128). -/
theorem exec_benc_refused {s : State} (h : s.krdy = false ∨ s.params.hasBenc = false) (b : Blk) :
    exec (.benc b) s = .next (refuse s) := by
  cases hb : s.params.hasBenc with
  | false => exact exec_benc_of_not_hasBenc hb b
  | true =>
    have keyless : ¬ s.krdy = true := by simpa [hb] using h
    exact (if_pos hb).trans (if_neg keyless)

/-- BENC is refused, or it has all that it needs. -/
theorem benc_refused_or_ready (s : State) :
    (s.krdy = false ∨ s.params.hasBenc = false) ∨ s.params.hasBenc = true ∧ s.krdy = true := by
  cases s.krdy with
  | false => exact .inl (.inl rfl)
  | true =>
    cases s.params.hasBenc with
    | false => exact .inl (.inr rfl)
    | true => exact .inr ⟨rfl, rfl⟩

/-- Settles O8: no key, no BENC, no source, no such code. -/
theorem refusalTable : Obligations.RefusalTable :=
  ⟨fun _ b hk => exec_bdec_of_keyless hk b,
    fun _ b h => exec_benc_refused h b,
    fun _ p hk => ⟨exec_saddr_encrypted_refused hk, exec_lzreg_encrypted_refused hk p⟩,
    fun _ _ hs behind => exec_of_detached behind hs,
    fun s c ops rest hidle hops hq unlisted => reservedCodesRefused s c ops rest hidle hops hq (.inl unlisted)⟩

end Sys2Proof.Machine
end

section
/-! SUPPORT. The ERR register (60_exceptions.md R235): the commands behind the gate respond with the error held, the cipher
commands and RESET do not look at it, SADDR and LZREG clear it before anything could. -/

namespace Sys2Proof.Machine

open Host (Outcome)

/-- Behind the gate an error held is the response, and nothing else changes. -/
theorem exec_of_held {i : Instr} (hi : BehindGate i) {s : State} {k : ErrKind} (hs : s.srdy = true)
    (held : s.err = errCode k) : exec i s = .next (respond (.err k) s) := by
  obtain ⟨body, gate⟩ := exec_eq_gated hi
  rw [gate]
  rcases gated_cases body s with ⟨detached, _⟩ | ⟨_, k', held', e⟩ | ⟨_, none_held, _⟩
  · cases hs.symm.trans detached
  · rw [held, errOf_errCode] at held'
    cases held'
    exact e
  · exact absurd (held.symm.trans none_held) (raiseError_err_ne_zero k s)

/-! ### Commands that ignore ERR -/

/-- A command neither writes ERR nor depends on it: whatever ERR holds, it still holds, and all else is the same. -/
def IgnoresErr (run : State → Outcome State Fault Refusal) : Prop :=
  ∀ (s t : State) (e : BitVec 2), run s = .next t → t.err = s.err ∧ run { s with err := e } = .next { t with err := e }

theorem exec_kinit_ignoresErr (seed : Word) (level : Byte) : IgnoresErr (exec (.kinit seed level)) := by
  intro s t e h
  cases (exec_kinit seed level s).symm.trans h
  exact ⟨rfl, exec_kinit seed level _⟩

theorem exec_bdec_ignoresErr (b : Blk) : IgnoresErr (exec (.bdec b)) := by
  intro s t e h
  rcases Bool.eq_false_or_eq_true s.krdy with hk | hk
  · cases (exec_bdec hk b).symm.trans h
    exact ⟨rfl, exec_bdec (s := { s with err := e }) hk b⟩
  · cases (exec_bdec_of_keyless hk b).symm.trans h
    exact ⟨rfl, exec_bdec_of_keyless (s := { s with err := e }) hk b⟩

theorem exec_benc_ignoresErr (b : Blk) : IgnoresErr (exec (.benc b)) := by
  intro s t e h
  rcases benc_refused_or_ready s with refused | ⟨hb, hk⟩
  · cases (exec_benc_refused refused b).symm.trans h
    exact ⟨rfl, exec_benc_refused (s := { s with err := e }) refused b⟩
  · cases (exec_benc hb hk b).symm.trans h
    exact ⟨rfl, exec_benc (s := { s with err := e }) hb hk b⟩

/-! ### Commands that clear ERR -/

/-- Attaching a source clears ERR first (R239), so it does not see what ERR held. -/
theorem attach_of_err (v : Variant) (ptr : Word) (s : State) (e : BitVec 2) :
    attach v ptr { s with err := e } = attach v ptr s := rfl

section
variable {s : State} {v : Variant} (hk : needsKey v s = false)
include hk

theorem exec_saddr_of_err (e : BitVec 2) (ptr : Word) : exec (.saddr v ptr) { s with err := e } = exec (.saddr v ptr) s := by
  rw [exec_saddr (s := { s with err := e }) hk, exec_saddr hk, attach_of_err]

theorem exec_lzreg_of_err (e : BitVec 2) (ptr : Word) : exec (.lzreg v ptr) { s with err := e } = exec (.lzreg v ptr) s := by
  have same : attach v ptr (clearOut 0 { s with err := e }) = attach v ptr (clearOut 0 s) :=
    attach_of_err v ptr (clearOut 0 s) e
  cases ha : attach v ptr (clearOut 0 s) with
  | ok _ u => rw [exec_lzreg_ok (s := { s with err := e }) hk (same.trans ha), exec_lzreg_ok hk ha]
  | raise k u => rw [exec_lzreg_raise (s := { s with err := e }) hk (same.trans ha), exec_lzreg_raise hk ha]

end

/-- Settles O38: RESET builds a state of its own, of which ERR is no part; the other clauses are those of each group of commands. -/
theorem errorGating : Obligations.ErrorGating := by
  refine ⟨fun k s => ⟨rfl, raiseError_err_ne_zero k s⟩, fun _ _ _ hs held behind => exec_of_held behind hs held, ?ignore,
    fun s e => exec_reset { s with err := e }, ?clear⟩
  case ignore =>
    rintro s t e i (⟨seed, level, rfl⟩ | ⟨b, rfl⟩ | ⟨b, rfl⟩)
    · exact exec_kinit_ignoresErr seed level s t e
    · exact exec_bdec_ignoresErr b s t e
    · exact exec_benc_ignoresErr b s t e
  case clear =>
    intro s e v ptr hkey
    have hk := needsKey_of_keyed hkey
    exact ⟨exec_saddr_of_err hk e ptr, exec_lzreg_of_err hk e ptr⟩

end Sys2Proof.Machine
end

section
/-! SUPPORT. No step stops (60_exceptions.md R242, 20_memory.md R70): a host command answers from every state, for a run begins
afresh in it; inside a command so does a header, and an element of a run wherever the bytes below OPOS hold a value. -/

namespace Sys2Proof.Machine

open Host (Outcome)

/-! ### Inside a command -/

/-- A header is latched, or its fetch raises. -/
theorem elementStep_header_answers {s : State} {region : Bool} (ha : s.activity = .header region) :
    ∃ t, elementStep s = .next t := by
  have busy : s.activity ≠ .idle := by simp [ha]
  cases hb : fetchBytes (siteBytes (nextSite s)) (beforeFetch s) with
  | raise k u => exact ⟨_, elementStep_of_fetchBytes_raise busy hb⟩
  | ok bs u =>
    obtain ⟨typ, size, latch⟩ := execElement_header s.params.hdrLayout (fun i => bs.getD i 0) u
    rw [elementStep_of_fetchBytes busy hb, nextSite_header ha, latch]
    rcases latchHeader_cases typ size u with ⟨_, e⟩ | ⟨_, e⟩
    · exact ⟨_, e⟩
    · exact ⟨_, e⟩

/-- By the invariant a state that stands in a run has produced every byte below OPOS (10_state.md R41(c)). -/
theorem Inv.inRun {s : State} (h : Inv s) {region : Bool} (ha : s.activity = .run region) : InRun s :=
  ⟨⟨region, ha⟩, h.opos_le, h.produced⟩

/-! ### Commands -/

theorem finish_answers {α : Type} (val : α → Value) (r : Res α) : ∃ t, finish val r = .next t := by
  cases r with
  | ok a s => exact ⟨_, rfl⟩
  | raise k s => exact ⟨_, rfl⟩

/-- The gate answers where its body does. -/
theorem gated_answers {body : State → Outcome State Fault Refusal} {s : State} (hbody : ∃ t, body s = .next t) :
    ∃ t, gated body s = .next t := by
  rcases gated_cases body s with ⟨_, e⟩ | ⟨_, k, _, e⟩ | ⟨_, _, e⟩
  · exact ⟨_, e⟩
  · exact ⟨_, e⟩
  · exact e ▸ hbody

theorem readCommand_answers {α : Type} (val : α → Value) (read : State → Res α) (s : State) :
    ∃ t, readCommand val read s = .next t :=
  gated_answers (finish_answers val (read s))

/-- The element loop answers inside a run, and after a command that an error has ended. -/
theorem completeRun_answers {s : State} (hs : s.activity = .idle ∨ InRun s) : ∃ t, completeRun s = .next t := by
  rcases hs with idle | inRun
  · exact ⟨s, runElements_idle idle _⟩
  · obtain ⟨t, ran, _⟩ := completeRun_inRun inRun
    exact ⟨t, ran⟩

/-- After the header of LZREG the command has ended, or its run begins. -/
theorem parseAndRun_answers (s : State) : ∃ t, parseAndRun s = .next t := by
  obtain ⟨u, parsed⟩ := elementStep_header_answers (s := { s with activity := .header true }) rfl
  rw [parseAndRun, parsed]
  exact completeRun_answers ((elementStep_header rfl parsed).imp id And.right)

theorem execBdec_answers (b : Blk) (s : State) : ∃ t, execBdec b s = .next t := by
  cases hk : s.krdy with
  | false => exact ⟨_, exec_bdec_of_keyless hk b⟩
  | true => exact ⟨_, exec_bdec hk b⟩

theorem execBenc_answers (b : Blk) (s : State) : ∃ t, execBenc b s = .next t := by
  rcases benc_refused_or_ready s with refused | ⟨hb, hk⟩
  · exact ⟨_, exec_benc_refused refused b⟩
  · exact ⟨_, exec_benc hb hk b⟩

theorem execSaddr_answers (v : Variant) (ptr : Word) (s : State) : ∃ t, execSaddr v ptr s = .next t := by
  unfold execSaddr
  split
  · exact ⟨_, rfl⟩
  · exact finish_answers _ _

theorem execLzreg_answers (v : Variant) (ptr : Word) (s : State) : ∃ t, execLzreg v ptr s = .next t := by
  unfold execLzreg
  split
  · exact ⟨_, rfl⟩
  · split
    · exact ⟨_, rfl⟩
    · exact parseAndRun_answers _

/-- Every host command answers, from every state. -/
theorem exec_command_answers {i : Instr} (hi : i.site = .command) (s : State) : ∃ t, exec i s = .next t := by
  cases i with
  | reset => exact ⟨_, exec_reset s⟩
  | kinit seed level => exact ⟨_, exec_kinit seed level s⟩
  | bdec b => exact execBdec_answers b s
  | benc b => exact execBenc_answers b s
  | saddr v ptr => exact execSaddr_answers v ptr s
  | gu8 => exact readCommand_answers .u8 nextByte s
  | gu16 => exact readCommand_answers .u16 nextU16 s
  | gu32 => exact readCommand_answers .u32 nextU32 s
  | rhdr =>
    exact gated_answers (body := fun s => elementStep { s with activity := .header false })
      (elementStep_header_answers rfl)
  | lzrun n =>
    exact gated_answers (body := fun s => completeRun (beginRun false n s))
      (completeRun_answers (.inr (beginRun_inRun false n s)))
  | lzreg v ptr => exact execLzreg_answers v ptr s
  | hdr typ size => cases hi
  | hdrW32 typ ign size => cases hi
  | flg f => cases hi
  | lit d => cases hi
  | ref len dist => cases hi
  | endRun => cases hi

/-! ### Steps -/

/-- No frame is taken off a queue that holds no whole one (log 15). -/
theorem fetchCommand_of_lt {s : State} (hlen : s.cmdq.length < frameBytes) : fetchCommand s = none :=
  if_neg (Nat.not_le.mpr hlen)

/-- Settles O11: between commands a step takes the next frame, and there is none. -/
theorem stepIdlesWithoutCommand : Obligations.StepIdlesWithoutCommand := by
  intro s hidle hlen
  rw [step_eq_stepCommand hidle, stepCommand, fetchCommand_of_lt hlen]

/-- Between commands a step idles, refuses, or runs a host command. -/
theorem stepCommand_answers (s : State) : ∃ t, stepCommand s = .next t := by
  rcases stepCommand_cases s with e | ⟨q, e | ⟨i, hi, e⟩⟩
  · exact ⟨_, e⟩
  · exact ⟨_, e⟩
  · exact e ▸ exec_command_answers hi _

/-- Settles O60: only the elements of a run can fault, and the invariant gives what they need. -/
theorem invNeverStops : Obligations.InvNeverStops := by
  intro s h
  cases ha : s.activity with
  | idle =>
    rw [step_eq_stepCommand ha]
    exact stepCommand_answers s
  | header region =>
    rw [step_eq_elementStep (by simp [ha])]
    exact elementStep_header_answers ha
  | run region =>
    rw [step_eq_elementStep (by simp [ha])]
    obtain ⟨t, stepped, _⟩ := elementStep_inRun (h.inRun ha)
    exact ⟨t, stepped⟩

end Sys2Proof.Machine
end
